-- ==== Sys2Proof/Word.lean ====
section
/-! DEFINITION. The machine's words: a word is 32 bits, a halfword 16, a byte 8, a doubleword 64 (rule R11). -/

namespace Sys2Proof

/-- A word, 32 bits (R11): a register, an address, an instruction. -/
abbrev Word := BitVec 32

/-- A halfword, 16 bits (R11). -/
abbrev Half := BitVec 16

/-- A byte, 8 bits (R11), the unit of memory (R50). -/
abbrev Byte := BitVec 8

/-- A doubleword, 64 bits (R11): a product, or a double-precision value. -/
abbrev DWord := BitVec 64

end Sys2Proof
end

