-- ==== Sys2Proof/Config.lean ====
section
/-! DEFINITION. The parameters of rule R6 that are data, their defaults, and the free values: the draws and
oracles the spec leaves open, each an opaque constant that nothing can evaluate. -/

namespace Sys2Proof

/-- `BRANCH_DELAY` (R6, R151; decision D1). -/
inductive BranchDelay where
  | none
  | oneSlot
  deriving DecidableEq, Repr

/-- `BYTE_ORDER` (R6, R52; decision D2). -/
inductive ByteOrder where
  | little
  | big
  deriving DecidableEq, Repr

/-- `FP_PAIR_ORDER` (R6, R243; decision D16). -/
inductive FpPairOrder where
  | firstIsHigh
  | firstIsLow
  deriving DecidableEq, Repr

/-- `UNINIT_READ` (R6, R332; decision D9): what the read of a register or a byte that has no value
does. -/
inductive UninitRead where
  | draw
  | fault
  deriving DecidableEq, Repr

/-- Which record `FP_NUMERICS` is (R222; decision D15): any record of total functions at all, or the instance
the spec intends, IEEE 754 binary32 and binary64 rounding to nearest even (log 14). -/
inductive FpNumerics where
  | uninterpreted
  | ieee754
  deriving DecidableEq, Repr

/-- The four operations of `FP_NUMERICS` (R222). -/
inductive FpArith where
  | add
  | sub
  | mul
  | div
  deriving DecidableEq, Repr

/-- The three comparisons of `FP_NUMERICS` (R222). -/
inductive FpCmp where
  | eq
  | lt
  | le
  deriving DecidableEq, Repr

/-- The parameters of R6 that are data. The machine keeps them as an argument by holding them in its state. -/
structure Params where
  branchDelay : BranchDelay
  byteOrder : ByteOrder
  fpPairOrder : FpPairOrder
  scMayFailSpuriously : Bool
  uninitRead : UninitRead
  fpNumerics : FpNumerics
  deriving DecidableEq, Repr

namespace Config

/-- The defaults of R6; `FP_NUMERICS` has none there and takes the instance the spec recommends (log 14). -/
def defaults : Params where
  branchDelay := .none
  byteOrder := .little
  fpPairOrder := .firstIsHigh
  scMayFailSpuriously := true
  uninitRead := .draw
  fpNumerics := .ieee754

/-- `TEXT_BASE`, default (R6). -/
def textBase : Word := 0x00400000#32

/-- `DATA_BASE`, default (R6): where a launch's first data region stands by convention (R331). -/
def dataBase : Word := 0x10010000#32

/-- The n-th draw `any32` of a run (R9): a value the spec does not fix (log 11). -/
opaque any32 : Nat → Word

/-- The n-th draw `anybit` of a run (R9; log 11). -/
opaque anyBit : Nat → Bool

/-- `CR_READ`: the oracle `cr_value` of R33, unconstrained (log 3). -/
opaque crValue : Fin 32 → Word

/-- What a byte that has no value reads as under `UNINIT_READ = draw`: the same at every later read (R332; log 4). -/
opaque freeByte : Nat → Byte

/-- `fp_add_s`, `fp_sub_s`, `fp_mul_s`, `fp_div_s` of an arbitrary `FP_NUMERICS` (R222): fs operand first. -/
opaque fpArithS : FpArith → Word → Word → Word

/-- `fp_add_d`, `fp_sub_d`, `fp_mul_d`, `fp_div_d` of an arbitrary `FP_NUMERICS` (R222). -/
opaque fpArithD : FpArith → DWord → DWord → DWord

/-- `fp_eq_s`, `fp_lt_s`, `fp_le_s` of an arbitrary `FP_NUMERICS` (R222). -/
opaque fpCmpS : FpCmp → Word → Word → Bool

/-- `fp_eq_d`, `fp_lt_d`, `fp_le_d` of an arbitrary `FP_NUMERICS` (R222). -/
opaque fpCmpD : FpCmp → DWord → DWord → Bool

/-- The sign and payload of a NaN that a single-precision IEEE operation answers: IEEE 754 leaves them open (log 15). -/
opaque nanBitsS : FpArith → Word → Word → Word

/-- The sign and payload of a NaN that a double-precision IEEE operation answers (log 15). -/
opaque nanBitsD : FpArith → DWord → DWord → DWord

end Config
end Sys2Proof
end

