-- ==== Sys2Proof/Syntax.lean ====
section
/-! DEFINITION. The instructions: one constructor per row of spec/opcode_table.json, its operands in the order of
the assembler syntax (rule R104); and the names of the general registers (rule R21). -/

namespace Sys2Proof

/-- A general register's number: a 5-bit field rs, rt or rd (R20, R86). -/
abbrev Reg := BitVec 5

/-- A floating-point register's number: a 5-bit field ft, fs or fd (R30, R86). -/
abbrev FReg := BitVec 5

/-- The immediate field of the I and FI formats (R82, R85). -/
abbrev Imm := BitVec 16

/-- The 62 machine instructions of R2, in the order of the table of R99. -/
inductive Instr where
  /-- R111 -/
  | add (rd rs rt : Reg)
  /-- R112 -/
  | addi (rt rs : Reg) (imm : Imm)
  /-- R113 -/
  | addiu (rt rs : Reg) (imm : Imm)
  /-- R114 -/
  | addu (rd rs rt : Reg)
  /-- R115 -/
  | sub (rd rs rt : Reg)
  /-- R116 -/
  | subu (rd rs rt : Reg)
  /-- R117 -/
  | slt (rd rs rt : Reg)
  /-- R118 -/
  | sltu (rd rs rt : Reg)
  /-- R119 -/
  | slti (rt rs : Reg) (imm : Imm)
  /-- R120 -/
  | sltiu (rt rs : Reg) (imm : Imm)
  /-- R130 -/
  | and (rd rs rt : Reg)
  /-- R131 -/
  | andi (rt rs : Reg) (imm : Imm)
  /-- R132 -/
  | or (rd rs rt : Reg)
  /-- R133 -/
  | ori (rt rs : Reg) (imm : Imm)
  /-- R134 -/
  | nor (rd rs rt : Reg)
  /-- R135 -/
  | xor (rd rs rt : Reg)
  /-- R136 -/
  | sll (rd rt : Reg) (shamt : BitVec 5)
  /-- R137 -/
  | srl (rd rt : Reg) (shamt : BitVec 5)
  /-- R138 -/
  | sra (rd rt : Reg) (shamt : BitVec 5)
  /-- R152 -/
  | beq (rs rt : Reg) (imm : Imm)
  /-- R153 -/
  | bne (rs rt : Reg) (imm : Imm)
  /-- R154 -/
  | j (address : BitVec 26)
  /-- R156 -/
  | jal (address : BitVec 26)
  /-- R157 -/
  | jr (rs : Reg)
  /-- R171 -/
  | lw (rt : Reg) (imm : Imm) (rs : Reg)
  /-- R172 -/
  | lbu (rt : Reg) (imm : Imm) (rs : Reg)
  /-- R173 -/
  | lb (rt : Reg) (imm : Imm) (rs : Reg)
  /-- R174 -/
  | lhu (rt : Reg) (imm : Imm) (rs : Reg)
  /-- R175 -/
  | lh (rt : Reg) (imm : Imm) (rs : Reg)
  /-- R176 -/
  | sw (rt : Reg) (imm : Imm) (rs : Reg)
  /-- R177 -/
  | sb (rt : Reg) (imm : Imm) (rs : Reg)
  /-- R178 -/
  | sh (rt : Reg) (imm : Imm) (rs : Reg)
  /-- R179 -/
  | lui (rt : Reg) (imm : Imm)
  /-- R180 -/
  | ll (rt : Reg) (imm : Imm) (rs : Reg)
  /-- R181 -/
  | sc (rt : Reg) (imm : Imm) (rs : Reg)
  /-- R201 -/
  | mult (rs rt : Reg)
  /-- R202 -/
  | multu (rs rt : Reg)
  /-- R203 -/
  | div (rs rt : Reg)
  /-- R204 -/
  | divu (rs rt : Reg)
  /-- R205 -/
  | mfhi (rd : Reg)
  /-- R206 -/
  | mflo (rd : Reg)
  /-- R223 -/
  | addS (fd fs ft : FReg)
  /-- R224 -/
  | addD (fd fs ft : FReg)
  /-- R225 -/
  | subS (fd fs ft : FReg)
  /-- R226 -/
  | subD (fd fs ft : FReg)
  /-- R227 -/
  | mulS (fd fs ft : FReg)
  /-- R228 -/
  | mulD (fd fs ft : FReg)
  /-- R229 -/
  | divS (fd fs ft : FReg)
  /-- R230 -/
  | divD (fd fs ft : FReg)
  /-- R231 -/
  | cEqS (fs ft : FReg)
  /-- R232 -/
  | cLtS (fs ft : FReg)
  /-- R233 -/
  | cLeS (fs ft : FReg)
  /-- R234 -/
  | cEqD (fs ft : FReg)
  /-- R235 -/
  | cLtD (fs ft : FReg)
  /-- R236 -/
  | cLeD (fs ft : FReg)
  /-- R237 -/
  | bc1t (imm : Imm)
  /-- R238 -/
  | bc1f (imm : Imm)
  /-- R239 -/
  | lwc1 (ft : FReg) (imm : Imm) (rs : Reg)
  /-- R240 -/
  | ldc1 (ft : FReg) (imm : Imm) (rs : Reg)
  /-- R241 -/
  | swc1 (ft : FReg) (imm : Imm) (rs : Reg)
  /-- R242 -/
  | sdc1 (ft : FReg) (imm : Imm) (rs : Reg)
  /-- R260; `rt` is the general register written, `rd` the control register read (R97). -/
  | mfc0 (rt : Reg) (rd : BitVec 5)
  deriving DecidableEq, Repr

/-- The register's name (R21); the hardware does not distinguish names from numbers. -/
def regName (r : Reg) : String :=
  ["zero", "at", "v0", "v1", "a0", "a1", "a2", "a3", "t0", "t1", "t2", "t3", "t4", "t5", "t6", "t7",
   "s0", "s1", "s2", "s3", "s4", "s5", "s6", "s7", "t8", "t9", "k0", "k1", "gp", "sp", "fp", "ra"].getD r.toNat ""

/-- The column "preserved across a call?" of R21 and R24, a convention between subroutines that the hardware does
not enforce: no answer for `$zero` ("N.A."), which cannot change. -/
def preservedAcrossCall (r : Reg) : Option Bool :=
  if r = 0#5 then none
  else some ((16 ≤ r.toNat && r.toNat ≤ 23) || 28 ≤ r.toNat)

end Sys2Proof
end

