-- ==== Sys2Proof/WellFormed.lean ====
section
/-! DEFINITION. Which instructions are well formed. The types of the operands hold every bound but one: a
double-precision operand names an even register (rules R31, R243). -/

namespace Sys2Proof

/-- The register number of a double operand must be even (R243): its pair is this register and the next. -/
def evenFReg (n : FReg) : Bool := !n.getLsbD 0

/-- Every double operand names an even register (R31, R243). An ill-formed instruction still has a word, which
decodes to it; the machine refuses it by ReservedInstruction (R304 (b)). -/
def Instr.wellFormed : Instr → Bool
  | .addD fd fs ft => evenFReg fd && evenFReg fs && evenFReg ft
  | .subD fd fs ft => evenFReg fd && evenFReg fs && evenFReg ft
  | .mulD fd fs ft => evenFReg fd && evenFReg fs && evenFReg ft
  | .divD fd fs ft => evenFReg fd && evenFReg fs && evenFReg ft
  | .cEqD fs ft => evenFReg fs && evenFReg ft
  | .cLtD fs ft => evenFReg fs && evenFReg ft
  | .cLeD fs ft => evenFReg fs && evenFReg ft
  | .ldc1 ft _ _ => evenFReg ft
  | .sdc1 ft _ _ => evenFReg ft
  | .add _ _ _ | .addi _ _ _ | .addiu _ _ _ | .addu _ _ _ | .sub _ _ _ | .subu _ _ _ | .slt _ _ _ | .sltu _ _ _
  | .slti _ _ _ | .sltiu _ _ _ | .and _ _ _ | .andi _ _ _ | .or _ _ _ | .ori _ _ _ | .nor _ _ _ | .xor _ _ _
  | .sll _ _ _ | .srl _ _ _ | .sra _ _ _ | .beq _ _ _ | .bne _ _ _ | .j _ | .jal _ | .jr _ | .lw _ _ _ | .lbu _ _ _
  | .lb _ _ _ | .lhu _ _ _ | .lh _ _ _ | .sw _ _ _ | .sb _ _ _ | .sh _ _ _ | .lui _ _ | .ll _ _ _ | .sc _ _ _
  | .mult _ _ | .multu _ _ | .div _ _ | .divu _ _ | .mfhi _ | .mflo _ | .addS _ _ _ | .subS _ _ _ | .mulS _ _ _
  | .divS _ _ _ | .cEqS _ _ | .cLtS _ _ | .cLeS _ _ | .bc1t _ | .bc1f _ | .lwc1 _ _ _ | .swc1 _ _ _
  | .mfc0 _ _ => true

end Sys2Proof
end

