-- ==== Sys2Proof/Decode.lean ====
section
/-! DEFINITION. Instruction words: the fields of the five formats (rules R81 to R85), byte order (R52), the opcode
table and the decoder (R99 to R101), and after them the encoder. -/

namespace Sys2Proof

/-! ### Byte order (R52) -/

/-- The halfword whose bytes at the lower and the higher address are `b0` and `b1` (R52). -/
def joinHalf (o : ByteOrder) (b0 b1 : Byte) : Half :=
  match o with
  | .little => b1 ++ b0
  | .big => b0 ++ b1

/-- The word whose bytes in rising address order are `b0` to `b3` (R52). -/
def joinWord (o : ByteOrder) (b0 b1 b2 b3 : Byte) : Word :=
  match o with
  | .little => b3 ++ b2 ++ b1 ++ b0
  | .big => b0 ++ b1 ++ b2 ++ b3

/-- Byte `i` of a value counted from its least significant end: `v[8i+7 : 8i]` (R52). -/
def byteOf {n : Nat} (v : BitVec n) (i : Nat) : Byte := v.extractLsb' (8 * i) 8

/-- The byte of an `n`-byte value that goes to the address `i` above the value's own (R52). -/
def laneByte (o : ByteOrder) (n : Nat) {m : Nat} (v : BitVec m) (i : Nat) : Byte :=
  match o with
  | .little => byteOf v i
  | .big => byteOf v (n - 1 - i)

/-! ### Fields (R81 to R86) -/

/-- Bits 31:26, opcode (R81). -/
def fOpcode (w : Word) : BitVec 6 := w.extractLsb' 26 6
/-- Bits 25:21, rs, or fmt in the FR and FI formats (R81, R84). -/
def fRs (w : Word) : BitVec 5 := w.extractLsb' 21 5
/-- Bits 20:16, rt or ft (R81, R84, R86). -/
def fRt (w : Word) : BitVec 5 := w.extractLsb' 16 5
/-- Bits 15:11, rd or fs (R81, R84). -/
def fRd (w : Word) : BitVec 5 := w.extractLsb' 11 5
/-- Bits 10:6, shamt or fd (R81, R84, R92). -/
def fShamt (w : Word) : BitVec 5 := w.extractLsb' 6 5
/-- Bits 5:0, funct (R81). -/
def fFunct (w : Word) : BitVec 6 := w.extractLsb' 0 6
/-- Bits 15:0, immediate (R82, R85). -/
def fImm (w : Word) : BitVec 16 := w.extractLsb' 0 16
/-- Bits 25:0, address (R83). -/
def fAddress (w : Word) : BitVec 26 := w.extractLsb' 0 26

/-! ### The opcode table (R99) -/

/-- One row of the table of R99: the mnemonic, `match` and `mask`, and the instruction built from the operand fields. -/
structure Row where
  mnemonic : String
  pattern : Word
  mask : Word
  build : Word → Instr

/-- A word is of a row when `w & mask = match` (R99). -/
def Row.accepts (r : Row) (w : Word) : Bool := w &&& r.mask == r.pattern

/-- Arithmetic and compare rows (R111 to R120). -/
def arithmeticRows : List Row :=
  [⟨"add", 0x00000020#32, 0xfc0007ff#32, fun w => .add (fRd w) (fRs w) (fRt w)⟩,
   ⟨"addi", 0x20000000#32, 0xfc000000#32, fun w => .addi (fRt w) (fRs w) (fImm w)⟩,
   ⟨"addiu", 0x24000000#32, 0xfc000000#32, fun w => .addiu (fRt w) (fRs w) (fImm w)⟩,
   ⟨"addu", 0x00000021#32, 0xfc0007ff#32, fun w => .addu (fRd w) (fRs w) (fRt w)⟩,
   ⟨"sub", 0x00000022#32, 0xfc0007ff#32, fun w => .sub (fRd w) (fRs w) (fRt w)⟩,
   ⟨"subu", 0x00000023#32, 0xfc0007ff#32, fun w => .subu (fRd w) (fRs w) (fRt w)⟩,
   ⟨"slt", 0x0000002a#32, 0xfc0007ff#32, fun w => .slt (fRd w) (fRs w) (fRt w)⟩,
   ⟨"sltu", 0x0000002b#32, 0xfc0007ff#32, fun w => .sltu (fRd w) (fRs w) (fRt w)⟩,
   ⟨"slti", 0x28000000#32, 0xfc000000#32, fun w => .slti (fRt w) (fRs w) (fImm w)⟩,
   ⟨"sltiu", 0x2c000000#32, 0xfc000000#32, fun w => .sltiu (fRt w) (fRs w) (fImm w)⟩]

/-- Logic and shift rows (R130 to R138). -/
def logicRows : List Row :=
  [⟨"and", 0x00000024#32, 0xfc0007ff#32, fun w => .and (fRd w) (fRs w) (fRt w)⟩,
   ⟨"andi", 0x30000000#32, 0xfc000000#32, fun w => .andi (fRt w) (fRs w) (fImm w)⟩,
   ⟨"or", 0x00000025#32, 0xfc0007ff#32, fun w => .or (fRd w) (fRs w) (fRt w)⟩,
   ⟨"ori", 0x34000000#32, 0xfc000000#32, fun w => .ori (fRt w) (fRs w) (fImm w)⟩,
   ⟨"nor", 0x00000027#32, 0xfc0007ff#32, fun w => .nor (fRd w) (fRs w) (fRt w)⟩,
   ⟨"xor", 0x00000026#32, 0xfc0007ff#32, fun w => .xor (fRd w) (fRs w) (fRt w)⟩,
   ⟨"sll", 0x00000000#32, 0xffe0003f#32, fun w => .sll (fRd w) (fRt w) (fShamt w)⟩,
   ⟨"srl", 0x00000002#32, 0xffe0003f#32, fun w => .srl (fRd w) (fRt w) (fShamt w)⟩,
   ⟨"sra", 0x00000003#32, 0xffe0003f#32, fun w => .sra (fRd w) (fRt w) (fShamt w)⟩]

/-- Branch and jump rows (R152 to R157). -/
def branchRows : List Row :=
  [⟨"beq", 0x10000000#32, 0xfc000000#32, fun w => .beq (fRs w) (fRt w) (fImm w)⟩,
   ⟨"bne", 0x14000000#32, 0xfc000000#32, fun w => .bne (fRs w) (fRt w) (fImm w)⟩,
   ⟨"j", 0x08000000#32, 0xfc000000#32, fun w => .j (fAddress w)⟩,
   ⟨"jal", 0x0c000000#32, 0xfc000000#32, fun w => .jal (fAddress w)⟩,
   ⟨"jr", 0x00000008#32, 0xfc1fffff#32, fun w => .jr (fRs w)⟩]

/-- Load and store rows (R171 to R181). -/
def memoryRows : List Row :=
  [⟨"lw", 0x8c000000#32, 0xfc000000#32, fun w => .lw (fRt w) (fImm w) (fRs w)⟩,
   ⟨"lbu", 0x90000000#32, 0xfc000000#32, fun w => .lbu (fRt w) (fImm w) (fRs w)⟩,
   ⟨"lb", 0x80000000#32, 0xfc000000#32, fun w => .lb (fRt w) (fImm w) (fRs w)⟩,
   ⟨"lhu", 0x94000000#32, 0xfc000000#32, fun w => .lhu (fRt w) (fImm w) (fRs w)⟩,
   ⟨"lh", 0x84000000#32, 0xfc000000#32, fun w => .lh (fRt w) (fImm w) (fRs w)⟩,
   ⟨"sw", 0xac000000#32, 0xfc000000#32, fun w => .sw (fRt w) (fImm w) (fRs w)⟩,
   ⟨"sb", 0xa0000000#32, 0xfc000000#32, fun w => .sb (fRt w) (fImm w) (fRs w)⟩,
   ⟨"sh", 0xa4000000#32, 0xfc000000#32, fun w => .sh (fRt w) (fImm w) (fRs w)⟩,
   ⟨"lui", 0x3c000000#32, 0xffe00000#32, fun w => .lui (fRt w) (fImm w)⟩,
   ⟨"ll", 0xc0000000#32, 0xfc000000#32, fun w => .ll (fRt w) (fImm w) (fRs w)⟩,
   ⟨"sc", 0xe0000000#32, 0xfc000000#32, fun w => .sc (fRt w) (fImm w) (fRs w)⟩]

/-- Multiply and divide rows (R201 to R206). -/
def multiplyRows : List Row :=
  [⟨"mult", 0x00000018#32, 0xfc00ffff#32, fun w => .mult (fRs w) (fRt w)⟩,
   ⟨"multu", 0x00000019#32, 0xfc00ffff#32, fun w => .multu (fRs w) (fRt w)⟩,
   ⟨"div", 0x0000001a#32, 0xfc00ffff#32, fun w => .div (fRs w) (fRt w)⟩,
   ⟨"divu", 0x0000001b#32, 0xfc00ffff#32, fun w => .divu (fRs w) (fRt w)⟩,
   ⟨"mfhi", 0x00000010#32, 0xffff07ff#32, fun w => .mfhi (fRd w)⟩,
   ⟨"mflo", 0x00000012#32, 0xffff07ff#32, fun w => .mflo (fRd w)⟩]

/-- Floating-point arithmetic and compare rows (R223 to R236). -/
def floatRows : List Row :=
  [⟨"add.s", 0x46000000#32, 0xffe0003f#32, fun w => .addS (fShamt w) (fRd w) (fRt w)⟩,
   ⟨"add.d", 0x46200000#32, 0xffe0003f#32, fun w => .addD (fShamt w) (fRd w) (fRt w)⟩,
   ⟨"sub.s", 0x46000001#32, 0xffe0003f#32, fun w => .subS (fShamt w) (fRd w) (fRt w)⟩,
   ⟨"sub.d", 0x46200001#32, 0xffe0003f#32, fun w => .subD (fShamt w) (fRd w) (fRt w)⟩,
   ⟨"mul.s", 0x46000002#32, 0xffe0003f#32, fun w => .mulS (fShamt w) (fRd w) (fRt w)⟩,
   ⟨"mul.d", 0x46200002#32, 0xffe0003f#32, fun w => .mulD (fShamt w) (fRd w) (fRt w)⟩,
   ⟨"div.s", 0x46000003#32, 0xffe0003f#32, fun w => .divS (fShamt w) (fRd w) (fRt w)⟩,
   ⟨"div.d", 0x46200003#32, 0xffe0003f#32, fun w => .divD (fShamt w) (fRd w) (fRt w)⟩,
   ⟨"c.eq.s", 0x46000032#32, 0xffe007ff#32, fun w => .cEqS (fRd w) (fRt w)⟩,
   ⟨"c.lt.s", 0x4600003c#32, 0xffe007ff#32, fun w => .cLtS (fRd w) (fRt w)⟩,
   ⟨"c.le.s", 0x4600003e#32, 0xffe007ff#32, fun w => .cLeS (fRd w) (fRt w)⟩,
   ⟨"c.eq.d", 0x46200032#32, 0xffe007ff#32, fun w => .cEqD (fRd w) (fRt w)⟩,
   ⟨"c.lt.d", 0x4620003c#32, 0xffe007ff#32, fun w => .cLtD (fRd w) (fRt w)⟩,
   ⟨"c.le.d", 0x4620003e#32, 0xffe007ff#32, fun w => .cLeD (fRd w) (fRt w)⟩]

/-- Floating-point branches, loads and stores, and mfc0 (R237 to R242, R260). -/
def floatBranchRows : List Row :=
  [⟨"bc1t", 0x45010000#32, 0xffff0000#32, fun w => .bc1t (fImm w)⟩,
   ⟨"bc1f", 0x45000000#32, 0xffff0000#32, fun w => .bc1f (fImm w)⟩,
   ⟨"lwc1", 0xc4000000#32, 0xfc000000#32, fun w => .lwc1 (fRt w) (fImm w) (fRs w)⟩,
   ⟨"ldc1", 0xd4000000#32, 0xfc000000#32, fun w => .ldc1 (fRt w) (fImm w) (fRs w)⟩,
   ⟨"swc1", 0xe4000000#32, 0xfc000000#32, fun w => .swc1 (fRt w) (fImm w) (fRs w)⟩,
   ⟨"sdc1", 0xf4000000#32, 0xfc000000#32, fun w => .sdc1 (fRt w) (fImm w) (fRs w)⟩,
   ⟨"mfc0", 0x40000000#32, 0xffe007ff#32, fun w => .mfc0 (fRt w) (fRd w)⟩]

/-- The 62 rows of R99. -/
def opcodeTable : List Row :=
  arithmeticRows ++ logicRows ++ branchRows ++ memoryRows ++ multiplyRows ++ floatRows ++ floatBranchRows

/-! ### Decoding -/

/-- Why bytes are no instruction. -/
inductive DecodeError where
  /-- The word matches no row of R99: a reserved encoding (R100, R101). -/
  | reserved (w : Word)
  /-- Fewer than the four bytes of an instruction (R80). -/
  | truncated (got : Nat)
  deriving DecidableEq, Repr

/-- The row a word is of, if any (R99). -/
def rowOf (w : Word) : Option Row := opcodeTable.find? (·.accepts w)

/-- The instruction a word encodes, or `reserved` (R99, R100). -/
def decodeWord (w : Word) : Except DecodeError Instr :=
  match rowOf w with
  | some r => .ok (r.build w)
  | none => .error (.reserved w)

/-- The instruction at the head of a list of bytes in rising address order, and the bytes after it (R80, R53). -/
def decodeBytes (o : ByteOrder) : List Byte → Except DecodeError (Instr × List Byte)
  | b0 :: b1 :: b2 :: b3 :: rest =>
    match decodeWord (joinWord o b0 b1 b2 b3) with
    | .ok i => .ok (i, rest)
    | .error e => .error e
  | short => .error (.truncated short.length)

/-- The four bytes of a word in rising address order (R52). -/
def wordBytes (o : ByteOrder) (w : Word) : List Byte :=
  [laneByte o 4 w 0, laneByte o 4 w 1, laneByte o 4 w 2, laneByte o 4 w 3]

/-- What the decoder reads from an instruction whose bits are `w`, as spec/opcode_table.json numbers them: the word
is laid out as little-endian bytes (the default of R52) and given to the decoder. -/
def decodeTableWord (nbits w : Nat) : Option Instr :=
  match decodeBytes .little (wordBytes .little (BitVec.ofNat 32 (w % 2 ^ nbits))) with
  | .ok (i, _) => some i
  | .error _ => none

/-! ### Encoding (the formulas after the table of R99) -/

/-- R and FR formats: `(opcode<<26) | (rs<<21) | (rt<<16) | (rd<<11) | (shamt<<6) | funct` (R81, R84). -/
def encR (op : BitVec 6) (rs rt rd shamt : BitVec 5) (funct : BitVec 6) : Word :=
  (op.setWidth 32 <<< 26) ||| (rs.setWidth 32 <<< 21) ||| (rt.setWidth 32 <<< 16) ||| (rd.setWidth 32 <<< 11)
    ||| (shamt.setWidth 32 <<< 6) ||| funct.setWidth 32

/-- I and FI formats: `(opcode<<26) | (rs_or_fmt<<21) | (rt_or_ft<<16) | imm16` (R82, R85). -/
def encI (op : BitVec 6) (rs rt : BitVec 5) (imm : BitVec 16) : Word :=
  (op.setWidth 32 <<< 26) ||| (rs.setWidth 32 <<< 21) ||| (rt.setWidth 32 <<< 16) ||| imm.setWidth 32

/-- J format: `(opcode<<26) | address26` (R83). -/
def encJ (op : BitVec 6) (address : BitVec 26) : Word :=
  (op.setWidth 32 <<< 26) ||| address.setWidth 32

/-- The word of an instruction (R94 to R98, R101): opcode, fmt and funct in hex as those rules give them, unused
fields zero. -/
def encode : Instr → Word
  | .add rd rs rt => encR 0x00 rs rt rd 0 0x20
  | .addi rt rs imm => encI 0x08 rs rt imm
  | .addiu rt rs imm => encI 0x09 rs rt imm
  | .addu rd rs rt => encR 0x00 rs rt rd 0 0x21
  | .sub rd rs rt => encR 0x00 rs rt rd 0 0x22
  | .subu rd rs rt => encR 0x00 rs rt rd 0 0x23
  | .slt rd rs rt => encR 0x00 rs rt rd 0 0x2a
  | .sltu rd rs rt => encR 0x00 rs rt rd 0 0x2b
  | .slti rt rs imm => encI 0x0a rs rt imm
  | .sltiu rt rs imm => encI 0x0b rs rt imm
  | .and rd rs rt => encR 0x00 rs rt rd 0 0x24
  | .andi rt rs imm => encI 0x0c rs rt imm
  | .or rd rs rt => encR 0x00 rs rt rd 0 0x25
  | .ori rt rs imm => encI 0x0d rs rt imm
  | .nor rd rs rt => encR 0x00 rs rt rd 0 0x27
  | .xor rd rs rt => encR 0x00 rs rt rd 0 0x26
  | .sll rd rt shamt => encR 0x00 0 rt rd shamt 0x00
  | .srl rd rt shamt => encR 0x00 0 rt rd shamt 0x02
  | .sra rd rt shamt => encR 0x00 0 rt rd shamt 0x03
  | .beq rs rt imm => encI 0x04 rs rt imm
  | .bne rs rt imm => encI 0x05 rs rt imm
  | .j address => encJ 0x02 address
  | .jal address => encJ 0x03 address
  | .jr rs => encR 0x00 rs 0 0 0 0x08
  | .lw rt imm rs => encI 0x23 rs rt imm
  | .lbu rt imm rs => encI 0x24 rs rt imm
  | .lb rt imm rs => encI 0x20 rs rt imm
  | .lhu rt imm rs => encI 0x25 rs rt imm
  | .lh rt imm rs => encI 0x21 rs rt imm
  | .sw rt imm rs => encI 0x2b rs rt imm
  | .sb rt imm rs => encI 0x28 rs rt imm
  | .sh rt imm rs => encI 0x29 rs rt imm
  | .lui rt imm => encI 0x0f 0 rt imm
  | .ll rt imm rs => encI 0x30 rs rt imm
  | .sc rt imm rs => encI 0x38 rs rt imm
  | .mult rs rt => encR 0x00 rs rt 0 0 0x18
  | .multu rs rt => encR 0x00 rs rt 0 0 0x19
  | .div rs rt => encR 0x00 rs rt 0 0 0x1a
  | .divu rs rt => encR 0x00 rs rt 0 0 0x1b
  | .mfhi rd => encR 0x00 0 0 rd 0 0x10
  | .mflo rd => encR 0x00 0 0 rd 0 0x12
  | .addS fd fs ft => encR 0x11 0x10 ft fs fd 0x00
  | .addD fd fs ft => encR 0x11 0x11 ft fs fd 0x00
  | .subS fd fs ft => encR 0x11 0x10 ft fs fd 0x01
  | .subD fd fs ft => encR 0x11 0x11 ft fs fd 0x01
  | .mulS fd fs ft => encR 0x11 0x10 ft fs fd 0x02
  | .mulD fd fs ft => encR 0x11 0x11 ft fs fd 0x02
  | .divS fd fs ft => encR 0x11 0x10 ft fs fd 0x03
  | .divD fd fs ft => encR 0x11 0x11 ft fs fd 0x03
  | .cEqS fs ft => encR 0x11 0x10 ft fs 0 0x32
  | .cLtS fs ft => encR 0x11 0x10 ft fs 0 0x3c
  | .cLeS fs ft => encR 0x11 0x10 ft fs 0 0x3e
  | .cEqD fs ft => encR 0x11 0x11 ft fs 0 0x32
  | .cLtD fs ft => encR 0x11 0x11 ft fs 0 0x3c
  | .cLeD fs ft => encR 0x11 0x11 ft fs 0 0x3e
  | .bc1t imm => encI 0x11 0x08 0x01 imm
  | .bc1f imm => encI 0x11 0x08 0x00 imm
  | .lwc1 ft imm rs => encI 0x31 rs ft imm
  | .ldc1 ft imm rs => encI 0x35 rs ft imm
  | .swc1 ft imm rs => encI 0x39 rs ft imm
  | .sdc1 ft imm rs => encI 0x3d rs ft imm
  | .mfc0 rt rd => encR 0x10 0 rt rd 0 0x00

end Sys2Proof
end

