-- ==== Sys2Proof/Machine/State.lean ====
section
/-! DEFINITION. The machine's state: everything spec/10_state.md names, the launch's map and the parameters as plain
data, the reasons a step can stop, and the state after reset. -/

namespace Sys2Proof.Machine

/-- Memory: the bytes that have a value, as (address, byte) pairs (R50). An address that is not listed has no value
(R37, R332); the canonical form is `Memory.wf`. -/
abbrev Memory := List Host.Cell

/-- The canonical form: addresses strictly rising, all of them 32-bit byte addresses (R50). An unlisted address reads
as "no value", which no entry can be equal to. -/
abbrev Memory.wf (m : Memory) : Prop :=
  m.Pairwise (fun p q => p.1 < q.1) ∧ ∀ c ∈ m, c.1 < 2 ^ 32

/-- A range of byte addresses that a launch maps (R60). -/
structure Region where
  base : Nat
  size : Nat
  deriving DecidableEq, Repr

/-- What a launch fixes about memory and about the end of the run: the text region, the data regions (R60, R331) and
`END_PC` (R335). -/
structure MemMap where
  text : Region
  data : List Region
  endPc : Word
  deriving DecidableEq, Repr

/-- Which registers the launch or the program has written: the others have no value in the sense of R25, R37 and R332,
though each holds one (log 2). The model's own record; only `UNINIT_READ = fault` looks at it (log 5). -/
structure Written where
  gprs : Vector Bool 32
  fprs : Vector Bool 32
  hi : Bool
  lo : Bool
  fpcond : Bool
  deriving DecidableEq, Repr

/-- Nothing has been written. -/
def Written.nothing : Written where
  gprs := Vector.replicate 32 false
  fprs := Vector.replicate 32 false
  hi := false
  lo := false
  fpcond := false

/-- A piece of state that R332 names. -/
inductive Piece where
  /-- `x[r]` -/
  | gpr (r : Reg)
  | hi
  | lo
  /-- `f[n]` -/
  | fpr (n : FReg)
  | fpcond
  /-- The bytes of an access to memory, by its address. -/
  | memory (addr : Word)
  deriving DecidableEq, Repr

/-- The machine's state (spec/10_state.md). -/
structure State where
  /-- `x[0]` to `x[31]` (R20); `x[0]` is read and written through `State.reg` and `State.setReg` only (R22). -/
  gprs : Vector Word 32
  /-- The address of the instruction to execute (R26, R27). -/
  pc : Word
  /-- The address of the instruction after the next; used under `BRANCH_DELAY = one_slot` only (R28, R151). -/
  npc : Word
  /-- The instruction at `pc` stands in a delay slot; used under `one_slot` only (R151, R304 (c); log 8). -/
  inDelaySlot : Bool
  /-- `hi` (R29). -/
  hi : Word
  /-- `lo` (R29). -/
  lo : Word
  /-- `f[0]` to `f[31]` (R30). -/
  fprs : Vector Word 32
  /-- `fpcond`, the one condition flag (R32). -/
  fpcond : Bool
  /-- `cr[0]` to `cr[31]` (R33). -/
  crs : Vector Word 32
  /-- `llbit`, hidden (R34). -/
  llbit : Bool
  /-- `lladdr`, hidden (R34). -/
  lladdr : Word
  /-- Memory (R35, R50). -/
  mem : Memory
  /-- The launch's map and `END_PC` (R60, R331, R335); no step changes it (log 16). -/
  map : MemMap
  /-- The parameters of R6 that are data; no step changes them (log 16). -/
  params : Params
  /-- The model's own counter of the draws taken so far (R9 `any32`, `anybit`; log 11). -/
  draws : Nat
  /-- The model's own record of the registers written so far (R332; log 5). -/
  written : Written
  deriving DecidableEq, Repr

/-- The state after reset: the launch of no program with no data region (R37, R330, R331; log 1). Where R37 gives no
value the value stands in log 2, and in log 3 for the control registers. -/
def State.reset : State where
  gprs := Vector.replicate 32 0#32
  pc := Config.textBase
  npc := Config.textBase + 4#32
  inDelaySlot := false
  hi := 0#32
  lo := 0#32
  fprs := Vector.replicate 32 0#32
  fpcond := false
  crs := Vector.ofFn Config.crValue
  llbit := false
  lladdr := 0#32
  mem := []
  map := { text := { base := Config.textBase.toNat, size := 0 }, data := [], endPc := Config.textBase }
  params := Config.defaults
  draws := 0
  written := Written.nothing

/-- The kind of access an address error names (R305). -/
inductive AccessKind where
  | load
  | store
  | fetch
  deriving DecidableEq, Repr

/-- The machine's terminal state `Fault(E, info, pc)` (R303): the exception and its information, the `pc` of R302, and
the state in which the run ended, which is the state before the step with `llbit` cleared (R303, R318). An exception
ends the run: the spec describes no handler and no return (R308, R309; log 6). -/
inductive Fault where
  /-- `Overflow()`: raised by add, addi and sub (R301). Safe: the spec's own outcome. -/
  | overflow (pc : Word) (final : State)
  /-- `AddressError(kind, addr)`: raised by loads, stores and the fetch (R305). Safe: the spec's own outcome. -/
  | addressError (kind : AccessKind) (addr : Word) (pc : Word) (final : State)
  /-- `ReservedInstruction(word)`: raised by the decode, by an odd register of a double, and by a branch or jump in a
  delay slot (R304). Safe: the spec's own outcome. -/
  | reservedInstruction (word : Word) (pc : Word) (final : State)
  /-- `UninitialisedRead`: raised under `UNINIT_READ = fault` by a step that reads a register that nothing has written,
  and by a load or fetch of a byte that has no value (R332). No exception of the hardware, so `llbit` is as it was. Safe:
  the spec's own outcome under that setting (log 5). -/
  | uninitialisedRead (piece : Piece) (pc : Word) (final : State)
  deriving DecidableEq, Repr

/-- Why the model gives a step no meaning. -/
inductive Refusal where
  /-- Raised by `exec` for an instruction that has no meaning yet; safe. No arm raises it now. -/
  | notModelled (mnemonic : String)
  deriving DecidableEq, Repr

/-- What a step answers. -/
abbrev Result := Host.Outcome State Fault Refusal

end Sys2Proof.Machine
end

