-- ==== Sys2Proof/Machine/Ops.lean ====
section
/-! DEFINITION. The named operations over registers, memory and the program counter, and raising an exception. -/

namespace Sys2Proof.Machine

/-! ### Registers -/

/-- Read of `x[r]`: `x[0]` reads 0 (R22). -/
def State.reg (s : State) (r : Reg) : Word :=
  if r = 0#5 then 0#32 else s.gprs[r.toNat]'r.isLt

/-- Write of `x[r]`: a write of `x[0]` is discarded (R22). -/
def State.setReg (s : State) (r : Reg) (v : Word) : State :=
  { s with
    gprs := if r = 0#5 then s.gprs else s.gprs.set r.toNat v r.isLt
    written := { s.written with gprs := s.written.gprs.set r.toNat true r.isLt } }

/-- Read of `f[n]` (R30). -/
def State.fpr (s : State) (n : FReg) : Word := s.fprs[n.toNat]'n.isLt

/-- Write of `f[n]` (R30). -/
def State.setFpr (s : State) (n : FReg) (v : Word) : State :=
  { s with
    fprs := s.fprs.set n.toNat v n.isLt
    written := { s.written with fprs := s.written.fprs.set n.toNat true n.isLt } }

/-- Read of `cr[n]` (R33). Nothing writes a control register. -/
def State.cr (s : State) (n : BitVec 5) : Word := s.crs[n.toNat]'n.isLt

/-- Write of `hi` and `lo` together (R29). -/
def State.setHiLo (s : State) (hi lo : Word) : State :=
  { s with hi := hi, lo := lo, written := { s.written with hi := true, lo := true } }

/-- Write of `fpcond` (R32). -/
def State.setFpcond (s : State) (b : Bool) : State :=
  { s with fpcond := b, written := { s.written with fpcond := true } }

/-- ll opens the pair: `llbit <- 1; lladdr <- addr` (R180). -/
def State.setLink (s : State) (addr : Word) : State := { s with llbit := true, lladdr := addr }

/-- The pair is closed: `llbit <- 0` (R181, R318). -/
def State.clearLink (s : State) : State := { s with llbit := false }

/-! ### Draws (R9, log 11) -/

/-- The draw `any32` number `k` from here on. -/
def State.any32 (s : State) (k : Nat) : Word := Config.any32 (s.draws + k)

/-- The next draw `anybit`. -/
def State.anyBit (s : State) : Bool := Config.anyBit s.draws

/-- `n` draws have been taken. -/
def State.drew (s : State) (n : Nat) : State := { s with draws := s.draws + n }

/-! ### The program counter (R28, R150, R151) -/

/-- `BRANCH_DELAY = one_slot` (R151). -/
def State.oneSlot (s : State) : Bool := s.params.branchDelay == .oneSlot

/-- On to the next instruction: `pc + 4` (R28); under `one_slot`, `pc <- npc; npc <- npc + 4` (R151). -/
def State.advance (s : State) : State :=
  { s with
    pc := if s.oneSlot then s.npc else s.pc + 4#32
    npc := if s.oneSlot then s.npc + 4#32 else s.npc
    inDelaySlot := if s.oneSlot then false else s.inDelaySlot }

/-- The end of a branch or jump: to `target` if taken, else in sequence; under `one_slot` the delay slot comes first,
whether or not the branch is taken (R150, R151). -/
def State.transfer (s : State) (taken : Bool) (target : Word) : State :=
  { s with
    pc := if s.oneSlot then s.npc else if taken then target else s.pc + 4#32
    npc := if s.oneSlot then (if taken then target else s.npc + 4#32) else s.npc
    inDelaySlot := if s.oneSlot then true else s.inDelaySlot }

/-- `LINK_OFFSET` (R6, R156): 4, or 8 under `one_slot`. -/
def State.linkOffset (s : State) : Word := if s.oneSlot then 8#32 else 4#32

/-! ### Exceptions (R303) -/

/-- What an exception does to the state: nothing of the instruction happens, `llbit` is cleared (R303, R318). No
register is saved, no mode changes and control goes nowhere (R308). -/
def takeException (s : State) : State := s.clearLink

/-- `raise E(info)` (R303): the run ends in `Fault(E, info, pc)`, `pc` being the faulting instruction's address. There is
no return from it (R309). -/
def raise (e : Word → State → Fault) (s : State) : Result := .fault (e s.pc (takeException s))

/-! ### Memory contents (R50, R52, R332) -/

/-- The value of the byte at an address, if it has one. -/
def Memory.valueAt : Memory → Nat → Option Byte
  | [], _ => none
  | (k, b) :: m, a => if k = a then some b else Memory.valueAt m a

/-- The memory after the byte at an address is written. -/
def Memory.put : Memory → Nat → Byte → Memory
  | [], a, b => [(a, b)]
  | (k, c) :: m, a, b =>
    if a < k then (a, b) :: (k, c) :: m
    else if a = k then (a, b) :: m
    else (k, c) :: Memory.put m a b

/-- What a read of the byte at `a` gives (R332): its value; for a byte that has none, a free value that is the same at
every read, or nothing under `UNINIT_READ = fault`. -/
def State.byteAt (s : State) (a : Word) : Option Byte :=
  match s.mem.valueAt a.toNat with
  | some b => some b
  | none =>
    match s.params.uninitRead with
    | .draw => some (Config.freeByte a.toNat)
    | .fault => none

/-- `mem[a] <- b`. -/
def State.setByte (s : State) (a : Word) (b : Byte) : State := { s with mem := s.mem.put a.toNat b }

/-- `MemRead(a, 2)` without its checks (R52). -/
def State.halfAt (s : State) (a : Word) : Option Half :=
  match s.byteAt a, s.byteAt (a + 1#32) with
  | some b0, some b1 => some (joinHalf s.params.byteOrder b0 b1)
  | _, _ => none

/-- `MemRead(a, 4)` without its checks (R52). -/
def State.wordAt (s : State) (a : Word) : Option Word :=
  match s.byteAt a, s.byteAt (a + 1#32), s.byteAt (a + 2#32), s.byteAt (a + 3#32) with
  | some b0, some b1, some b2, some b3 => some (joinWord s.params.byteOrder b0 b1 b2 b3)
  | _, _, _, _ => none

/-- `MemWrite(a, 2, v)` without its checks (R52). -/
def State.setHalf (s : State) (a : Word) (v : Half) : State :=
  (s.setByte a (laneByte s.params.byteOrder 2 v 0)).setByte (a + 1#32) (laneByte s.params.byteOrder 2 v 1)

/-- `MemWrite(a, 4, v)` without its checks (R52). -/
def State.setWord (s : State) (a : Word) (v : Word) : State :=
  (((s.setByte a (laneByte s.params.byteOrder 4 v 0)).setByte (a + 1#32) (laneByte s.params.byteOrder 4 v 1)).setByte
    (a + 2#32) (laneByte s.params.byteOrder 4 v 2)).setByte (a + 3#32) (laneByte s.params.byteOrder 4 v 3)

/-! ### The checks of an access (R54, R61, R66) -/

/-- The address lies in the region (R60). -/
def Region.contains (r : Region) (a : Nat) : Bool := decide (r.base ≤ a) && decide (a < r.base + r.size)

/-- The address lies in the text region (R60). -/
def MemMap.isText (m : MemMap) (a : Nat) : Bool := m.text.contains a

/-- The address lies in a region the launch mapped (R60, R61). -/
def MemMap.mapped (m : MemMap) (a : Nat) : Bool := m.isText a || m.data.any (·.contains a)

/-- `p` holds of the `n` addresses from `a` on. -/
def allFrom (p : Nat → Bool) (a : Nat) : Nat → Bool
  | 0 => true
  | n + 1 => p a && allFrom p (a + 1) n

/-- Which bytes an access of a kind may touch: a load any mapped byte, a store any mapped byte outside the text region
(R61, R66), a fetch the text region (R335 (b)). -/
def MemMap.permits (m : MemMap) (k : AccessKind) (a : Nat) : Bool :=
  match k with
  | .load => m.mapped a
  | .store => m.mapped a && !m.isText a
  | .fetch => m.isText a

/-- The access of `size` bytes at `a` is aligned to its size (R54) and all its bytes are permitted (R61, R66). -/
def State.accessOk (s : State) (k : AccessKind) (size : Nat) (a : Word) : Bool :=
  a.toNat % size == 0 && allFrom (s.map.permits k) a.toNat size

/-- An access that fails its checks raises `AddressError` before any part of it is performed (R55, R305). -/
def checked (k : AccessKind) (size : Nat) (a : Word) (s : State) (body : Result) : Result :=
  if s.accessOk k size a then body else raise (.addressError k a) s

/-- Go on with a value that was read, or end the run with `UninitialisedRead` where there is none (R332). -/
def withValue {α : Type} (v : Option α) (a : Word) (s : State) (body : α → Result) : Result :=
  match v with
  | some x => body x
  | none => .fault (.uninitialisedRead (.memory a) s.pc s)

/-- A load of `size` bytes (R170): check the address, read, and go on with what the read value makes of the state. -/
def load {α : Type} (size : Nat) (read : State → Word → Option α) (a : Word) (s : State) (f : α → State) : Result :=
  checked .load size a s (withValue (read s a) a s fun v => .next (f v).advance)

/-- A store of `size` bytes (R170): check the address, write memory. -/
def store (size : Nat) (a : Word) (s : State) (written : State) : Result :=
  checked .store size a s (.next written.advance)

/-! ### Reserved forms (R304) -/

/-- A double operand's register must be even, or the instruction raises `ReservedInstruction` (R243, R304 (b)). -/
def requireEven (i : Instr) (regs : List FReg) (s : State) (body : Result) : Result :=
  if regs.all evenFReg then body else raise (.reservedInstruction (encode i)) s

/-- A branch or jump in a delay slot raises `ReservedInstruction` (R151, R304 (c)); elsewhere it goes on. -/
def outsideDelaySlot (i : Instr) (s : State) (body : Result) : Result :=
  if s.oneSlot && s.inDelaySlot then raise (.reservedInstruction (encode i)) s else body

end Sys2Proof.Machine
end

