-- ==== Sys2Proof/Machine/Operands.lean ====
section
/-! DEFINITION. The operand forms: immediates, branch and jump targets, effective addresses, register pairs. -/

namespace Sys2Proof.Machine

/-- SignExtImm (R88). -/
def signExtImm (imm : Imm) : Word := imm.signExtend 32

/-- ZeroExtImm (R89). -/
def zeroExtImm (imm : Imm) : Word := imm.setWidth 32

/-- The operand of lui: the immediate in the upper half (R93). -/
def upperImm (imm : Imm) : Word := imm ++ 0#16

/-- BranchAddr: `sext_32(imm) << 2` (R90). -/
def branchAddr (imm : Imm) : Word := signExtImm imm <<< 2

/-- The target of a branch at `pc`: `pc + 4 + BranchAddr` modulo 2^32 (R90). -/
def branchTarget (pc : Word) (imm : Imm) : Word := pc + 4#32 + branchAddr imm

/-- JumpAddr of a jump at `pc`: the top 4 bits of `pc + 4`, the field, two zero bits (R91). -/
def jumpTarget (pc : Word) (address : BitVec 26) : Word := (pc + 4#32).extractLsb' 28 4 ++ address ++ 0#2

/-- The effective address `x[rs] + sext_32(imm)` modulo 2^32 (R68, R170). -/
def State.effAddr (s : State) (rs : Reg) (imm : Imm) : Word := s.reg rs + signExtImm imm

/-- `dbl(n)`: the double in the pair of registers `n` and `n + 1` (R243). -/
def State.dbl (s : State) (n : FReg) : DWord :=
  match s.params.fpPairOrder with
  | .firstIsHigh => s.fpr n ++ s.fpr (n + 1#5)
  | .firstIsLow => s.fpr (n + 1#5) ++ s.fpr n

/-- The word of a double that goes to the register named in the instruction (R243). -/
def pairFirst (o : FpPairOrder) (v : DWord) : Word :=
  match o with
  | .firstIsHigh => v.extractLsb' 32 32
  | .firstIsLow => v.extractLsb' 0 32

/-- The word of a double that goes to the next register (R243). -/
def pairSecond (o : FpPairOrder) (v : DWord) : Word :=
  match o with
  | .firstIsHigh => v.extractLsb' 0 32
  | .firstIsLow => v.extractLsb' 32 32

/-- `setdbl(n, v)` (R243). -/
def State.setDbl (s : State) (n : FReg) (v : DWord) : State :=
  (s.setFpr n (pairFirst s.params.fpPairOrder v)).setFpr (n + 1#5) (pairSecond s.params.fpPairOrder v)

end Sys2Proof.Machine
end

