-- ==== Sys2Proof/Machine/Flags.lean ====
section
/-! DEFINITION. Overflow and the results of comparisons. The machine has no integer flags (rule R32); `fpcond` is set
from the comparisons of Machine/FpNumerics.lean. -/

namespace Sys2Proof.Machine

/-- `ovf_add(a, b)` (R110). -/
def ovfAdd (a b : Word) : Bool := a.msb == b.msb && (a + b).msb != a.msb

/-- `ovf_sub(a, b)` (R110). -/
def ovfSub (a b : Word) : Bool := a.msb != b.msb && (a - b).msb != a.msb

/-- The 32-bit value 1 or 0 that a set-less-than instruction and sc write (R117, R181). -/
def boolWord (b : Bool) : Word := if b then 1#32 else 0#32

/-- Less than as two's-complement numbers (R117, R119). -/
def lessSigned (a b : Word) : Bool := decide (a.toInt < b.toInt)

/-- Less than as unsigned numbers (R118, R120; footnote (6)). -/
def lessUnsigned (a b : Word) : Bool := decide (a.toNat < b.toNat)

end Sys2Proof.Machine
end

