-- ==== Sys2Proof/Machine/Arithmetic.lean ====
section
/-! DEFINITION. Integer add, subtract and compare instructions (spec/40_arithmetic_compare.md). -/

namespace Sys2Proof.Machine

/-- add (R111): the signed sum, or Overflow with `x[rd]` unchanged. -/
def execAdd (rd rs rt : Reg) (s : State) : Result :=
  if ovfAdd (s.reg rs) (s.reg rt) then raise .overflow s
  else .next (s.setReg rd (s.reg rs + s.reg rt)).advance

/-- addi (R112): as add, with the sign-extended immediate. -/
def execAddi (rt rs : Reg) (imm : Imm) (s : State) : Result :=
  if ovfAdd (s.reg rs) (signExtImm imm) then raise .overflow s
  else .next (s.setReg rt (s.reg rs + signExtImm imm)).advance

/-- addiu (R113): the immediate is sign-extended, overflow is not checked. -/
def execAddiu (rt rs : Reg) (imm : Imm) (s : State) : Result :=
  .next (s.setReg rt (s.reg rs + signExtImm imm)).advance

/-- addu (R114). -/
def execAddu (rd rs rt : Reg) (s : State) : Result :=
  .next (s.setReg rd (s.reg rs + s.reg rt)).advance

/-- sub (R115): rs minus rt, or Overflow with `x[rd]` unchanged. -/
def execSub (rd rs rt : Reg) (s : State) : Result :=
  if ovfSub (s.reg rs) (s.reg rt) then raise .overflow s
  else .next (s.setReg rd (s.reg rs - s.reg rt)).advance

/-- subu (R116). -/
def execSubu (rd rs rt : Reg) (s : State) : Result :=
  .next (s.setReg rd (s.reg rs - s.reg rt)).advance

/-- slt (R117). -/
def execSlt (rd rs rt : Reg) (s : State) : Result :=
  .next (s.setReg rd (boolWord (lessSigned (s.reg rs) (s.reg rt)))).advance

/-- sltu (R118). -/
def execSltu (rd rs rt : Reg) (s : State) : Result :=
  .next (s.setReg rd (boolWord (lessUnsigned (s.reg rs) (s.reg rt)))).advance

/-- slti (R119). -/
def execSlti (rt rs : Reg) (imm : Imm) (s : State) : Result :=
  .next (s.setReg rt (boolWord (lessSigned (s.reg rs) (signExtImm imm)))).advance

/-- sltiu (R120): the immediate is sign-extended, then compared as an unsigned number. -/
def execSltiu (rt rs : Reg) (imm : Imm) (s : State) : Result :=
  .next (s.setReg rt (boolWord (lessUnsigned (s.reg rs) (signExtImm imm)))).advance

end Sys2Proof.Machine
end

