-- ==== Sys2Proof/Machine/Branch.lean ====
section
/-! DEFINITION. Branch and jump instructions (spec/42_branch_jump.md) and the branches on the floating-point condition
(R237, R238), under both settings of BRANCH_DELAY (R151). No branch or jump checks its target (R155). -/

namespace Sys2Proof.Machine

/-- beq (R152). -/
def execBeq (rs rt : Reg) (imm : Imm) (s : State) : Result :=
  outsideDelaySlot (.beq rs rt imm) s (.next (s.transfer (s.reg rs == s.reg rt) (branchTarget s.pc imm)))

/-- bne (R153). -/
def execBne (rs rt : Reg) (imm : Imm) (s : State) : Result :=
  outsideDelaySlot (.bne rs rt imm) s (.next (s.transfer (s.reg rs != s.reg rt) (branchTarget s.pc imm)))

/-- j (R154). -/
def execJ (address : BitVec 26) (s : State) : Result :=
  outsideDelaySlot (.j address) s (.next (s.transfer true (jumpTarget s.pc address)))

/-- jal (R156): the link goes to `x[31]`. -/
def execJal (address : BitVec 26) (s : State) : Result :=
  outsideDelaySlot (.jal address) s
    (.next ((s.setReg 31#5 (s.pc + s.linkOffset)).transfer true (jumpTarget s.pc address)))

/-- jr (R157): all 32 bits of the register. -/
def execJr (rs : Reg) (s : State) : Result :=
  outsideDelaySlot (.jr rs) s (.next (s.transfer true (s.reg rs)))

/-- bc1t (R237). -/
def execBc1t (imm : Imm) (s : State) : Result :=
  outsideDelaySlot (.bc1t imm) s (.next (s.transfer s.fpcond (branchTarget s.pc imm)))

/-- bc1f (R238). -/
def execBc1f (imm : Imm) (s : State) : Result :=
  outsideDelaySlot (.bc1f imm) s (.next (s.transfer (!s.fpcond) (branchTarget s.pc imm)))

end Sys2Proof.Machine
end

