-- ==== Sys2Proof/Machine/Ieee754.lean ====
section
/-! DEFINITION. The instance of FP_NUMERICS that rule R222 intends: IEEE 754 binary32 and binary64, rounding to
nearest even, comparisons false when an operand is a NaN. Values are computed exactly and rounded once. IEEE 754 itself
is outside the spec (marked general knowledge there; log 14). -/

namespace Sys2Proof.Machine.Ieee

/-- A binary interchange format: the widths of the exponent and fraction fields. -/
structure Format where
  expBits : Nat
  fracBits : Nat
  deriving DecidableEq, Repr

/-- binary32. -/
def binary32 : Format := { expBits := 8, fracBits := 23 }
/-- binary64. -/
def binary64 : Format := { expBits := 11, fracBits := 52 }

/-- What a bit pattern denotes: a NaN, an infinity, or `± mant * 2^exp` (zero where `mant = 0`). -/
inductive Value where
  | nan
  | inf (neg : Bool)
  | finite (neg : Bool) (mant : Nat) (exp : Int)
  deriving DecidableEq, Repr

/-- The exponent of the least significant bit of a subnormal number. -/
def Format.minExp (F : Format) : Int := 2 - 2 ^ (F.expBits - 1) - F.fracBits

/-- The pattern of `+infinity`, as a number. -/
def Format.infBits (F : Format) : Nat := (2 ^ F.expBits - 1) * 2 ^ F.fracBits

/-- The sign bit, as a number. -/
def Format.signBit (F : Format) (neg : Bool) : Nat := if neg then 2 ^ (F.expBits + F.fracBits) else 0

/-- The value of a bit pattern. -/
def Format.unpack (F : Format) (bits : Nat) : Value :=
  let neg := bits / 2 ^ (F.expBits + F.fracBits) % 2 == 1
  let e := bits / 2 ^ F.fracBits % 2 ^ F.expBits
  let f := bits % 2 ^ F.fracBits
  if e = 2 ^ F.expBits - 1 then (if f = 0 then .inf neg else .nan)
  else if e = 0 then .finite neg f F.minExp
  else .finite neg (2 ^ F.fracBits + f) (F.minExp + (e - 1))

/-- `num * 2^k / den` as numerator and denominator that are natural numbers. -/
def scale (num den : Nat) (k : Int) : Nat × Nat :=
  if 0 ≤ k then (num * 2 ^ k.toNat, den) else (num, den * 2 ^ (-k).toNat)

/-- The quotient rounded to the nearest natural number, a tie to the even one. -/
def roundHalfEven (num den : Nat) : Nat :=
  let q := num / den
  let r := num % den
  if den < 2 * r || (2 * r == den && q % 2 == 1) then q + 1 else q

/-- The pattern of `± num / den * 2^exp` (`num`, `den` not 0) rounded to nearest even: the exponent `e` of the last
place gives the quotient `fracBits + 1` bits, but is never below `minExp`; past the largest finite number the result
is an infinity. -/
def Format.round (F : Format) (neg : Bool) (num den : Nat) (exp : Int) : Nat :=
  let e0 := exp + ((num.log2 : Int) - (den.log2 : Int)) - F.fracBits
  let n0 := scale num den (exp - e0)
  let e1 := if n0.1 / n0.2 < 2 ^ F.fracBits then e0 - 1 else e0
  let e := if e1 < F.minExp then F.minExp else e1
  let n := scale num den (exp - e)
  let bits := (e - F.minExp).toNat * 2 ^ F.fracBits + roundHalfEven n.1 n.2
  F.signBit neg + (if F.infBits ≤ bits then F.infBits else bits)

/-- The result of an operation: a NaN, or a pattern. -/
abbrev Answer := Option Nat

/-- The integer `± mant * 2^(exp - e)`, exact for `e ≤ exp`. -/
def signedAt (neg : Bool) (mant : Nat) (exp e : Int) : Int :=
  let m : Int := mant * 2 ^ (exp - e).toNat
  if neg then -m else m

/-- Addition. A sum that is exactly zero is `+0`, or `-0` where both operands are negative. -/
def Format.add (F : Format) : Value → Value → Answer
  | .nan, _ | _, .nan => none
  | .inf a, .inf b => if a = b then some (F.signBit a + F.infBits) else none
  | .inf a, .finite _ _ _ => some (F.signBit a + F.infBits)
  | .finite _ _ _, .inf b => some (F.signBit b + F.infBits)
  | .finite a m x, .finite b n y =>
    let e := if x ≤ y then x else y
    let t := signedAt a m x e + signedAt b n y e
    if t = 0 then some (F.signBit (a && b)) else some (F.round (decide (t < 0)) t.natAbs 1 e)

/-- The value with its sign changed. -/
def Value.neg : Value → Value
  | .nan => .nan
  | .inf a => .inf (!a)
  | .finite a m x => .finite (!a) m x

/-- Multiplication. -/
def Format.mul (F : Format) : Value → Value → Answer
  | .nan, _ | _, .nan => none
  | .inf a, .inf b => some (F.signBit (a != b) + F.infBits)
  | .inf a, .finite b n _ => if n = 0 then none else some (F.signBit (a != b) + F.infBits)
  | .finite a m _, .inf b => if m = 0 then none else some (F.signBit (a != b) + F.infBits)
  | .finite a m x, .finite b n y =>
    if m * n = 0 then some (F.signBit (a != b)) else some (F.round (a != b) (m * n) 1 (x + y))

/-- Division; a finite number that is not zero divided by zero is an infinity. -/
def Format.div (F : Format) : Value → Value → Answer
  | .nan, _ | _, .nan => none
  | .inf _, .inf _ => none
  | .inf a, .finite b _ _ => some (F.signBit (a != b) + F.infBits)
  | .finite a _ _, .inf b => some (F.signBit (a != b))
  | .finite a m x, .finite b n y =>
    if n = 0 then (if m = 0 then none else some (F.signBit (a != b) + F.infBits))
    else if m = 0 then some (F.signBit (a != b))
    else some (F.round (a != b) m n (x - y))

/-- The operation on two patterns. -/
def Format.arith (F : Format) (op : FpArith) (a b : Nat) : Answer :=
  match op with
  | .add => F.add (F.unpack a) (F.unpack b)
  | .sub => F.add (F.unpack a) (F.unpack b).neg
  | .mul => F.mul (F.unpack a) (F.unpack b)
  | .div => F.div (F.unpack a) (F.unpack b)

/-- A number that orders patterns that are no NaN as their values are ordered: `+0` and `-0` have the same. -/
def Format.key (F : Format) (bits : Nat) : Int :=
  let mag : Int := (bits % 2 ^ (F.expBits + F.fracBits) : Nat)
  if bits / 2 ^ (F.expBits + F.fracBits) % 2 == 1 then -mag else mag

/-- The comparison of two patterns: false when either is a NaN (R222). -/
def Format.compare (F : Format) (c : FpCmp) (a b : Nat) : Bool :=
  if F.unpack a = .nan ∨ F.unpack b = .nan then false
  else
    match c with
    | .eq => decide (F.key a = F.key b)
    | .lt => decide (F.key a < F.key b)
    | .le => decide (F.key a ≤ F.key b)

end Sys2Proof.Machine.Ieee
end

