-- ==== Sys2Proof/Machine/FpNumerics.lean ====
section
/-! DEFINITION. FP_NUMERICS (rules R6, R222): the four operations and the three comparisons on single and double
patterns, the fs operand first, under either setting of which record it is (log 14). -/

namespace Sys2Proof.Machine

/-- `fp_add_s`, `fp_sub_s`, `fp_mul_s`, `fp_div_s` (R222). A NaN the IEEE instance answers is quiet, its sign and payload
free (log 15). -/
def fpArithS (m : FpNumerics) (op : FpArith) (a b : Word) : Word :=
  match m with
  | .uninterpreted => Config.fpArithS op a b
  | .ieee754 =>
    match Ieee.binary32.arith op a.toNat b.toNat with
    | some r => BitVec.ofNat 32 r
    | none => Config.nanBitsS op a b ||| 0x7fc00000#32

/-- `fp_add_d`, `fp_sub_d`, `fp_mul_d`, `fp_div_d` (R222; log 15). -/
def fpArithD (m : FpNumerics) (op : FpArith) (a b : DWord) : DWord :=
  match m with
  | .uninterpreted => Config.fpArithD op a b
  | .ieee754 =>
    match Ieee.binary64.arith op a.toNat b.toNat with
    | some r => BitVec.ofNat 64 r
    | none => Config.nanBitsD op a b ||| 0x7ff8000000000000#64

/-- `fp_eq_s`, `fp_lt_s`, `fp_le_s` (R222). -/
def fpCmpS (m : FpNumerics) (c : FpCmp) (a b : Word) : Bool :=
  match m with
  | .uninterpreted => Config.fpCmpS c a b
  | .ieee754 => Ieee.binary32.compare c a.toNat b.toNat

/-- `fp_eq_d`, `fp_lt_d`, `fp_le_d` (R222). -/
def fpCmpD (m : FpNumerics) (c : FpCmp) (a b : DWord) : Bool :=
  match m with
  | .uninterpreted => Config.fpCmpD c a b
  | .ieee754 => Ieee.binary64.compare c a.toNat b.toNat

end Sys2Proof.Machine
end

