-- ==== Sys2Proof/Machine/Float.lean ====
section
/-! DEFINITION. Floating-point arithmetic, compares, loads and stores (spec/45_floating_point.md). The branches on the
condition are in Machine/Branch.lean. No operation raises a floating-point exception (R222). -/

namespace Sys2Proof.Machine

/-- A single-precision operation: both sources are read, then `f[fd]` is written (R222). -/
def singleArith (op : FpArith) (fd fs ft : FReg) (s : State) : State :=
  s.setFpr fd (fpArithS s.params.fpNumerics op (s.fpr fs) (s.fpr ft))

/-- A double-precision operation on register pairs (R222, R243). -/
def doubleArith (op : FpArith) (fd fs ft : FReg) (s : State) : State :=
  s.setDbl fd (fpArithD s.params.fpNumerics op (s.dbl fs) (s.dbl ft))

/-- A single-precision compare writes `fpcond` alone (R244). -/
def singleCompare (c : FpCmp) (fs ft : FReg) (s : State) : State :=
  s.setFpcond (fpCmpS s.params.fpNumerics c (s.fpr fs) (s.fpr ft))

/-- A double-precision compare (R243, R244). -/
def doubleCompare (c : FpCmp) (fs ft : FReg) (s : State) : State :=
  s.setFpcond (fpCmpD s.params.fpNumerics c (s.dbl fs) (s.dbl ft))

/-- add.s (R223). -/
def execAddS (fd fs ft : FReg) (s : State) : Result := .next (singleArith .add fd fs ft s).advance

/-- add.d (R224). -/
def execAddD (fd fs ft : FReg) (s : State) : Result :=
  requireEven (.addD fd fs ft) [fd, fs, ft] s (.next (doubleArith .add fd fs ft s).advance)

/-- sub.s (R225). -/
def execSubS (fd fs ft : FReg) (s : State) : Result := .next (singleArith .sub fd fs ft s).advance

/-- sub.d (R226). -/
def execSubD (fd fs ft : FReg) (s : State) : Result :=
  requireEven (.subD fd fs ft) [fd, fs, ft] s (.next (doubleArith .sub fd fs ft s).advance)

/-- mul.s (R227). -/
def execMulS (fd fs ft : FReg) (s : State) : Result := .next (singleArith .mul fd fs ft s).advance

/-- mul.d (R228). -/
def execMulD (fd fs ft : FReg) (s : State) : Result :=
  requireEven (.mulD fd fs ft) [fd, fs, ft] s (.next (doubleArith .mul fd fs ft s).advance)

/-- div.s (R229). -/
def execDivS (fd fs ft : FReg) (s : State) : Result := .next (singleArith .div fd fs ft s).advance

/-- div.d (R230). -/
def execDivD (fd fs ft : FReg) (s : State) : Result :=
  requireEven (.divD fd fs ft) [fd, fs, ft] s (.next (doubleArith .div fd fs ft s).advance)

/-- c.eq.s (R231). -/
def execCEqS (fs ft : FReg) (s : State) : Result := .next (singleCompare .eq fs ft s).advance

/-- c.lt.s (R232). -/
def execCLtS (fs ft : FReg) (s : State) : Result := .next (singleCompare .lt fs ft s).advance

/-- c.le.s (R233). -/
def execCLeS (fs ft : FReg) (s : State) : Result := .next (singleCompare .le fs ft s).advance

/-- c.eq.d (R234). -/
def execCEqD (fs ft : FReg) (s : State) : Result :=
  requireEven (.cEqD fs ft) [fs, ft] s (.next (doubleCompare .eq fs ft s).advance)

/-- c.lt.d (R235). -/
def execCLtD (fs ft : FReg) (s : State) : Result :=
  requireEven (.cLtD fs ft) [fs, ft] s (.next (doubleCompare .lt fs ft s).advance)

/-- c.le.d (R236). -/
def execCLeD (fs ft : FReg) (s : State) : Result :=
  requireEven (.cLeD fs ft) [fs, ft] s (.next (doubleCompare .le fs ft s).advance)

/-- lwc1 (R239): the 32 bits are copied unchanged. -/
def execLwc1 (ft : FReg) (imm : Imm) (rs : Reg) (s : State) : Result :=
  load 4 State.wordAt (s.effAddr rs imm) s fun v => s.setFpr ft v

/-- The two words of a doubleword access: at `a`, then at `a + 4` (R57, R68, R240). -/
def State.wordPairAt (s : State) (a : Word) : Option (Word × Word) :=
  match s.wordAt a, s.wordAt (a + 4#32) with
  | some w0, some w1 => some (w0, w1)
  | _, _ => none

/-- ldc1 (R240): the named register receives the word at the lower address, whatever FP_PAIR_ORDER is. Both words are
checked before either is read (R58), and an address error reports the first (R305). -/
def execLdc1 (ft : FReg) (imm : Imm) (rs : Reg) (s : State) : Result :=
  requireEven (.ldc1 ft imm rs) [ft] s
    (load 8 State.wordPairAt (s.effAddr rs imm) s fun v => (s.setFpr ft v.1).setFpr (ft + 1#5) v.2)

/-- swc1 (R241). -/
def execSwc1 (ft : FReg) (imm : Imm) (rs : Reg) (s : State) : Result :=
  store 4 (s.effAddr rs imm) s (s.setWord (s.effAddr rs imm) (s.fpr ft))

/-- sdc1 (R242): the named register goes to the lower address. -/
def execSdc1 (ft : FReg) (imm : Imm) (rs : Reg) (s : State) : Result :=
  requireEven (.sdc1 ft imm rs) [ft] s
    (store 8 (s.effAddr rs imm) s
      ((s.setWord (s.effAddr rs imm) (s.fpr ft)).setWord (s.effAddr rs imm + 4#32) (s.fpr (ft + 1#5))))

end Sys2Proof.Machine
end

