-- ==== Sys2Proof/Machine/LoadStore.lean ====
section
/-! DEFINITION. Loads and stores of general registers (spec/43_load_store.md), ll and sc among them. -/

namespace Sys2Proof.Machine

/-- lw (R171). -/
def execLw (rt : Reg) (imm : Imm) (rs : Reg) (s : State) : Result :=
  load 4 State.wordAt (s.effAddr rs imm) s fun v => s.setReg rt v

/-- lbu (R172): zero-extended. -/
def execLbu (rt : Reg) (imm : Imm) (rs : Reg) (s : State) : Result :=
  load 1 State.byteAt (s.effAddr rs imm) s fun v => s.setReg rt (v.setWidth 32)

/-- lb (R173): sign-extended. -/
def execLb (rt : Reg) (imm : Imm) (rs : Reg) (s : State) : Result :=
  load 1 State.byteAt (s.effAddr rs imm) s fun v => s.setReg rt (v.signExtend 32)

/-- lhu (R174): zero-extended. -/
def execLhu (rt : Reg) (imm : Imm) (rs : Reg) (s : State) : Result :=
  load 2 State.halfAt (s.effAddr rs imm) s fun v => s.setReg rt (v.setWidth 32)

/-- lh (R175): sign-extended. -/
def execLh (rt : Reg) (imm : Imm) (rs : Reg) (s : State) : Result :=
  load 2 State.halfAt (s.effAddr rs imm) s fun v => s.setReg rt (v.signExtend 32)

/-- sw (R176). -/
def execSw (rt : Reg) (imm : Imm) (rs : Reg) (s : State) : Result :=
  store 4 (s.effAddr rs imm) s (s.setWord (s.effAddr rs imm) (s.reg rt))

/-- sb (R177): bits 7:0 of the register. -/
def execSb (rt : Reg) (imm : Imm) (rs : Reg) (s : State) : Result :=
  store 1 (s.effAddr rs imm) s (s.setByte (s.effAddr rs imm) ((s.reg rt).setWidth 8))

/-- sh (R178): bits 15:0 of the register. -/
def execSh (rt : Reg) (imm : Imm) (rs : Reg) (s : State) : Result :=
  store 2 (s.effAddr rs imm) s (s.setHalf (s.effAddr rs imm) ((s.reg rt).setWidth 16))

/-- ll (R180): lw, and the pair is opened. -/
def execLl (rt : Reg) (imm : Imm) (rs : Reg) (s : State) : Result :=
  load 4 State.wordAt (s.effAddr rs imm) s fun v => (s.setReg rt v).setLink (s.effAddr rs imm)

/-- sc fails though the pair is whole: the draw `anybit`, where SC_MAY_FAIL_SPURIOUSLY holds (R181; log 13). -/
def State.scSpurious (s : State) : Bool := s.params.scMayFailSpuriously && s.anyBit

/-- `ok` of sc at an address (R181). -/
def State.scSucceeds (s : State) (a : Word) : Bool := s.llbit && s.lladdr == a && !s.scSpurious

/-- sc (R181): the store happens only if the pair is whole; the data is `x[rt]` as it was before the flag overwrites it.
A draw is taken where SC_MAY_FAIL_SPURIOUSLY holds (log 13). -/
def execSc (rt : Reg) (imm : Imm) (rs : Reg) (s : State) : Result :=
  let a := s.effAddr rs imm
  let ok := s.scSucceeds a
  let stored := if ok then s.setWord a (s.reg rt) else s
  store 4 a s (((stored.setReg rt (boolWord ok)).clearLink).drew (if s.params.scMayFailSpuriously then 1 else 0))

end Sys2Proof.Machine
end

