-- ==== Sys2Proof/Machine/Logical.lean ====
section
/-! DEFINITION. Logic and shift instructions (spec/41_logical_shift.md), and lui (R179), which accesses no memory. -/

namespace Sys2Proof.Machine

/-- and (R130). -/
def execAnd (rd rs rt : Reg) (s : State) : Result :=
  .next (s.setReg rd (s.reg rs &&& s.reg rt)).advance

/-- andi (R131): the immediate is zero-extended. -/
def execAndi (rt rs : Reg) (imm : Imm) (s : State) : Result :=
  .next (s.setReg rt (s.reg rs &&& zeroExtImm imm)).advance

/-- or (R132). -/
def execOr (rd rs rt : Reg) (s : State) : Result :=
  .next (s.setReg rd (s.reg rs ||| s.reg rt)).advance

/-- ori (R133): the immediate is zero-extended. -/
def execOri (rt rs : Reg) (imm : Imm) (s : State) : Result :=
  .next (s.setReg rt (s.reg rs ||| zeroExtImm imm)).advance

/-- nor (R134). -/
def execNor (rd rs rt : Reg) (s : State) : Result :=
  .next (s.setReg rd (~~~(s.reg rs ||| s.reg rt))).advance

/-- xor (R135). -/
def execXor (rd rs rt : Reg) (s : State) : Result :=
  .next (s.setReg rd (s.reg rs ^^^ s.reg rt)).advance

/-- sll (R136): the source is rt. -/
def execSll (rd rt : Reg) (shamt : BitVec 5) (s : State) : Result :=
  .next (s.setReg rd (s.reg rt <<< shamt.toNat)).advance

/-- srl (R137): zeros come in at the top. -/
def execSrl (rd rt : Reg) (shamt : BitVec 5) (s : State) : Result :=
  .next (s.setReg rd (s.reg rt >>> shamt.toNat)).advance

/-- sra (R138): copies of bit 31 come in at the top. -/
def execSra (rd rt : Reg) (shamt : BitVec 5) (s : State) : Result :=
  .next (s.setReg rd ((s.reg rt).sshiftRight shamt.toNat)).advance

/-- lui (R179). -/
def execLui (rt : Reg) (imm : Imm) (s : State) : Result :=
  .next (s.setReg rt (upperImm imm)).advance

end Sys2Proof.Machine
end

