-- ==== Sys2Proof/Machine/MulDiv.lean ====
section
/-! DEFINITION. Multiply, divide and Hi/Lo move instructions (spec/44_multiply_divide.md). -/

namespace Sys2Proof.Machine

/-- A 64-bit product goes to `hi` (bits 63:32) and `lo` (bits 31:0) (R200). -/
def State.setProduct (s : State) (p : DWord) : State := s.setHiLo (p.extractLsb' 32 32) (p.extractLsb' 0 32)

/-- mult (R201). -/
def execMult (rs rt : Reg) (s : State) : Result :=
  .next (s.setProduct (BitVec.ofInt 64 ((s.reg rs).toInt * (s.reg rt).toInt))).advance

/-- multu (R202). -/
def execMultu (rs rt : Reg) (s : State) : Result :=
  .next (s.setProduct (BitVec.ofNat 64 ((s.reg rs).toNat * (s.reg rt).toNat))).advance

/-- The signed division whose result the spec leaves open: by zero, or -2^31 by -1 (R203). -/
def divOpen (a b : Word) : Bool := b.toInt == 0 || (a.toInt == -2147483648 && b.toInt == -1)

/-- DIV_CORNER (R6, R203, R204): `lo` and `hi` become two free values and the machine goes on (log 12). -/
def State.setHiLoOpen (s : State) : State := (s.setHiLo (s.any32 1) (s.any32 0)).drew 2

/-- div (R203): the quotient is truncated toward zero, the remainder has the sign of the dividend (R207). -/
def execDiv (rs rt : Reg) (s : State) : Result :=
  if divOpen (s.reg rs) (s.reg rt) then .next s.setHiLoOpen.advance
  else .next (s.setHiLo (BitVec.ofInt 32 ((s.reg rs).toInt.tmod (s.reg rt).toInt))
    (BitVec.ofInt 32 ((s.reg rs).toInt.tdiv (s.reg rt).toInt))).advance

/-- divu (R204). -/
def execDivu (rs rt : Reg) (s : State) : Result :=
  if (s.reg rt).toNat == 0 then .next s.setHiLoOpen.advance
  else .next (s.setHiLo (BitVec.ofNat 32 ((s.reg rs).toNat % (s.reg rt).toNat))
    (BitVec.ofNat 32 ((s.reg rs).toNat / (s.reg rt).toNat))).advance

/-- mfhi (R205). -/
def execMfhi (rd : Reg) (s : State) : Result := .next (s.setReg rd s.hi).advance

/-- mflo (R206). -/
def execMflo (rd : Reg) (s : State) : Result := .next (s.setReg rd s.lo).advance

end Sys2Proof.Machine
end

