-- ==== Sys2Proof/Machine/System.lean ====
section
/-! DEFINITION. The one system instruction, mfc0 (spec/46_system.md). -/

namespace Sys2Proof.Machine

/-- mfc0 (R260): `x[rt]` receives what the oracle gives for the control register rd; there is one privilege level, so it
always runs (R311). -/
def execMfc0 (rt : Reg) (rd : BitVec 5) (s : State) : Result := .next (s.setReg rt (s.cr rd)).advance

end Sys2Proof.Machine
end

