-- ==== Sys2Proof/Machine/Sources.lean ====
section
/-! DEFINITION. The registers an instruction reads, and what the read of one that has no value does (R332; log 5). -/

namespace Sys2Proof.Machine

/-- A branch or a jump (R151). -/
def isTransfer : Instr → Bool
  | .beq _ _ _ | .bne _ _ _ | .j _ | .jal _ | .jr _ | .bc1t _ | .bc1f _ => true
  | _ => false

/-- The launch or the program has written the piece of state (R332). `x[0]` has its value always (R22). -/
def State.hasValue (s : State) : Piece → Bool
  | .gpr r => r == 0#5 || s.written.gprs[r.toNat]'r.isLt
  | .hi => s.written.hi
  | .lo => s.written.lo
  | .fpr n => s.written.fprs[n.toNat]'n.isLt
  | .fpcond => s.written.fpcond
  | .memory a => (s.mem.valueAt a.toNat).isSome

/-- The two registers of a double (R243). -/
def pairPieces (n : FReg) : List Piece := [.fpr n, .fpr (n + 1#5)]

/-- The data of a store of `size` bytes at `a`: read only once the address has passed the checks (R55, R170, R242, R305). -/
def State.storeData (s : State) (size : Nat) (a : Word) (data : List Piece) : List Piece :=
  if s.accessOk .store size a then data else []

/-- The registers of R332 that an instruction reads, in the order of its formula: rs before rt, fs before ft. A store
whose address fails its checks reads its base alone, and sc reads its data only where the pair is whole (R181). A control
register always has its value (R33), and memory is read by the loads themselves. -/
def registerSources (s : State) : Instr → List Piece
  | .add _ rs rt | .addu _ rs rt | .sub _ rs rt | .subu _ rs rt | .slt _ rs rt | .sltu _ rs rt | .and _ rs rt
  | .or _ rs rt | .nor _ rs rt | .xor _ rs rt | .beq rs rt _ | .bne rs rt _ | .mult rs rt | .multu rs rt | .div rs rt
  | .divu rs rt => [.gpr rs, .gpr rt]
  | .addi _ rs _ | .addiu _ rs _ | .slti _ rs _ | .sltiu _ rs _ | .andi _ rs _ | .ori _ rs _ | .jr rs | .lw _ _ rs
  | .lbu _ _ rs | .lb _ _ rs | .lhu _ _ rs | .lh _ _ rs | .ll _ _ rs | .lwc1 _ _ rs | .ldc1 _ _ rs => [.gpr rs]
  | .sll _ rt _ | .srl _ rt _ | .sra _ rt _ => [.gpr rt]
  | .sw rt imm rs => .gpr rs :: s.storeData 4 (s.effAddr rs imm) [.gpr rt]
  | .sb rt imm rs => .gpr rs :: s.storeData 1 (s.effAddr rs imm) [.gpr rt]
  | .sh rt imm rs => .gpr rs :: s.storeData 2 (s.effAddr rs imm) [.gpr rt]
  | .sc rt imm rs =>
    .gpr rs :: s.storeData 4 (s.effAddr rs imm) (if s.scSucceeds (s.effAddr rs imm) then [.gpr rt] else [])
  | .mfhi _ => [.hi]
  | .mflo _ => [.lo]
  | .addS _ fs ft | .subS _ fs ft | .mulS _ fs ft | .divS _ fs ft | .cEqS fs ft | .cLtS fs ft | .cLeS fs ft =>
    [.fpr fs, .fpr ft]
  | .addD _ fs ft | .subD _ fs ft | .mulD _ fs ft | .divD _ fs ft | .cEqD fs ft | .cLtD fs ft | .cLeD fs ft =>
    pairPieces fs ++ pairPieces ft
  | .bc1t _ | .bc1f _ => [.fpcond]
  | .swc1 ft imm rs => .gpr rs :: s.storeData 4 (s.effAddr rs imm) [.fpr ft]
  | .sdc1 ft imm rs => .gpr rs :: s.storeData 8 (s.effAddr rs imm) (pairPieces ft)
  | .j _ | .jal _ | .lui _ _ | .mfc0 _ _ => []

/-- The instruction is reserved where it stands, so that it reads nothing (R304 (b), (c), R307). -/
def State.reservedHere (s : State) (i : Instr) : Bool :=
  !i.wellFormed || (isTransfer i && s.oneSlot && s.inDelaySlot)

/-- The first register without a value that the instruction would read, where that ends the run (R332). -/
def State.valuelessSource (s : State) (i : Instr) : Option Piece :=
  if s.params.uninitRead = .fault && !s.reservedHere i then (registerSources s i).find? fun p => !s.hasValue p else none

/-- Under `UNINIT_READ = fault` the read of a register without a value ends the run with `UninitialisedRead`, before the
instruction changes anything; else go on (R332; log 5). -/
def readingRegisters (i : Instr) (s : State) (body : Result) : Result :=
  match s.valuelessSource i with
  | some p => .fault (.uninitialisedRead p s.pc s)
  | none => body

end Sys2Proof.Machine
end

