-- ==== Sys2Proof/Machine/Fetch.lean ====
section
/-! DEFINITION. Fetching and decoding the instruction at the program counter (R10, R56), the end of the run (R335), and
placing a word where the next step fetches it. -/

namespace Sys2Proof.Machine

/-- The run has ended normally: `pc = END_PC`, tested before the fetch, under both settings of BRANCH_DELAY (R335 (a)). -/
def State.ended (s : State) : Bool := s.pc == s.map.endPc

/-- The fetch: `MemRead(pc, 4)` from the text region, with the byte order of data (R10, R53, R56, R335 (b)). -/
def fetch (s : State) (body : Word → Result) : Result :=
  checked .fetch 4 s.pc s (withValue (s.wordAt s.pc) s.pc s body)

/-- Go on with the instruction a word encodes; a reserved encoding raises `ReservedInstruction` (R100, R304 (a)). -/
def decoded (w : Word) (s : State) (run : Instr → Result) : Result :=
  match decodeWord w with
  | .ok i => run i
  | .error _ => raise (.reservedInstruction w) s

/-- One step around the instruction's own meaning (R10). A run that has ended does not go on: the state stays (log 7).
Under `UNINIT_READ = fault` the registers that the instruction reads must have values (R332; log 5). -/
def stepWith (run : Instr → State → Result) (s : State) : Result :=
  if s.ended then .next s else fetch s fun w => decoded w s fun i => readingRegisters i s (run i s)

/-- The launch's map with `[pc, pc + 4)` in the text region and `END_PC` elsewhere, so that a fetch at `pc` is made
(log 21). -/
def MemMap.fetchable (m : MemMap) (pc : Word) : MemMap where
  text := if allFrom m.isText pc.toNat 4 then m.text else { base := pc.toNat, size := 4 }
  data := m.data
  endPc := if m.endPc = pc then pc + 4#32 else m.endPc

/-- The word whose low `nbits` bits are those of `w`, stored at `pc` in the machine's byte order (log 21). -/
def State.placeFetchWord (s : State) (nbits w : Nat) : State :=
  ({ s with map := s.map.fetchable s.pc }).setWord s.pc (BitVec.ofNat 32 (w % 2 ^ nbits))

end Sys2Proof.Machine
end

