-- ==== Sys2Proof/Machine/Assembler.lean ====
section
/-! DEFINITION. What the spec says of the assembler, a tool outside the machine: the ranges of immediates (R105), the
fields of labels (R106, R279), the expansions of the pseudo-instructions (R270 to R278) and the machine form that a
listing's Basic column prints (R103, R104). No step depends on it (log 24). -/

namespace Sys2Proof.Machine.Assembler

/-- A signed 16-bit immediate: addi, addiu, slti, sltiu, loads, stores and branch distances (R105, D21). -/
def signedImm (v : Int) : Option Imm :=
  if -32768 ≤ v ∧ v ≤ 32767 then some (BitVec.ofInt 16 v) else none

/-- An unsigned 16-bit immediate: andi, ori, lui; a negative one is refused (R105, D21). -/
def unsignedImm (v : Int) : Option Imm :=
  if 0 ≤ v ∧ v ≤ 65535 then some (BitVec.ofInt 16 v) else none

/-- A shift distance (R92, D21). -/
def shiftAmount (v : Int) : Option (BitVec 5) :=
  if 0 ≤ v ∧ v ≤ 31 then some (BitVec.ofInt 5 v) else none

/-- The imm field of a branch at `pc` to a label: the distance `(label - (pc + 4)) / 4` (R106, R279); none where it is no
whole number of instructions or out of reach (U19). DEDUCED from R9, R90 and D7, R106 and R152 not saying it: the
difference is taken modulo 2^32 and as a signed number, as the branch will add it, so that a label is in reach across the
end of the address space (log 25). -/
def branchField (pc label : Word) : Option Imm :=
  let d := (label - (pc + 4#32)).toInt
  if d % 4 = 0 then signedImm (d / 4) else none

/-- The address field of a jump at `pc` to a label: `label[27:2]` (R106, R279); none where the label is in another 256 MB
region or no multiple of 4 (U19). -/
def jumpField (pc label : Word) : Option (BitVec 26) :=
  if label.extractLsb' 28 4 = (pc + 4#32).extractLsb' 28 4 ∧ label.extractLsb' 0 2 = 0#2 then
    some (label.extractLsb' 2 26)
  else none

/-- `$at`, the assembler's own register (R21, R270). -/
def at_ : Reg := 1#5

/-- The 8 pseudo-instructions (R2), a branch's label given as its address. -/
inductive Pseudo where
  /-- R271 -/
  | blt (rs rt : Reg) (label : Word)
  /-- R272 -/
  | bgt (rs rt : Reg) (label : Word)
  /-- R273 -/
  | ble (rs rt : Reg) (label : Word)
  /-- R274 -/
  | bge (rs rt : Reg) (label : Word)
  /-- R275 -/
  | li (rd : Reg) (immediate : Word)
  /-- R276 -/
  | move (rd rs : Reg)
  /-- R277 -/
  | div (rdest rsrc1 src2 : Reg)
  /-- R278 -/
  | divu (rdest rsrc1 src2 : Reg)
  deriving DecidableEq, Repr

/-- A comparison into `$at`, then a branch to the label on `$at`: two words, the branch at `pc + 4`. -/
def compareBranch (compare : Instr) (branch : Imm → Instr) (pc label : Word) : Option (List Instr) :=
  (branchField (pc + 4#32) label).map fun imm => [compare, branch imm]

/-- The machine instructions that stand for a pseudo-instruction placed at `pc` (R271 to R278); none where the label is
out of reach. -/
def expand (pc : Word) : Pseudo → Option (List Instr)
  | .blt rs rt label => compareBranch (.slt at_ rs rt) (.bne at_ 0#5) pc label
  | .bgt rs rt label => compareBranch (.slt at_ rt rs) (.bne at_ 0#5) pc label
  | .ble rs rt label => compareBranch (.slt at_ rt rs) (.beq at_ 0#5) pc label
  | .bge rs rt label => compareBranch (.slt at_ rs rt) (.beq at_ 0#5) pc label
  | .li rd v => some [.lui at_ (v.extractLsb' 16 16), .ori rd at_ (v.extractLsb' 0 16)]
  | .move rd rs => some [.addu rd 0#5 rs]
  | .div rdest rsrc1 src2 => some [.div rsrc1 src2, .mflo rdest]
  | .divu rdest rsrc1 src2 => some [.divu rsrc1 src2, .mflo rdest]

/-- One hexadecimal digit. -/
def hexDigit (d : BitVec 4) : Char :=
  ['0', '1', '2', '3', '4', '5', '6', '7', '8', '9', 'a', 'b', 'c', 'd', 'e', 'f'].getD d.toNat '0'

/-- A word as `0x` and 8 hexadecimal digits (R103). -/
def hex (w : Word) : String :=
  "0x" ++ String.ofList ((List.range 8).map fun k => hexDigit (w.extractLsb' (4 * (7 - k)) 4))

/-- A general register by its number (R21, R103). -/
def reg (r : Reg) : String := "$" ++ toString r.toNat

/-- A floating-point register (R30). -/
def freg (n : FReg) : String := "$f" ++ toString n.toNat

/-- A mnemonic and its operands, separated by commas (R103). -/
def line (m : String) (operands : List String) : String := m ++ " " ++ String.intercalate "," operands

/-- `offset(rs)` (R104, R170). -/
def offset (imm : Imm) (rs : Reg) : String := hex (imm.signExtend 32) ++ "(" ++ reg rs ++ ")"

/-- The row's mnemonic (R99). -/
def mnemonicOf (i : Instr) : String :=
  match rowOf (encode i) with
  | some r => r.mnemonic
  | none => ""

/-- The operands of the instruction at `pc` in the order of R104: registers by number, immediates as 8-digit hexadecimal
of their extended value, the target address for a jump. -/
def operands (pc : Word) : Instr → List String
  | .add rd rs rt | .addu rd rs rt | .sub rd rs rt | .subu rd rs rt | .slt rd rs rt | .sltu rd rs rt
  | .and rd rs rt | .or rd rs rt | .nor rd rs rt | .xor rd rs rt => [reg rd, reg rs, reg rt]
  | .addi rt rs imm | .addiu rt rs imm | .slti rt rs imm | .sltiu rt rs imm => [reg rt, reg rs, hex (imm.signExtend 32)]
  | .andi rt rs imm | .ori rt rs imm => [reg rt, reg rs, hex (imm.setWidth 32)]
  | .sll rd rt shamt | .srl rd rt shamt | .sra rd rt shamt => [reg rd, reg rt, hex (shamt.setWidth 32)]
  | .beq rs rt imm | .bne rs rt imm => [reg rs, reg rt, hex (imm.signExtend 32)]
  | .bc1t imm | .bc1f imm => [hex (imm.signExtend 32)]
  | .j address | .jal address => [hex ((pc + 4#32).extractLsb' 28 4 ++ address ++ 0#2)]
  | .jr rs => [reg rs]
  | .lw rt imm rs | .lbu rt imm rs | .lb rt imm rs | .lhu rt imm rs | .lh rt imm rs | .sw rt imm rs | .sb rt imm rs
  | .sh rt imm rs | .ll rt imm rs | .sc rt imm rs => [reg rt, offset imm rs]
  | .lwc1 ft imm rs | .ldc1 ft imm rs | .swc1 ft imm rs | .sdc1 ft imm rs => [freg ft, offset imm rs]
  | .lui rt imm => [reg rt, hex (imm.setWidth 32)]
  | .mult rs rt | .multu rs rt | .div rs rt | .divu rs rt => [reg rs, reg rt]
  | .mfhi rd | .mflo rd => [reg rd]
  | .addS fd fs ft | .addD fd fs ft | .subS fd fs ft | .subD fd fs ft | .mulS fd fs ft | .mulD fd fs ft
  | .divS fd fs ft | .divD fd fs ft => [freg fd, freg fs, freg ft]
  | .cEqS fs ft | .cLtS fs ft | .cLeS fs ft | .cEqD fs ft | .cLtD fs ft | .cLeD fs ft => [freg fs, freg ft]
  | .mfc0 rt rd => [reg rt, reg rd]

/-- The Basic column of a listing: the machine form of the instruction at `pc` (R103, R104). -/
def basic (pc : Word) (i : Instr) : String := line (mnemonicOf i) (operands pc i)

end Sys2Proof.Machine.Assembler
end

