-- ==== Sys2Proof/Machine/Launch.lean ====
section
/-! DEFINITION. The launch (R331): what a run starts from. It acts once, before the first step, and is how a program comes
to run (log 1). -/

namespace Sys2Proof.Machine

/-- What a launch supplies (R331). -/
structure Launch where
  /-- (a) The program's words, placed at `TEXT_BASE`, `TEXT_BASE + 4`, ... -/
  program : List Word
  textBase : Word := Config.textBase
  /-- (b) `ENTRY`; where none is given, `TEXT_BASE`. -/
  entry : Option Word := none
  /-- (c) `END_PC`; where none is given, `TEXT_BASE + 4*N`. -/
  endPc : Option Word := none
  /-- (d) The data regions, conventionally from `Config.dataBase` on, and initial bytes in them. -/
  data : List Region := []
  bytes : List Host.Cell := []
  /-- (e) Initial values of some registers. -/
  gprs : List (Reg × Word) := []
  hi : Option Word := none
  lo : Option Word := none
  fprs : List (FReg × Word) := []
  fpcond : Option Bool := none
  /-- (f) The parameters of R6. -/
  params : Params := Config.defaults

/-- `ENTRY` (R331 (b)). -/
def Launch.entryPc (l : Launch) : Word := l.entry.getD l.textBase

/-- The text region `[TEXT_BASE, TEXT_BASE + 4*N)` (R60). -/
def Launch.text (l : Launch) : Region := { base := l.textBase.toNat, size := 4 * l.program.length }

/-- The map and `END_PC` (R60, R331 (c), R335). -/
def Launch.map (l : Launch) : MemMap where
  text := l.text
  data := l.data
  endPc := l.endPc.getD (l.textBase + BitVec.ofNat 32 (4 * l.program.length))

/-- Why a launch is refused (93_implementation_defined.md U20; log 20). -/
inductive LaunchError where
  /-- `ENTRY` is no multiple of 4. -/
  | entryMisaligned
  /-- `ENTRY` is outside the text. -/
  | entryOutsideText
  /-- `TEXT_BASE` is no multiple of 8, or a data region is not made of whole doublewords at multiples of 8 (R61, log 19). -/
  | regionMisaligned
  /-- A region reaches past the 2^32 byte addresses (R50). -/
  | regionOutsideAddressSpace
  /-- Two regions overlap. -/
  | regionsOverlap
  /-- An initial byte lies in no data region. -/
  | byteOutsideData
  deriving DecidableEq, Repr

/-- Two regions share no address. DESIGN CHOICE: U20 does not say whether a region of size 0 can overlap another; here it
shares no address with any, wherever its base is, and is no reason to refuse the launch (log 20). -/
def Region.apart (r q : Region) : Bool :=
  r.size == 0 || q.size == 0 || decide (r.base + r.size ≤ q.base) || decide (q.base + q.size ≤ r.base)

/-- No two regions of a list share an address. -/
def regionsApart : List Region → Bool
  | [] => true
  | r :: rs => rs.all r.apart && regionsApart rs

/-- What is wrong with a launch, if anything. -/
def Launch.check (l : Launch) : Option LaunchError :=
  if l.entryPc.toNat % 4 ≠ 0 then some .entryMisaligned
  else if !l.text.contains l.entryPc.toNat then some .entryOutsideText
  else if l.textBase.toNat % 8 ≠ 0 || !l.data.all (fun r => r.base % 8 == 0 && r.size % 8 == 0) then
    some .regionMisaligned
  else if !(l.text :: l.data).all (fun r => decide (r.base + r.size ≤ 2 ^ 32)) then some .regionOutsideAddressSpace
  else if !regionsApart (l.text :: l.data) then some .regionsOverlap
  else if !l.bytes.all (fun c => l.data.any (·.contains c.1)) then some .byteOutsideData
  else none

/-- The state with words stored one after the other from an address on. -/
def placeWords (s : State) (a : Word) : List Word → State
  | [] => s
  | w :: ws => placeWords (s.setWord a w) (a + 4#32) ws

/-- The state at the start of the run (R331, R37): what is not supplied is as in `State.reset`. -/
def Launch.state (l : Launch) : State :=
  let bare : State := { State.reset with
    pc := l.entryPc
    npc := l.entryPc + 4#32
    hi := l.hi.getD State.reset.hi
    lo := l.lo.getD State.reset.lo
    fpcond := l.fpcond.getD State.reset.fpcond
    map := l.map
    params := l.params
    written := { State.reset.written with hi := l.hi.isSome, lo := l.lo.isSome, fpcond := l.fpcond.isSome }
    mem := l.bytes.foldl (fun m c => m.put c.1 c.2) [] }
  placeWords (l.fprs.foldl (fun s p => s.setFpr p.1 p.2) (l.gprs.foldl (fun s p => s.setReg p.1 p.2) bare))
    l.textBase l.program

/-- Start a run, or refuse the launch. -/
def Launch.start (l : Launch) : Except LaunchError State :=
  match l.check with
  | none => .ok l.state
  | some e => .error e

end Sys2Proof.Machine
end

