-- ==== Sys2Proof/Safety.lean ====
section
/-! DEFINITION. The terms that statements use: what an instruction may touch, when it completes, what an exception leaves,
and the invariant of the machine. -/

namespace Sys2Proof.Machine

/-! ### What an instruction leaves unchanged -/

/-- What an instruction writes: everything that is not named here it leaves as it is. -/
structure Touched where
  gprs : List Reg := []
  fprs : List FReg := []
  hiLo : Bool := false
  fpcond : Bool := false
  /-- `llbit` and `lladdr` -/
  link : Bool := false
  /-- The address of the first byte stored, and how many bytes are. -/
  stored : Option (Word × Nat) := none

/-- The address is one of the bytes stored. -/
def Touched.storesAt (w : Touched) (a : Word) : Prop :=
  match w.stored with
  | none => False
  | some (b, n) => ∃ k, k < n ∧ a = b + BitVec.ofNat 32 k

/-- From `s` to `t` nothing has changed but what `w` names and the program counter: every other general and
floating-point register, `hi` and `lo`, `fpcond`, the link, every control register, every byte of memory. -/
structure Frame (w : Touched) (s t : State) : Prop where
  gprs : ∀ r, r ∉ w.gprs → t.reg r = s.reg r
  fprs : ∀ n, n ∉ w.fprs → t.fpr n = s.fpr n
  hiLo : w.hiLo = false → t.hi = s.hi ∧ t.lo = s.lo
  fpcond : w.fpcond = false → t.fpcond = s.fpcond
  link : w.link = false → t.llbit = s.llbit ∧ t.lladdr = s.lladdr
  control : ∀ n, t.cr n = s.cr n
  bytes : ∀ a, ¬ w.storesAt a → t.byteAt a = s.byteAt a

/-- What a write of `v` leaves in `x[r]` (R22). -/
def afterWrite (r : Reg) (v : Word) : Word := if r = 0#5 then 0#32 else v

/-- The next instruction is the one in sequence (R28, R151). -/
def Sequential (s t : State) : Prop :=
  match s.params.branchDelay with
  | .none => t.pc = s.pc + 4#32
  | .oneSlot => t.pc = s.npc ∧ t.npc = s.npc + 4#32

/-- A branch or jump, taken to `target` or not (R150, R151). -/
def Transfers (taken : Bool) (target : Word) (s t : State) : Prop :=
  match s.params.branchDelay with
  | .none => t.pc = if taken then target else s.pc + 4#32
  | .oneSlot => t.pc = s.npc ∧ t.npc = if taken then target else s.npc + 4#32

/-- The instruction at `pc` does not stand in a delay slot (R151; log 8). -/
def NotInSlot (s : State) : Prop := s.params.branchDelay = .none ∨ s.inDelaySlot = false

/-- From `s` to `t` `x[r]` was written with `v`, nothing else changed, and the next instruction is the one in sequence. -/
structure WroteReg (r : Reg) (v : Word) (s t : State) : Prop where
  value : t.reg r = afterWrite r v
  frame : Frame { gprs := [r] } s t
  sequential : Sequential s t

/-- From `s` to `t` `hi` and `lo` were written. -/
structure WroteHiLo (hi lo : Word) (s t : State) : Prop where
  hi_value : t.hi = hi
  lo_value : t.lo = lo
  frame : Frame { hiLo := true } s t
  sequential : Sequential s t

/-- From `s` to `t` `f[n]` was written. -/
structure WroteFpr (n : FReg) (v : Word) (s t : State) : Prop where
  value : t.fpr n = v
  frame : Frame { fprs := [n] } s t
  sequential : Sequential s t

/-- From `s` to `t` a double was written to the pair of `n` (R243). -/
structure WroteDouble (n : FReg) (v : DWord) (s t : State) : Prop where
  value : t.dbl n = v
  frame : Frame { fprs := [n, n + 1#5] } s t
  sequential : Sequential s t

/-- From `s` to `t` the pair `f[n]`, `f[n+1]` was written. -/
structure WrotePair (n : FReg) (v0 v1 : Word) (s t : State) : Prop where
  first : t.fpr n = v0
  second : t.fpr (n + 1#5) = v1
  frame : Frame { fprs := [n, n + 1#5] } s t
  sequential : Sequential s t

/-- From `s` to `t` `fpcond` was written. -/
structure WroteFlag (b : Bool) (s t : State) : Prop where
  value : t.fpcond = b
  frame : Frame { fpcond := true } s t
  sequential : Sequential s t

/-- From `s` to `t` the `n` bytes from `a` on were stored, the byte `k` places above `a` being `lane k`. -/
structure Stored (a : Word) (n : Nat) (lane : Nat → Byte) (s t : State) : Prop where
  value : ∀ k, k < n → t.byteAt (a + BitVec.ofNat 32 k) = some (lane k)
  frame : Frame { stored := some (a, n) } s t
  sequential : Sequential s t

/-- The number of the byte of an `n`-byte value, from its least significant end, that lies `k` places above the value's
address (R52). -/
def laneIndex (o : ByteOrder) (n k : Nat) : Nat :=
  match o with
  | .little => k
  | .big => n - 1 - k

/-- What an exception leaves: the state before the instruction, with `llbit` cleared (R303, R318). -/
def afterException (s : State) : State := { s with llbit := false }

/-! ### Where a branch or jump goes -/

/-- A branch or jump is taken: a branch by its condition (R152, R153, R237, R238), a jump always (R154, R156, R157). -/
def takes (s : State) : Instr → Bool
  | .beq rs rt _ => decide (s.reg rs = s.reg rt)
  | .bne rs rt _ => decide (s.reg rs ≠ s.reg rt)
  | .bc1t _ => s.fpcond
  | .bc1f _ => !s.fpcond
  | i => isTransfer i

/-- The target of a branch or jump: `pc + 4 + 4 * imm` for a branch, the address in the 256 MB region of `pc + 4` for j and
jal, the register for jr (R90, R91, R157). -/
def targetOf (s : State) : Instr → Word
  | .beq _ _ imm | .bne _ _ imm | .bc1t imm | .bc1f imm => s.pc + 4#32 + BitVec.ofInt 32 (4 * imm.toInt)
  | .j address | .jal address => BitVec.ofNat 32 ((s.pc + 4#32).toNat / 2 ^ 28 * 2 ^ 28 + 4 * address.toNat)
  | .jr rs => s.reg rs
  | _ => s.pc + 4#32

/-! ### Words of an instruction -/

/-- A word whose bits under `mask` are `pattern` decodes to the instruction that `build` makes of its fields (R99). -/
def DecodesBy (pattern mask : Word) (build : Word → Instr) : Prop :=
  ∀ w : Word, w &&& mask = pattern → decodeWord w = .ok (build w)

/-! ### When an instruction completes -/

/-- An access to memory. -/
structure Access where
  kind : AccessKind
  size : Nat
  addr : Word
  deriving DecidableEq, Repr

/-- The access an instruction makes to data memory (R57, R170). -/
def accessOf (s : State) : Instr → Option Access
  | .lw _ imm rs | .ll _ imm rs | .lwc1 _ imm rs => some ⟨.load, 4, s.effAddr rs imm⟩
  | .lhu _ imm rs | .lh _ imm rs => some ⟨.load, 2, s.effAddr rs imm⟩
  | .lbu _ imm rs | .lb _ imm rs => some ⟨.load, 1, s.effAddr rs imm⟩
  | .ldc1 _ imm rs => some ⟨.load, 8, s.effAddr rs imm⟩
  | .sw _ imm rs | .sc _ imm rs | .swc1 _ imm rs => some ⟨.store, 4, s.effAddr rs imm⟩
  | .sh _ imm rs => some ⟨.store, 2, s.effAddr rs imm⟩
  | .sb _ imm rs => some ⟨.store, 1, s.effAddr rs imm⟩
  | .sdc1 _ imm rs => some ⟨.store, 8, s.effAddr rs imm⟩
  | _ => none

/-- The base register of a load or store (R170). -/
def baseOf : Instr → Option Reg
  | .lw _ _ rs | .lbu _ _ rs | .lb _ _ rs | .lhu _ _ rs | .lh _ _ rs | .ll _ _ rs | .sw _ _ rs | .sb _ _ rs | .sh _ _ rs
  | .sc _ _ rs | .lwc1 _ _ rs | .ldc1 _ _ rs | .swc1 _ _ rs | .sdc1 _ _ rs => some rs
  | _ => none

/-- The access is aligned to its size, every byte of it is mapped, and no byte of a store lies in the text region (R54,
R61, R66). -/
def Access.Permitted (a : Access) (s : State) : Prop :=
  a.addr.toNat % a.size = 0 ∧
  ∀ k, k < a.size → s.map.mapped (a.addr.toNat + k) = true ∧
    (a.kind = .store → s.map.isText (a.addr.toNat + k) = false)

/-- Every byte of the access reads as some value (R332). -/
def Access.Readable (a : Access) (s : State) : Prop :=
  ∀ k, k < a.size → ∃ b, s.byteAt (a.addr + BitVec.ofNat 32 k) = some b

/-- The exact signed sum or difference of an instruction that carries footnote (1) (R110, R301). -/
def checkedResult (s : State) : Instr → Option Int
  | .add _ rs rt => some ((s.reg rs).toInt + (s.reg rt).toInt)
  | .addi _ rs imm => some ((s.reg rs).toInt + imm.toInt)
  | .sub _ rs rt => some ((s.reg rs).toInt - (s.reg rt).toInt)
  | _ => none

/-- The number is a signed 32-bit number (R110). -/
def Fits32 (v : Int) : Prop := -2 ^ 31 ≤ v ∧ v ≤ 2 ^ 31 - 1

/-- The instruction is a reserved form where it stands: an odd register for a double, or a branch or jump in a delay slot
(R304 (b), (c)). -/
def ReservedForm (s : State) (i : Instr) : Prop :=
  i.wellFormed = false ∨ (isTransfer i = true ∧ ¬ NotInSlot s)

/-- Under `UNINIT_READ = fault`, every register that the instruction reads has a value; a reserved form reads none (R332;
log 5). -/
def ReadsValues (s : State) (i : Instr) : Prop :=
  s.params.uninitRead = .fault → ReservedForm s i ∨ ∀ p ∈ registerSources s i, s.hasValue p = true

/-- Nothing keeps the instruction from completing. -/
structure Completes (s : State) (i : Instr) : Prop where
  form : ¬ ReservedForm s i
  result : ∀ v, checkedResult s i = some v → Fits32 v
  permitted : ∀ a, accessOf s i = some a → a.Permitted s
  readable : ∀ a, accessOf s i = some a → a.kind = .load → a.Readable s

/-! ### What an instruction writes, by kind of state -/

/-- The general register an instruction writes (R23). -/
def gprDest : Instr → Option Reg
  | .add rd _ _ | .addu rd _ _ | .sub rd _ _ | .subu rd _ _ | .slt rd _ _ | .sltu rd _ _ | .and rd _ _ | .or rd _ _
  | .nor rd _ _ | .xor rd _ _ | .sll rd _ _ | .srl rd _ _ | .sra rd _ _ | .mfhi rd | .mflo rd => some rd
  | .addi rt _ _ | .addiu rt _ _ | .slti rt _ _ | .sltiu rt _ _ | .andi rt _ _ | .ori rt _ _ | .lui rt _ | .lw rt _ _
  | .lbu rt _ _ | .lb rt _ _ | .lhu rt _ _ | .lh rt _ _ | .ll rt _ _ | .sc rt _ _ | .mfc0 rt _ => some rt
  | .jal _ => some 31#5
  | _ => none

/-- The floating-point registers an instruction writes (R30, R243). -/
def fprDests : Instr → List FReg
  | .addS fd _ _ | .subS fd _ _ | .mulS fd _ _ | .divS fd _ _ => [fd]
  | .addD fd _ _ | .subD fd _ _ | .mulD fd _ _ | .divD fd _ _ => [fd, fd + 1#5]
  | .lwc1 ft _ _ => [ft]
  | .ldc1 ft _ _ => [ft, ft + 1#5]
  | _ => []

/-- The instruction writes `hi` and `lo` (R29). -/
def writesHiLo : Instr → Bool
  | .mult _ _ | .multu _ _ | .div _ _ | .divu _ _ => true
  | _ => false

/-- The instruction is one of the six compares (R32). -/
def isCompare : Instr → Bool
  | .cEqS _ _ | .cLtS _ _ | .cLeS _ _ | .cEqD _ _ | .cLtD _ _ | .cLeD _ _ => true
  | _ => false

/-- The registers an instruction writes. -/
def registerDests (i : Instr) : List Piece :=
  (gprDest i).toList.map .gpr ++ (fprDests i).map .fpr ++ (if writesHiLo i then [.hi, .lo] else []) ++
    if isCompare i then [.fpcond] else []

/-- The two states hold the same values in the registers `on`, and are equal in everything that is no register of R332. -/
structure AgreeOn (on : Piece → Prop) (s t : State) : Prop where
  gprs : ∀ r, on (.gpr r) → t.reg r = s.reg r
  fprs : ∀ n, on (.fpr n) → t.fpr n = s.fpr n
  hi : on .hi → t.hi = s.hi
  lo : on .lo → t.lo = s.lo
  fpcond : on .fpcond → t.fpcond = s.fpcond
  pc : t.pc = s.pc
  npc : t.npc = s.npc
  inDelaySlot : t.inDelaySlot = s.inDelaySlot
  crs : t.crs = s.crs
  llbit : t.llbit = s.llbit
  lladdr : t.lladdr = s.lladdr
  mem : t.mem = s.mem
  map : t.map = s.map
  params : t.params = s.params
  draws : t.draws = s.draws

/-- The bytes an instruction may store to. -/
def storesTo (s : State) (i : Instr) (a : Word) : Prop :=
  match accessOf s i with
  | some ⟨AccessKind.store, n, b⟩ => ∃ k, k < n ∧ a = b + BitVec.ofNat 32 k
  | _ => False

/-! ### Faults -/

/-- The address recorded with a fault (R303). -/
def Fault.pc : Fault → Word
  | .overflow pc _ | .addressError _ _ pc _ | .reservedInstruction _ pc _ | .uninitialisedRead _ pc _ => pc

/-- The state in which the run ended. -/
def Fault.final : Fault → State
  | .overflow _ t | .addressError _ _ _ t | .reservedInstruction _ _ t | .uninitialisedRead _ _ t => t

/-- One of the three exceptions of R302; UninitialisedRead is none (R332). -/
def Fault.isException : Fault → Bool
  | .overflow _ _ | .addressError _ _ _ _ | .reservedInstruction _ _ _ => true
  | .uninitialisedRead _ _ _ => false

/-! ### The invariant -/

/-- What holds of the state at every moment of a run: memory keeps its canonical form (R50) and holds values at mapped
addresses only (R61); the cell of `x[0]` holds 0 (R22); an open reservation is of an aligned, mapped word (R65); and
without delay slots no instruction stands in one (R151). -/
structure Inv (s : State) : Prop where
  canonical : s.mem.wf
  mapped : ∀ c ∈ s.mem, s.map.mapped c.1 = true
  zero : s.gprs[0] = 0#32
  link : s.llbit = true → s.lladdr.toNat % 4 = 0 ∧ s.map.mapped s.lladdr.toNat = true
  slot : s.params.branchDelay = .none → s.inDelaySlot = false

/-- `n` steps from `s` end in `t`. -/
def RunsTo (n : Nat) (s t : State) : Prop := Host.Core.run Sys2Proof.core n s = .next t

/-- The next `n` steps from `s` meet no fault: the run is safe. -/
def SafeFor (n : Nat) (s : State) : Prop := ∃ t, RunsTo n s t

end Sys2Proof.Machine
end

