-- ==== Sys2Proof/Certificates/Slice0/Obligations.lean ====
section
/-! DEFINITION. The statements about the machine, from the numbered rules of spec/. -/

section

open Sys2Proof Sys2Proof.Machine

/-! ### Encoding -/

/-- Decoding the word of an instruction gives the instruction back, with every operand at every value, as a word and as
bytes in either byte order (R80, R99). -/
def Obligations.DecodeOfEncode : Prop :=
  ∀ i : Instr, decodeWord (encode i) = .ok i ∧
    ∀ (o : ByteOrder) (rest : List Byte), decodeBytes o (wordBytes o (encode i) ++ rest) = .ok (i, rest)

/-- A word that decodes to an instruction is the word of that instruction, bit for bit: in particular every field the
instruction does not use is zero (R99, R101). -/
def Obligations.EncodeOfDecode : Prop :=
  ∀ (w : Word) (i : Instr), decodeWord w = .ok i → encode i = w

/-- Words of the MARS listings decode as the listings say (S18, S19 of 95_test_vectors.md; R111, R112, R115, R132, R135,
R156, R157). -/
def Obligations.ListingWordsDecode : Prop :=
  decodeWord 0x014b4820#32 = .ok (.add 9 10 11) ∧ decodeWord 0x21490003#32 = .ok (.addi 9 10 3) ∧
  decodeWord 0x014b4822#32 = .ok (.sub 9 10 11) ∧ decodeWord 0x014b4825#32 = .ok (.or 9 10 11) ∧
  decodeWord 0x014b4826#32 = .ok (.xor 9 10 11) ∧ decodeWord 0x02200008#32 = .ok (.jr 17) ∧
  decodeWord 0x0c100006#32 = .ok (.jal 0x0100006)

/-- Every opcode, funct, fmt and ft that selects no instruction makes the word a reserved encoding (R94 to R97, R100). -/
def Obligations.UnlistedEncodingsAreReserved : Prop :=
  ∀ w : Word,
    (fOpcode w ∉ ([0x00, 0x02, 0x03, 0x04, 0x05, 0x08, 0x09, 0x0a, 0x0b, 0x0c, 0x0d, 0x0f, 0x10, 0x11, 0x20, 0x21, 0x23,
        0x24, 0x25, 0x28, 0x29, 0x2b, 0x30, 0x31, 0x35, 0x38, 0x39, 0x3d] : List (BitVec 6)) ∨
     (fOpcode w = 0x00 ∧ fFunct w ∉ ([0x00, 0x02, 0x03, 0x08, 0x10, 0x12, 0x18, 0x19, 0x1a, 0x1b, 0x20, 0x21, 0x22, 0x23,
        0x24, 0x25, 0x26, 0x27, 0x2a, 0x2b] : List (BitVec 6))) ∨
     (fOpcode w = 0x10 ∧ fRs w ≠ 0) ∨
     (fOpcode w = 0x11 ∧ fRs w ∉ ([0x08, 0x10, 0x11] : List (BitVec 5))) ∨
     (fOpcode w = 0x11 ∧ fRs w ∈ ([0x10, 0x11] : List (BitVec 5)) ∧
        fFunct w ∉ ([0x00, 0x01, 0x02, 0x03, 0x32, 0x3c, 0x3e] : List (BitVec 6))) ∨
     (fOpcode w = 0x11 ∧ fRs w = 0x08 ∧ fRt w ∉ ([0x00, 0x01] : List (BitVec 5)))) →
    decodeWord w = .error (.reserved w)

/-! ### The step -/

/-- A step away from `END_PC` runs the instruction that the word at `pc` decodes to, where `UNINIT_READ = fault` does not
keep it from reading its registers (R10, R332; the order is log 5). -/
def Obligations.StepRunsDecoded : Prop :=
  ∀ (s : State) (w : Word) (i : Instr), s.pc ≠ s.map.endPc → s.accessOk .fetch 4 s.pc = true →
    s.wordAt s.pc = some w → decodeWord w = .ok i → ReadsValues s i → step s = exec i s

/-- A step that cannot fetch raises AddressError with the bad `pc`, and a step that fetches a reserved word raises
ReservedInstruction with the word (R56, R61, R100, R303, R304 (a), R335 (b)). -/
def Obligations.StepFaults : Prop :=
  ∀ s : State, s.pc ≠ s.map.endPc →
    ((s.pc.toNat % 4 ≠ 0 ∨ ∃ k, k < 4 ∧ s.map.isText (s.pc.toNat + k) = false) →
      step s = .fault (.addressError .fetch s.pc s.pc (afterException s))) ∧
    (∀ w : Word, s.pc.toNat % 4 = 0 → (∀ k, k < 4 → s.map.isText (s.pc.toNat + k) = true) → s.wordAt s.pc = some w →
      (∀ i, decodeWord w ≠ .ok i) → step s = .fault (.reservedInstruction w s.pc (afterException s)))

/-- At `END_PC` no fetch is made and the state stays (R335 (a)); that a step there answers the same state is the model's
choice (log 7). -/
def Obligations.StepStaysAtEnd : Prop :=
  ∀ s : State, s.pc = s.map.endPc → step s = .next s

/-- An instruction placed by `withFetchWord` at an aligned `pc` is the one the next step runs, where `UNINIT_READ = fault`
does not keep it from reading its registers (log 5), and placing it changes no register: the model's choice for loading one
word (log 21). -/
def Obligations.PlacedWordRuns : Prop :=
  ∀ (s : State) (i : Instr), s.pc.toNat % 4 = 0 →
    let t := s.withFetchWord 32 (encode i).toNat
    (ReadsValues t i → step t = exec i t) ∧ t.written = s.written ∧ t.pc = s.pc ∧ t.npc = s.npc ∧ (∀ r, t.reg r = s.reg r) ∧ (∀ n, t.fpr n = s.fpr n) ∧ t.hi = s.hi ∧
      t.lo = s.lo ∧ t.fpcond = s.fpcond ∧ t.llbit = s.llbit ∧ t.lladdr = s.lladdr ∧ (∀ n, t.cr n = s.cr n) ∧
      t.inDelaySlot = s.inDelaySlot ∧ t.params = s.params

/-- What reset gives a value by R37: `x[0]`, `pc`, `npc`, `llbit` and the oracle's control registers; no other register of
R332 and no byte of memory has a value. The zeros that the other registers hold are the model's choice (log 2) and are not
stated. -/
def Obligations.ResetValues : Prop :=
  State.reset.reg 0#5 = 0#32 ∧ State.reset.pc = 0x00400000#32 ∧ State.reset.npc = 0x00400004#32 ∧
  State.reset.llbit = false ∧ (∀ n : BitVec 5, State.reset.cr n = Config.crValue n.toFin) ∧
  (∀ a, State.reset.mem.valueAt a = none) ∧ ∀ p, State.reset.hasValue p = true ↔ p = .gpr 0#5

/-- A launch that is accepted starts at ENTRY with the program's words in the text region, END_PC as R331 says, `llbit`
clear, the machine's invariant, and a value in `x[0]` and in exactly the registers that it supplies (R60, R331, R332, R335);
which launches are accepted is log 20, the record of which registers have a value log 5. -/
def Obligations.LaunchStarts : Prop :=
  ∀ (l : Launch) (s : State), l.start = .ok s →
    s.pc = l.entry.getD l.textBase ∧ s.npc = s.pc + 4#32 ∧ s.pc.toNat % 4 = 0 ∧ s.map.isText s.pc.toNat = true ∧
    s.map.endPc = l.endPc.getD (l.textBase + BitVec.ofNat 32 (4 * l.program.length)) ∧ s.llbit = false ∧
    s.params = l.params ∧ Inv s ∧
    (∀ r, s.hasValue (.gpr r) = true ↔ r = 0#5 ∨ r ∈ l.gprs.map (·.1)) ∧
    (∀ n, s.hasValue (.fpr n) = true ↔ n ∈ l.fprs.map (·.1)) ∧
    (s.hasValue .hi = true ↔ l.hi.isSome) ∧ (∀ v, l.hi = some v → s.hi = v) ∧
    (s.hasValue .lo = true ↔ l.lo.isSome) ∧ (∀ v, l.lo = some v → s.lo = v) ∧
    (s.hasValue .fpcond = true ↔ l.fpcond.isSome) ∧ (∀ b, l.fpcond = some b → s.fpcond = b) ∧
    ∀ (k : Nat) (h : k < l.program.length),
      s.wordAt (l.textBase + BitVec.ofNat 32 (4 * k)) = some l.program[k] ∧
      s.map.isText (l.textBase.toNat + 4 * k) = true

/-! ### Exceptions -/

/-- A step that raises an exception has none of the instruction's effects: the run ends in the state before the step with
`llbit` cleared, and the fault records the `pc` of that state (R303, R318; that the state stands in the fault is log 6). -/
def Obligations.ExceptionsArePrecise : Prop :=
  ∀ (s : State) (f : Fault), step s = .fault f → f.isException = true →
    f.pc = s.pc ∧ f.final = afterException s

/-- Overflow is raised by add, addi and sub, and by no other instruction, exactly when the exact signed result is no signed
32-bit number; nothing is written (R301). -/
def Obligations.OverflowRaisers : Prop :=
  ∀ (i : Instr) (s : State) (p : Word) (t : State),
    exec i s = .fault (.overflow p t) ↔
      (∃ v, checkedResult s i = some v ∧ ¬ Fits32 v) ∧ p = s.pc ∧ t = afterException s

/-- A data access raises AddressError, with its kind and effective address, exactly when it is misaligned, touches an
unmapped byte, or stores into the text region; an odd register of ldc1 or sdc1 comes first (R302, R305, R307). -/
def Obligations.AddressErrorRaisers : Prop :=
  ∀ (i : Instr) (s : State) (k : AccessKind) (a p : Word) (t : State),
    exec i s = .fault (.addressError k a p t) ↔
      i.wellFormed = true ∧ (∃ n, accessOf s i = some ⟨k, n, a⟩ ∧ ¬ Access.Permitted ⟨k, n, a⟩ s) ∧
      p = s.pc ∧ t = afterException s

/-- An instruction raises ReservedInstruction with its own word exactly when it names an odd register for a double, or is
a branch or jump in a delay slot (R151, R243, R304 (b), (c); that the state holds the slot as a field is log 8). -/
def Obligations.ReservedInstructionRaisers : Prop :=
  ∀ (i : Instr) (s : State) (w p : Word) (t : State),
    exec i s = .fault (.reservedInstruction w p t) ↔
      ReservedForm s i ∧ w = encode i ∧ p = s.pc ∧ t = afterException s

/-- An instruction's own meaning ends the run with UninitialisedRead exactly when it is a permitted load of a byte that has
no value under `UNINIT_READ = fault`; the state is as it was (R332; registers are asked for by the step before the meaning,
log 5). -/
def Obligations.UninitialisedReadRaisers : Prop :=
  ∀ (i : Instr) (s : State) (p : Piece) (pc : Word) (t : State),
    exec i s = .fault (.uninitialisedRead p pc t) ↔
      i.wellFormed = true ∧
      (∃ a n, p = .memory a ∧ accessOf s i = some ⟨.load, n, a⟩ ∧ Access.Permitted ⟨.load, n, a⟩ s ∧
        ¬ Access.Readable ⟨.load, n, a⟩ s) ∧
      pc = s.pc ∧ t = s

/-- The meaning of every instruction completes, with a next state, exactly when none of the causes above keeps it from it:
all 62 instructions, in every state (R301 to R305, R332; the delay slot's field is log 8; that the step, and not the meaning,
asks for the registers' values under `UNINIT_READ = fault` is log 5). -/
def Obligations.CompletesExactly : Prop :=
  ∀ (i : Instr) (s : State), (∃ t, exec i s = .next t) ↔ Completes s i

/-! ### Invariants -/

/-- Every step keeps the invariant: canonical memory at mapped addresses only, `x[0] = 0`, a reservation on an aligned
mapped word, no delay slot without delay slots (R22, R50, R61, R65, R151; log 8 for the last). -/
def Obligations.StepKeepsInv : Prop :=
  ∀ s t : State, Inv s → step s = .next t → Inv t

/-- The state after reset has the invariant. -/
def Obligations.ResetInv : Prop := Inv State.reset

/-- No run changes a byte of the text region, from any state, in any number of steps (R66). -/
def Obligations.TextIsImmutable : Prop :=
  ∀ (n : Nat) (s t : State), RunsTo n s t → ∀ a : Word, s.map.isText a.toNat = true → t.byteAt a = s.byteAt a

/-- No step changes a control register (R33), or the launch's map and parameters, which the model holds in the state
(log 16). -/
def Obligations.LaunchIsFixed : Prop :=
  ∀ s t : State, step s = .next t → t.map = s.map ∧ t.params = s.params ∧ ∀ n, t.cr n = s.cr n

/-- Only jr can leave a misaligned program counter (R26, R155). -/
def Obligations.OnlyJrMisaligns : Prop :=
  ∀ (i : Instr) (s t : State), exec i s = .next t → (∀ rs, i ≠ .jr rs) → s.pc.toNat % 4 = 0 → s.npc.toNat % 4 = 0 →
    t.pc.toNat % 4 = 0 ∧ t.npc.toNat % 4 = 0

/-! ### Who writes what -/

/-- `fpcond` is written by the six compares alone, `hi` and `lo` by mult, multu, div and divu alone (R29, R32). -/
def Obligations.FlagAndHiLoWriters : Prop :=
  ∀ (i : Instr) (s t : State), exec i s = .next t →
    (isCompare i = false → t.fpcond = s.fpcond) ∧ (writesHiLo i = false → t.hi = s.hi ∧ t.lo = s.lo)

/-- A general register changes only as the destination of an instruction that has it as such, jal having register 31
(R23). -/
def Obligations.GprWriters : Prop :=
  ∀ (i : Instr) (s t : State) (r : Reg), exec i s = .next t → gprDest i ≠ some r → t.reg r = s.reg r

/-- A floating-point register changes only as a destination of floating-point arithmetic or of lwc1 or ldc1 (R30). -/
def Obligations.FprWriters : Prop :=
  ∀ (i : Instr) (s t : State) (n : FReg), exec i s = .next t → n ∉ fprDests i → t.fpr n = s.fpr n

/-- A byte of memory changes only where a store instruction stores (R35, R59). -/
def Obligations.MemoryWriters : Prop :=
  ∀ (i : Instr) (s t : State) (a : Word), exec i s = .next t → ¬ storesTo s i a → t.byteAt a = s.byteAt a

/-- `llbit` changes by ll and sc alone, `lladdr` by ll alone (R34). -/
def Obligations.LinkWriters : Prop :=
  ∀ (i : Instr) (s t : State), exec i s = .next t → (∀ rt imm rs, i ≠ .ll rt imm rs) →
    t.lladdr = s.lladdr ∧ ((∀ rt imm rs, i ≠ .sc rt imm rs) → t.llbit = s.llbit)

/-! ### Integer arithmetic, compare, logic, shift -/

/-- The bit-level conditions of R110 are the exact ones: the signed sum or difference is no signed 32-bit number. -/
def Obligations.OverflowConditions : Prop :=
  ∀ a b : Word, (ovfAdd a b = true ↔ ¬ Fits32 (a.toInt + b.toInt)) ∧ (ovfSub a b = true ↔ ¬ Fits32 (a.toInt - b.toInt))

/-- add, addi and sub write the exact signed result where it is a signed 32-bit number, and raise Overflow where it is
not (R111, R112, R115). -/
def Obligations.AddAddiSub : Prop :=
  DecodesBy 0x00000020#32 0xfc0007ff#32 (fun w => .add (fRd w) (fRs w) (fRt w)) ∧
  DecodesBy 0x20000000#32 0xfc000000#32 (fun w => .addi (fRt w) (fRs w) (fImm w)) ∧
  DecodesBy 0x00000022#32 0xfc0007ff#32 (fun w => .sub (fRd w) (fRs w) (fRt w)) ∧
  ∀ (rd rs rt : Reg) (imm : Imm) (s : State),
    (Fits32 ((s.reg rs).toInt + (s.reg rt).toInt) → ∃ t, exec (.add rd rs rt) s = .next t ∧
      WroteReg rd (BitVec.ofInt 32 ((s.reg rs).toInt + (s.reg rt).toInt)) s t) ∧
    (¬ Fits32 ((s.reg rs).toInt + (s.reg rt).toInt) →
      exec (.add rd rs rt) s = .fault (.overflow s.pc (afterException s))) ∧
    (Fits32 ((s.reg rs).toInt + imm.toInt) → ∃ t, exec (.addi rt rs imm) s = .next t ∧
      WroteReg rt (BitVec.ofInt 32 ((s.reg rs).toInt + imm.toInt)) s t) ∧
    (¬ Fits32 ((s.reg rs).toInt + imm.toInt) →
      exec (.addi rt rs imm) s = .fault (.overflow s.pc (afterException s))) ∧
    (Fits32 ((s.reg rs).toInt - (s.reg rt).toInt) → ∃ t, exec (.sub rd rs rt) s = .next t ∧
      WroteReg rd (BitVec.ofInt 32 ((s.reg rs).toInt - (s.reg rt).toInt)) s t) ∧
    (¬ Fits32 ((s.reg rs).toInt - (s.reg rt).toInt) →
      exec (.sub rd rs rt) s = .fault (.overflow s.pc (afterException s)))

/-- addu, addiu and subu write the result modulo 2^32 and never fault; addiu's immediate is sign-extended (R113, R114,
R116). -/
def Obligations.AdduAddiuSubu : Prop :=
  DecodesBy 0x00000021#32 0xfc0007ff#32 (fun w => .addu (fRd w) (fRs w) (fRt w)) ∧
  DecodesBy 0x24000000#32 0xfc000000#32 (fun w => .addiu (fRt w) (fRs w) (fImm w)) ∧
  DecodesBy 0x00000023#32 0xfc0007ff#32 (fun w => .subu (fRd w) (fRs w) (fRt w)) ∧
  ∀ (rd rs rt : Reg) (imm : Imm) (s : State),
    (∃ t, exec (.addu rd rs rt) s = .next t ∧
      WroteReg rd (BitVec.ofNat 32 ((s.reg rs).toNat + (s.reg rt).toNat)) s t) ∧
    (∃ t, exec (.addiu rt rs imm) s = .next t ∧
      WroteReg rt (BitVec.ofInt 32 ((s.reg rs).toInt + imm.toInt)) s t) ∧
    (∃ t, exec (.subu rd rs rt) s = .next t ∧
      WroteReg rd (BitVec.ofInt 32 ((s.reg rs).toInt - (s.reg rt).toInt)) s t)

/-- slt and slti compare as signed numbers, sltu and sltiu as unsigned ones; both immediates are sign-extended first; the
result is 1 or 0 (R117 to R120). -/
def Obligations.SetLessThan : Prop :=
  DecodesBy 0x0000002a#32 0xfc0007ff#32 (fun w => .slt (fRd w) (fRs w) (fRt w)) ∧
  DecodesBy 0x0000002b#32 0xfc0007ff#32 (fun w => .sltu (fRd w) (fRs w) (fRt w)) ∧
  DecodesBy 0x28000000#32 0xfc000000#32 (fun w => .slti (fRt w) (fRs w) (fImm w)) ∧
  DecodesBy 0x2c000000#32 0xfc000000#32 (fun w => .sltiu (fRt w) (fRs w) (fImm w)) ∧
  ∀ (rd rs rt : Reg) (imm : Imm) (s : State),
    (∃ t, exec (.slt rd rs rt) s = .next t ∧
      WroteReg rd (if (s.reg rs).toInt < (s.reg rt).toInt then 1#32 else 0#32) s t) ∧
    (∃ t, exec (.sltu rd rs rt) s = .next t ∧
      WroteReg rd (if (s.reg rs).toNat < (s.reg rt).toNat then 1#32 else 0#32) s t) ∧
    (∃ t, exec (.slti rt rs imm) s = .next t ∧
      WroteReg rt (if (s.reg rs).toInt < imm.toInt then 1#32 else 0#32) s t) ∧
    (∃ t, exec (.sltiu rt rs imm) s = .next t ∧
      WroteReg rt (if (s.reg rs).toNat < (BitVec.ofInt 32 imm.toInt).toNat then 1#32 else 0#32) s t)

/-- The logic instructions, bit by bit, the immediates zero-extended; and lui, which puts the immediate in the upper half
(R130 to R135, R179). -/
def Obligations.LogicAndLui : Prop :=
  DecodesBy 0x00000024#32 0xfc0007ff#32 (fun w => .and (fRd w) (fRs w) (fRt w)) ∧
  DecodesBy 0x30000000#32 0xfc000000#32 (fun w => .andi (fRt w) (fRs w) (fImm w)) ∧
  DecodesBy 0x00000025#32 0xfc0007ff#32 (fun w => .or (fRd w) (fRs w) (fRt w)) ∧
  DecodesBy 0x34000000#32 0xfc000000#32 (fun w => .ori (fRt w) (fRs w) (fImm w)) ∧
  DecodesBy 0x00000027#32 0xfc0007ff#32 (fun w => .nor (fRd w) (fRs w) (fRt w)) ∧
  DecodesBy 0x00000026#32 0xfc0007ff#32 (fun w => .xor (fRd w) (fRs w) (fRt w)) ∧
  DecodesBy 0x3c000000#32 0xffe00000#32 (fun w => .lui (fRt w) (fImm w)) ∧
  ∀ (rd rs rt : Reg) (imm : Imm) (s : State),
    (∃ t v, exec (.and rd rs rt) s = .next t ∧ WroteReg rd v s t ∧
      ∀ k, k < 32 → v.getLsbD k = ((s.reg rs).getLsbD k && (s.reg rt).getLsbD k)) ∧
    (∃ t v, exec (.andi rt rs imm) s = .next t ∧ WroteReg rt v s t ∧
      ∀ k, k < 32 → v.getLsbD k = (decide (k < 16) && ((s.reg rs).getLsbD k && imm.getLsbD k))) ∧
    (∃ t v, exec (.or rd rs rt) s = .next t ∧ WroteReg rd v s t ∧
      ∀ k, k < 32 → v.getLsbD k = ((s.reg rs).getLsbD k || (s.reg rt).getLsbD k)) ∧
    (∃ t v, exec (.ori rt rs imm) s = .next t ∧ WroteReg rt v s t ∧
      ∀ k, k < 32 → v.getLsbD k = ((s.reg rs).getLsbD k || (decide (k < 16) && imm.getLsbD k))) ∧
    (∃ t v, exec (.nor rd rs rt) s = .next t ∧ WroteReg rd v s t ∧
      ∀ k, k < 32 → v.getLsbD k = (!(s.reg rs).getLsbD k && !(s.reg rt).getLsbD k)) ∧
    (∃ t v, exec (.xor rd rs rt) s = .next t ∧ WroteReg rd v s t ∧
      ∀ k, k < 32 → v.getLsbD k = ((s.reg rs).getLsbD k != (s.reg rt).getLsbD k)) ∧
    (∃ t, exec (.lui rt imm) s = .next t ∧ WroteReg rt (BitVec.ofNat 32 (imm.toNat * 65536)) s t)

/-- sll multiplies by a power of two modulo 2^32, srl divides the unsigned number, sra takes the floor of the divided
signed number; the source is rt (R136 to R138). -/
def Obligations.Shifts : Prop :=
  DecodesBy 0x00000000#32 0xffe0003f#32 (fun w => .sll (fRd w) (fRt w) (fShamt w)) ∧
  DecodesBy 0x00000002#32 0xffe0003f#32 (fun w => .srl (fRd w) (fRt w) (fShamt w)) ∧
  DecodesBy 0x00000003#32 0xffe0003f#32 (fun w => .sra (fRd w) (fRt w) (fShamt w)) ∧
  ∀ (rd rt : Reg) (shamt : BitVec 5) (s : State),
    (∃ t, exec (.sll rd rt shamt) s = .next t ∧
      WroteReg rd (BitVec.ofNat 32 ((s.reg rt).toNat * 2 ^ shamt.toNat)) s t) ∧
    (∃ t, exec (.srl rd rt shamt) s = .next t ∧
      WroteReg rd (BitVec.ofNat 32 ((s.reg rt).toNat / 2 ^ shamt.toNat)) s t) ∧
    (∃ t, exec (.sra rd rt shamt) s = .next t ∧
      WroteReg rd (BitVec.ofInt 32 ((s.reg rt).toInt / 2 ^ shamt.toNat)) s t)

/-! ### Branches and jumps -/

/-- beq, bne, bc1t and bc1f, outside a delay slot (log 8): to `pc + 4 + 4 * imm` if the condition holds, else in sequence,
under either setting of BRANCH_DELAY; nothing else changes (R150 to R153, R237, R238). -/
def Obligations.Branches : Prop :=
  DecodesBy 0x10000000#32 0xfc000000#32 (fun w => .beq (fRs w) (fRt w) (fImm w)) ∧
  DecodesBy 0x14000000#32 0xfc000000#32 (fun w => .bne (fRs w) (fRt w) (fImm w)) ∧
  DecodesBy 0x45010000#32 0xffff0000#32 (fun w => .bc1t (fImm w)) ∧
  DecodesBy 0x45000000#32 0xffff0000#32 (fun w => .bc1f (fImm w)) ∧
  ∀ (rs rt : Reg) (imm : Imm) (s : State), NotInSlot s →
    let target := s.pc + 4#32 + BitVec.ofInt 32 (4 * imm.toInt)
    (∃ t, exec (.beq rs rt imm) s = .next t ∧ Frame {} s t ∧ Transfers (decide (s.reg rs = s.reg rt)) target s t) ∧
    (∃ t, exec (.bne rs rt imm) s = .next t ∧ Frame {} s t ∧ Transfers (decide (s.reg rs ≠ s.reg rt)) target s t) ∧
    (∃ t, exec (.bc1t imm) s = .next t ∧ Frame {} s t ∧ Transfers s.fpcond target s t) ∧
    (∃ t, exec (.bc1f imm) s = .next t ∧ Frame {} s t ∧ Transfers (!s.fpcond) target s t)

/-- j, jal and jr, outside a delay slot (log 8): j and jal to the address in the 256 MB region of `pc + 4`, jr to the
register; jal writes `x[31]` with `pc + 4`, or `pc + 8` under `one_slot`; nothing else changes (R91, R151, R154, R156,
R157). -/
def Obligations.Jumps : Prop :=
  DecodesBy 0x08000000#32 0xfc000000#32 (fun w => .j (fAddress w)) ∧
  DecodesBy 0x0c000000#32 0xfc000000#32 (fun w => .jal (fAddress w)) ∧
  DecodesBy 0x00000008#32 0xfc1fffff#32 (fun w => .jr (fRs w)) ∧
  ∀ (address : BitVec 26) (rs : Reg) (s : State), NotInSlot s →
    let target := BitVec.ofNat 32 ((s.pc + 4#32).toNat / 2 ^ 28 * 2 ^ 28 + 4 * address.toNat)
    (∃ t, exec (.j address) s = .next t ∧ Frame {} s t ∧ Transfers true target s t) ∧
    (∃ t, exec (.jal address) s = .next t ∧ Frame { gprs := [31#5] } s t ∧ Transfers true target s t ∧
      (s.params.branchDelay = .none → t.reg 31#5 = s.pc + 4#32) ∧
      (s.params.branchDelay = .oneSlot → t.reg 31#5 = s.pc + 8#32)) ∧
    (∃ t, exec (.jr rs) s = .next t ∧ Frame {} s t ∧ Transfers true (s.reg rs) s t)

/-- Under `one_slot` every branch and jump, taken or not, puts the next instruction in its delay slot, and every other
instruction ends the slot; the instruction in the slot is no branch or jump, executes once, and then comes the target of a
transfer that is taken, or the instruction after the slot (R151; that the model holds the slot as a field is log 8). -/
def Obligations.DelaySlot : Prop :=
  (∀ (i : Instr) (s t : State), s.params.branchDelay = .oneSlot → exec i s = .next t → t.inDelaySlot = isTransfer i) ∧
  ∀ (i₀ i : Instr) (s t u : State), s.params.branchDelay = .oneSlot → isTransfer i₀ = true →
    exec i₀ s = .next t → exec i t = .next u →
    t.pc = s.npc ∧ isTransfer i = false ∧ u.inDelaySlot = false ∧
    u.pc = (if takes s i₀ then targetOf s i₀ else s.npc + 4#32) ∧ u.npc = u.pc + 4#32

/-! ### Loads and stores -/

/-- The effective address is the register plus the sign-extended immediate, modulo 2^32 (R68, R170). -/
def Obligations.EffectiveAddress : Prop :=
  ∀ (s : State) (rs : Reg) (imm : Imm), s.effAddr rs imm = BitVec.ofInt 32 ((s.reg rs).toInt + imm.toInt)

/-- lw writes the word whose four bytes lie at the effective address, in the machine's byte order; a misaligned or
unmapped address raises AddressError (R52, R170, R171). -/
def Obligations.LoadWord : Prop :=
  DecodesBy 0x8c000000#32 0xfc000000#32 (fun w => .lw (fRt w) (fImm w) (fRs w)) ∧
  ∀ (rt rs : Reg) (imm : Imm) (s : State),
    let a := s.effAddr rs imm
    (Access.Permitted ⟨.load, 4, a⟩ s → ∀ b0 b1 b2 b3 : Byte, s.byteAt a = some b0 → s.byteAt (a + 1#32) = some b1 →
      s.byteAt (a + 2#32) = some b2 → s.byteAt (a + 3#32) = some b3 →
      ∃ t, exec (.lw rt imm rs) s = .next t ∧
        (s.params.byteOrder = .little → WroteReg rt (b3 ++ b2 ++ b1 ++ b0) s t) ∧
        (s.params.byteOrder = .big → WroteReg rt (b0 ++ b1 ++ b2 ++ b3) s t)) ∧
    (¬ Access.Permitted ⟨.load, 4, a⟩ s →
      exec (.lw rt imm rs) s = .fault (.addressError .load a s.pc (afterException s)))

/-- lbu and lb write the byte at the effective address, zero-extended and sign-extended (R172, R173). -/
def Obligations.LoadBytes : Prop :=
  DecodesBy 0x90000000#32 0xfc000000#32 (fun w => .lbu (fRt w) (fImm w) (fRs w)) ∧
  DecodesBy 0x80000000#32 0xfc000000#32 (fun w => .lb (fRt w) (fImm w) (fRs w)) ∧
  ∀ (rt rs : Reg) (imm : Imm) (s : State),
    let a := s.effAddr rs imm
    (Access.Permitted ⟨.load, 1, a⟩ s → ∀ b : Byte, s.byteAt a = some b →
      (∃ t, exec (.lbu rt imm rs) s = .next t ∧ WroteReg rt (BitVec.ofNat 32 b.toNat) s t) ∧
      (∃ t, exec (.lb rt imm rs) s = .next t ∧ WroteReg rt (BitVec.ofInt 32 b.toInt) s t)) ∧
    (¬ Access.Permitted ⟨.load, 1, a⟩ s →
      exec (.lbu rt imm rs) s = .fault (.addressError .load a s.pc (afterException s)) ∧
      exec (.lb rt imm rs) s = .fault (.addressError .load a s.pc (afterException s)))

/-- lhu and lh write the halfword at the effective address, in the machine's byte order, zero-extended and sign-extended
(R52, R174, R175). -/
def Obligations.LoadHalfwords : Prop :=
  DecodesBy 0x94000000#32 0xfc000000#32 (fun w => .lhu (fRt w) (fImm w) (fRs w)) ∧
  DecodesBy 0x84000000#32 0xfc000000#32 (fun w => .lh (fRt w) (fImm w) (fRs w)) ∧
  ∀ (rt rs : Reg) (imm : Imm) (s : State),
    let a := s.effAddr rs imm
    (Access.Permitted ⟨.load, 2, a⟩ s → ∀ b0 b1 : Byte, s.byteAt a = some b0 → s.byteAt (a + 1#32) = some b1 →
      ∃ h : Half, (s.params.byteOrder = .little → h = b1 ++ b0) ∧ (s.params.byteOrder = .big → h = b0 ++ b1) ∧
        (∃ t, exec (.lhu rt imm rs) s = .next t ∧ WroteReg rt (BitVec.ofNat 32 h.toNat) s t) ∧
        (∃ t, exec (.lh rt imm rs) s = .next t ∧ WroteReg rt (BitVec.ofInt 32 h.toInt) s t)) ∧
    (¬ Access.Permitted ⟨.load, 2, a⟩ s →
      exec (.lhu rt imm rs) s = .fault (.addressError .load a s.pc (afterException s)) ∧
      exec (.lh rt imm rs) s = .fault (.addressError .load a s.pc (afterException s)))

/-- sw, sb and sh store the low 4, 1 and 2 bytes of the register at the effective address, in the machine's byte order,
and change no other byte; a misaligned, unmapped or text address raises AddressError (R52, R66, R176 to R178). -/
def Obligations.Stores : Prop :=
  DecodesBy 0xac000000#32 0xfc000000#32 (fun w => .sw (fRt w) (fImm w) (fRs w)) ∧
  DecodesBy 0xa0000000#32 0xfc000000#32 (fun w => .sb (fRt w) (fImm w) (fRs w)) ∧
  DecodesBy 0xa4000000#32 0xfc000000#32 (fun w => .sh (fRt w) (fImm w) (fRs w)) ∧
  ∀ (rt rs : Reg) (imm : Imm) (s : State),
    let a := s.effAddr rs imm
    (Access.Permitted ⟨.store, 4, a⟩ s → ∃ t, exec (.sw rt imm rs) s = .next t ∧
      Stored a 4 (fun k => (s.reg rt).extractLsb' (8 * laneIndex s.params.byteOrder 4 k) 8) s t) ∧
    (¬ Access.Permitted ⟨.store, 4, a⟩ s →
      exec (.sw rt imm rs) s = .fault (.addressError .store a s.pc (afterException s))) ∧
    (Access.Permitted ⟨.store, 1, a⟩ s → ∃ t, exec (.sb rt imm rs) s = .next t ∧
      Stored a 1 (fun _ => (s.reg rt).extractLsb' 0 8) s t) ∧
    (¬ Access.Permitted ⟨.store, 1, a⟩ s →
      exec (.sb rt imm rs) s = .fault (.addressError .store a s.pc (afterException s))) ∧
    (Access.Permitted ⟨.store, 2, a⟩ s → ∃ t, exec (.sh rt imm rs) s = .next t ∧
      Stored a 2 (fun k => (s.reg rt).extractLsb' (8 * laneIndex s.params.byteOrder 2 k) 8) s t) ∧
    (¬ Access.Permitted ⟨.store, 2, a⟩ s →
      exec (.sh rt imm rs) s = .fault (.addressError .store a s.pc (afterException s)))

/-- After sw, lw at the same address returns the word, under either byte order; under the little one lbu at the byte `k`
places above returns byte `k` of it, and lhu its halves (R182 (a), (b)). -/
def Obligations.StoreThenLoad : Prop :=
  ∀ (rt rs rd : Reg) (imm : Imm) (s : State), Access.Permitted ⟨.store, 4, s.effAddr rs imm⟩ s →
    ∃ t, exec (.sw rt imm rs) s = .next t ∧
      (∃ u, exec (.lw rd imm rs) t = .next u ∧ u.reg rd = afterWrite rd (s.reg rt)) ∧
      (s.params.byteOrder = .little → ∀ (k : Nat) (imm' : Imm), k < 4 →
        s.effAddr rs imm' = s.effAddr rs imm + BitVec.ofNat 32 k →
        (∃ u, exec (.lbu rd imm' rs) t = .next u ∧
          u.reg rd = afterWrite rd (((s.reg rt).extractLsb' (8 * k) 8).setWidth 32)) ∧
        (k % 2 = 0 → ∃ u, exec (.lhu rd imm' rs) t = .next u ∧
          u.reg rd = afterWrite rd (((s.reg rt).extractLsb' (8 * k) 16).setWidth 32)))

/-- ll loads the word as lw does and opens the pair (R180). -/
def Obligations.LoadLinked : Prop :=
  DecodesBy 0xc0000000#32 0xfc000000#32 (fun w => .ll (fRt w) (fImm w) (fRs w)) ∧
  ∀ (rt rs : Reg) (imm : Imm) (s : State),
    let a := s.effAddr rs imm
    (Access.Permitted ⟨.load, 4, a⟩ s → ∀ v : Word, s.wordAt a = some v →
      ∃ t, exec (.ll rt imm rs) s = .next t ∧ t.reg rt = afterWrite rt v ∧ t.llbit = true ∧ t.lladdr = a ∧
        Frame { gprs := [rt], link := true } s t ∧ Sequential s t) ∧
    (¬ Access.Permitted ⟨.load, 4, a⟩ s →
      exec (.ll rt imm rs) s = .fault (.addressError .load a s.pc (afterException s)))

/-- sc stores and writes 1, or stores nothing and writes 0; it fails where the pair is not whole, succeeds where it is
whole and may not fail spuriously, and may do either where it may; it always closes the pair; the data is `x[rt]` as it
was (R181). -/
def Obligations.StoreConditional : Prop :=
  DecodesBy 0xe0000000#32 0xfc000000#32 (fun w => .sc (fRt w) (fImm w) (fRs w)) ∧
  ∀ (rt rs : Reg) (imm : Imm) (s : State),
    let a := s.effAddr rs imm
    (Access.Permitted ⟨.store, 4, a⟩ s →
      ∃ (t : State) (ok : Bool), exec (.sc rt imm rs) s = .next t ∧
        (s.llbit = false ∨ s.lladdr ≠ a → ok = false) ∧
        (s.llbit = true → s.lladdr = a → s.params.scMayFailSpuriously = false → ok = true) ∧
        t.reg rt = afterWrite rt (if ok then 1#32 else 0#32) ∧ t.llbit = false ∧ t.lladdr = s.lladdr ∧
        Sequential s t ∧
        (ok = true → (∀ k, k < 4 → t.byteAt (a + BitVec.ofNat 32 k) =
            some ((s.reg rt).extractLsb' (8 * laneIndex s.params.byteOrder 4 k) 8)) ∧
          Frame { gprs := [rt], link := true, stored := some (a, 4) } s t) ∧
        (ok = false → Frame { gprs := [rt], link := true } s t)) ∧
    (¬ Access.Permitted ⟨.store, 4, a⟩ s →
      exec (.sc rt imm rs) s = .fault (.addressError .store a s.pc (afterException s)))

/-! ### Multiply and divide -/

/-- mult and multu leave in `hi` and `lo` the exact 64-bit product of the signed and of the unsigned numbers (R200 to
R202). -/
def Obligations.Multiply : Prop :=
  DecodesBy 0x00000018#32 0xfc00ffff#32 (fun w => .mult (fRs w) (fRt w)) ∧
  DecodesBy 0x00000019#32 0xfc00ffff#32 (fun w => .multu (fRs w) (fRt w)) ∧
  ∀ (rs rt : Reg) (s : State),
    (∃ (t : State) (hi lo : Word), exec (.mult rs rt) s = .next t ∧ WroteHiLo hi lo s t ∧
      (hi ++ lo : DWord).toInt = (s.reg rs).toInt * (s.reg rt).toInt) ∧
    (∃ (t : State) (hi lo : Word), exec (.multu rs rt) s = .next t ∧ WroteHiLo hi lo s t ∧
      (hi ++ lo : DWord).toNat = (s.reg rs).toNat * (s.reg rt).toNat)

/-- div leaves the quotient truncated toward zero in `lo` and the remainder, with the sign of the dividend, in `hi`; by
zero, and of -2^31 by -1, it completes with `hi` and `lo` at values that are left open (R203, R207; the free values are
log 12). -/
def Obligations.DivideSigned : Prop :=
  DecodesBy 0x0000001a#32 0xfc00ffff#32 (fun w => .div (fRs w) (fRt w)) ∧
  ∀ (rs rt : Reg) (s : State),
    ∃ (t : State) (hi lo : Word), exec (.div rs rt) s = .next t ∧ WroteHiLo hi lo s t ∧
      ((s.reg rt).toInt ≠ 0 → ¬ ((s.reg rs).toInt = -2 ^ 31 ∧ (s.reg rt).toInt = -1) →
        (s.reg rs).toInt = lo.toInt * (s.reg rt).toInt + hi.toInt ∧ hi.toInt.natAbs < (s.reg rt).toInt.natAbs ∧
        (hi.toInt = 0 ∨ (hi.toInt < 0 ↔ (s.reg rs).toInt < 0)))

/-- divu leaves the quotient of the unsigned numbers in `lo` and the remainder in `hi`; by zero it completes with `hi` and
`lo` at values that are left open (R204; log 12). -/
def Obligations.DivideUnsigned : Prop :=
  DecodesBy 0x0000001b#32 0xfc00ffff#32 (fun w => .divu (fRs w) (fRt w)) ∧
  ∀ (rs rt : Reg) (s : State),
    ∃ (t : State) (hi lo : Word), exec (.divu rs rt) s = .next t ∧ WroteHiLo hi lo s t ∧
      ((s.reg rt).toNat ≠ 0 → lo.toNat = (s.reg rs).toNat / (s.reg rt).toNat ∧
        hi.toNat = (s.reg rs).toNat % (s.reg rt).toNat)

/-- mfhi and mflo copy `hi` and `lo`, which keep their values (R205, R206). -/
def Obligations.MoveFromHiLo : Prop :=
  DecodesBy 0x00000010#32 0xffff07ff#32 (fun w => .mfhi (fRd w)) ∧
  DecodesBy 0x00000012#32 0xffff07ff#32 (fun w => .mflo (fRd w)) ∧
  ∀ (rd : Reg) (s : State),
    (∃ t, exec (.mfhi rd) s = .next t ∧ WroteReg rd s.hi s t) ∧
    (∃ t, exec (.mflo rd) s = .next t ∧ WroteReg rd s.lo s t)

/-! ### Floating point -/

/-- Single-precision arithmetic writes `f[fd]` with FP_NUMERICS of the two sources, fs first, whichever registers they
are (R223, R225, R227, R229). -/
def Obligations.SingleArithmetic : Prop :=
  DecodesBy 0x46000000#32 0xffe0003f#32 (fun w => .addS (fShamt w) (fRd w) (fRt w)) ∧
  DecodesBy 0x46000001#32 0xffe0003f#32 (fun w => .subS (fShamt w) (fRd w) (fRt w)) ∧
  DecodesBy 0x46000002#32 0xffe0003f#32 (fun w => .mulS (fShamt w) (fRd w) (fRt w)) ∧
  DecodesBy 0x46000003#32 0xffe0003f#32 (fun w => .divS (fShamt w) (fRd w) (fRt w)) ∧
  ∀ (fd fs ft : FReg) (s : State),
    let value := fun op => fpArithS s.params.fpNumerics op (s.fpr fs) (s.fpr ft)
    (∃ t, exec (.addS fd fs ft) s = .next t ∧ WroteFpr fd (value .add) s t) ∧
    (∃ t, exec (.subS fd fs ft) s = .next t ∧ WroteFpr fd (value .sub) s t) ∧
    (∃ t, exec (.mulS fd fs ft) s = .next t ∧ WroteFpr fd (value .mul) s t) ∧
    (∃ t, exec (.divS fd fs ft) s = .next t ∧ WroteFpr fd (value .div) s t)

/-- A double is the pair of registers in the order of FP_PAIR_ORDER; double-precision arithmetic writes the pair of fd with
FP_NUMERICS of the two source pairs as they were, and an odd register raises ReservedInstruction (R224, R226, R228, R230,
R243). -/
def Obligations.DoubleArithmetic : Prop :=
  DecodesBy 0x46200000#32 0xffe0003f#32 (fun w => .addD (fShamt w) (fRd w) (fRt w)) ∧
  DecodesBy 0x46200001#32 0xffe0003f#32 (fun w => .subD (fShamt w) (fRd w) (fRt w)) ∧
  DecodesBy 0x46200002#32 0xffe0003f#32 (fun w => .mulD (fShamt w) (fRd w) (fRt w)) ∧
  DecodesBy 0x46200003#32 0xffe0003f#32 (fun w => .divD (fShamt w) (fRd w) (fRt w)) ∧
  (∀ (s : State) (n : FReg),
    (s.params.fpPairOrder = .firstIsHigh → s.dbl n = s.fpr n ++ s.fpr (n + 1#5)) ∧
    (s.params.fpPairOrder = .firstIsLow → s.dbl n = s.fpr (n + 1#5) ++ s.fpr n)) ∧
  ∀ (fd fs ft : FReg) (s : State),
    let value := fun op => fpArithD s.params.fpNumerics op (s.dbl fs) (s.dbl ft)
    let reserved := fun i => .fault (.reservedInstruction (encode i) s.pc (afterException s))
    (fd.toNat % 2 = 0 → fs.toNat % 2 = 0 → ft.toNat % 2 = 0 →
      (∃ t, exec (.addD fd fs ft) s = .next t ∧ WroteDouble fd (value .add) s t) ∧
      (∃ t, exec (.subD fd fs ft) s = .next t ∧ WroteDouble fd (value .sub) s t) ∧
      (∃ t, exec (.mulD fd fs ft) s = .next t ∧ WroteDouble fd (value .mul) s t) ∧
      (∃ t, exec (.divD fd fs ft) s = .next t ∧ WroteDouble fd (value .div) s t)) ∧
    (fd.toNat % 2 = 1 ∨ fs.toNat % 2 = 1 ∨ ft.toNat % 2 = 1 →
      exec (.addD fd fs ft) s = reserved (.addD fd fs ft) ∧ exec (.subD fd fs ft) s = reserved (.subD fd fs ft) ∧
      exec (.mulD fd fs ft) s = reserved (.mulD fd fs ft) ∧ exec (.divD fd fs ft) s = reserved (.divD fd fs ft))

/-- The single-precision compares write `fpcond`, and nothing else, with FP_NUMERICS of the two sources, fs first (R231 to
R233, R244). -/
def Obligations.SingleCompares : Prop :=
  DecodesBy 0x46000032#32 0xffe007ff#32 (fun w => .cEqS (fRd w) (fRt w)) ∧
  DecodesBy 0x4600003c#32 0xffe007ff#32 (fun w => .cLtS (fRd w) (fRt w)) ∧
  DecodesBy 0x4600003e#32 0xffe007ff#32 (fun w => .cLeS (fRd w) (fRt w)) ∧
  ∀ (fs ft : FReg) (s : State),
    let value := fun c => fpCmpS s.params.fpNumerics c (s.fpr fs) (s.fpr ft)
    (∃ t, exec (.cEqS fs ft) s = .next t ∧ WroteFlag (value .eq) s t) ∧
    (∃ t, exec (.cLtS fs ft) s = .next t ∧ WroteFlag (value .lt) s t) ∧
    (∃ t, exec (.cLeS fs ft) s = .next t ∧ WroteFlag (value .le) s t)

/-- The double-precision compares likewise on register pairs, and an odd register raises ReservedInstruction (R234 to R236,
R243). -/
def Obligations.DoubleCompares : Prop :=
  DecodesBy 0x46200032#32 0xffe007ff#32 (fun w => .cEqD (fRd w) (fRt w)) ∧
  DecodesBy 0x4620003c#32 0xffe007ff#32 (fun w => .cLtD (fRd w) (fRt w)) ∧
  DecodesBy 0x4620003e#32 0xffe007ff#32 (fun w => .cLeD (fRd w) (fRt w)) ∧
  ∀ (fs ft : FReg) (s : State),
    let value := fun c => fpCmpD s.params.fpNumerics c (s.dbl fs) (s.dbl ft)
    let reserved := fun i => .fault (.reservedInstruction (encode i) s.pc (afterException s))
    (fs.toNat % 2 = 0 → ft.toNat % 2 = 0 →
      (∃ t, exec (.cEqD fs ft) s = .next t ∧ WroteFlag (value .eq) s t) ∧
      (∃ t, exec (.cLtD fs ft) s = .next t ∧ WroteFlag (value .lt) s t) ∧
      (∃ t, exec (.cLeD fs ft) s = .next t ∧ WroteFlag (value .le) s t)) ∧
    (fs.toNat % 2 = 1 ∨ ft.toNat % 2 = 1 →
      exec (.cEqD fs ft) s = reserved (.cEqD fs ft) ∧ exec (.cLtD fs ft) s = reserved (.cLtD fs ft) ∧
      exec (.cLeD fs ft) s = reserved (.cLeD fs ft))

/-- Under the IEEE instance (log 14) every comparison with a NaN is false, in single and in double precision (R222). -/
def Obligations.NanComparesFalse : Prop :=
  (∀ (c : FpCmp) (a b : Word),
    (a.extractLsb' 23 8 = 0xff#8 ∧ a.extractLsb' 0 23 ≠ 0#23) ∨ (b.extractLsb' 23 8 = 0xff#8 ∧ b.extractLsb' 0 23 ≠ 0#23) →
    fpCmpS .ieee754 c a b = false) ∧
  (∀ (c : FpCmp) (a b : DWord),
    (a.extractLsb' 52 11 = 0x7ff#11 ∧ a.extractLsb' 0 52 ≠ 0#52) ∨
      (b.extractLsb' 52 11 = 0x7ff#11 ∧ b.extractLsb' 0 52 ≠ 0#52) →
    fpCmpD .ieee754 c a b = false)

/-- lwc1 and swc1 copy one word between memory and `f[ft]` unchanged; a bad address raises AddressError (R239, R241). -/
def Obligations.LoadStoreSingle : Prop :=
  DecodesBy 0xc4000000#32 0xfc000000#32 (fun w => .lwc1 (fRt w) (fImm w) (fRs w)) ∧
  DecodesBy 0xe4000000#32 0xfc000000#32 (fun w => .swc1 (fRt w) (fImm w) (fRs w)) ∧
  ∀ (ft : FReg) (rs : Reg) (imm : Imm) (s : State),
    let a := s.effAddr rs imm
    (Access.Permitted ⟨.load, 4, a⟩ s → ∀ v : Word, s.wordAt a = some v →
      ∃ t, exec (.lwc1 ft imm rs) s = .next t ∧ WroteFpr ft v s t) ∧
    (¬ Access.Permitted ⟨.load, 4, a⟩ s →
      exec (.lwc1 ft imm rs) s = .fault (.addressError .load a s.pc (afterException s))) ∧
    (Access.Permitted ⟨.store, 4, a⟩ s → ∃ t, exec (.swc1 ft imm rs) s = .next t ∧
      Stored a 4 (fun k => (s.fpr ft).extractLsb' (8 * laneIndex s.params.byteOrder 4 k) 8) s t) ∧
    (¬ Access.Permitted ⟨.store, 4, a⟩ s →
      exec (.swc1 ft imm rs) s = .fault (.addressError .store a s.pc (afterException s)))

/-- ldc1 and sdc1 copy two words, the named register with the lower address whatever FP_PAIR_ORDER is; an odd register
raises ReservedInstruction, before a bad address raises AddressError with the first word's address (R240, R242, R305,
R307). -/
def Obligations.LoadStoreDouble : Prop :=
  DecodesBy 0xd4000000#32 0xfc000000#32 (fun w => .ldc1 (fRt w) (fImm w) (fRs w)) ∧
  DecodesBy 0xf4000000#32 0xfc000000#32 (fun w => .sdc1 (fRt w) (fImm w) (fRs w)) ∧
  ∀ (ft : FReg) (rs : Reg) (imm : Imm) (s : State),
    let a := s.effAddr rs imm
    (ft.toNat % 2 = 0 → Access.Permitted ⟨.load, 8, a⟩ s → ∀ w0 w1 : Word, s.wordAt a = some w0 →
      s.wordAt (a + 4#32) = some w1 → ∃ t, exec (.ldc1 ft imm rs) s = .next t ∧ WrotePair ft w0 w1 s t) ∧
    (ft.toNat % 2 = 0 → ¬ Access.Permitted ⟨.load, 8, a⟩ s →
      exec (.ldc1 ft imm rs) s = .fault (.addressError .load a s.pc (afterException s))) ∧
    (ft.toNat % 2 = 0 → Access.Permitted ⟨.store, 8, a⟩ s → ∃ t, exec (.sdc1 ft imm rs) s = .next t ∧
      t.wordAt a = some (s.fpr ft) ∧ t.wordAt (a + 4#32) = some (s.fpr (ft + 1#5)) ∧
      Frame { stored := some (a, 8) } s t ∧ Sequential s t) ∧
    (ft.toNat % 2 = 0 → ¬ Access.Permitted ⟨.store, 8, a⟩ s →
      exec (.sdc1 ft imm rs) s = .fault (.addressError .store a s.pc (afterException s))) ∧
    (ft.toNat % 2 = 1 →
      exec (.ldc1 ft imm rs) s = .fault (.reservedInstruction (encode (.ldc1 ft imm rs)) s.pc (afterException s)) ∧
      exec (.sdc1 ft imm rs) s = .fault (.reservedInstruction (encode (.sdc1 ft imm rs)) s.pc (afterException s)))

/-! ### System, and what the assembler makes of pseudo-instructions -/

/-- mfc0 writes `x[rt]` with what the control register rd reads as, in every state: there is one privilege level (R260,
R311; that the state holds the oracle's values is log 3). -/
def Obligations.MoveFromControl : Prop :=
  DecodesBy 0x40000000#32 0xffe007ff#32 (fun w => .mfc0 (fRt w) (fRd w)) ∧
  ∀ (rt : Reg) (rd : BitVec 5) (s : State), ∃ t, exec (.mfc0 rt rd) s = .next t ∧ WroteReg rt (s.cr rd) s t

/-- The expansions of blt, bgt, ble and bge, placed at `pc` under `BRANCH_DELAY = none`, continue at the label exactly when
the signed comparison holds, else after the expansion, and change `$at` alone (R271 to R274, R279). -/
def Obligations.PseudoBranches : Prop :=
  ∀ (rs rt : Reg) (label : Word) (s : State) (p : Assembler.Pseudo) (taken : Bool) (i j : Instr),
    s.params.branchDelay = .none →
    (p, taken) ∈ [(.blt rs rt label, decide ((s.reg rs).toInt < (s.reg rt).toInt)),
      (.bgt rs rt label, decide ((s.reg rs).toInt > (s.reg rt).toInt)),
      (.ble rs rt label, decide ((s.reg rs).toInt ≤ (s.reg rt).toInt)),
      (.bge rs rt label, decide ((s.reg rs).toInt ≥ (s.reg rt).toInt))] →
    Assembler.expand s.pc p = some [i, j] →
    ∃ t u, exec i s = .next t ∧ exec j t = .next u ∧ u.pc = (if taken then label else s.pc + 8#32) ∧
      Frame { gprs := [1#5] } s u

/-- The expansions of li, move and the three-operand div and divu have the effects the spec gives the pseudo-instructions
(R275 to R278). -/
def Obligations.PseudoMoves : Prop :=
  ∀ (rd rs rt : Reg) (v pc : Word) (s : State),
    (∃ i j t u, Assembler.expand pc (.li rd v) = some [i, j] ∧ exec i s = .next t ∧ exec j t = .next u ∧
      u.reg rd = afterWrite rd v ∧ Frame { gprs := [1#5, rd] } s u) ∧
    (∃ i t, Assembler.expand pc (.move rd rs) = some [i] ∧ exec i s = .next t ∧ WroteReg rd (s.reg rs) s t) ∧
    (∃ i j t u, Assembler.expand pc (.div rd rs rt) = some [i, j] ∧ exec i s = .next t ∧ exec j t = .next u ∧
      exec (.div rs rt) s = .next t ∧ u.reg rd = afterWrite rd u.lo ∧ u.lo = t.lo ∧ u.hi = t.hi ∧
      Frame { gprs := [rd], hiLo := true } s u) ∧
    (∃ i j t u, Assembler.expand pc (.divu rd rs rt) = some [i, j] ∧ exec i s = .next t ∧ exec j t = .next u ∧
      exec (.divu rs rt) s = .next t ∧ u.reg rd = afterWrite rd u.lo ∧ u.lo = t.lo ∧ u.hi = t.hi ∧
      Frame { gprs := [rd], hiLo := true } s u)

/-! ### Registers that nothing has written (R332) -/

/-- Under `UNINIT_READ = fault` an instruction that is no reserved form and would read registers without a value ends the
run with UninitialisedRead of the first of them, the state as it was (R332; the order of the reads among themselves is the
model's choice, log 5). A load or store that is not permitted, of a base register that has a value, raises AddressError
under either setting, whether or not the data of the store has a value: the address is checked first (R55, R61, R66, R170,
R242, R305). -/
def Obligations.StepReadsRegisters : Prop :=
  (∀ (s : State) (w : Word) (i : Instr) (p : Piece) (before after : List Piece), s.pc ≠ s.map.endPc →
    s.accessOk .fetch 4 s.pc = true → s.wordAt s.pc = some w → decodeWord w = .ok i → s.params.uninitRead = .fault →
    ¬ ReservedForm s i → registerSources s i = before ++ p :: after → (∀ q ∈ before, s.hasValue q = true) →
    s.hasValue p = false → step s = .fault (.uninitialisedRead p s.pc s)) ∧
  ∀ (s : State) (w : Word) (i : Instr) (rs : Reg) (a : Access), s.pc ≠ s.map.endPc → s.accessOk .fetch 4 s.pc = true →
    s.wordAt s.pc = some w → decodeWord w = .ok i → i.wellFormed = true → baseOf i = some rs →
    s.hasValue (.gpr rs) = true → accessOf s i = some a → ¬ a.Permitted s →
    step s = .fault (.addressError a.kind a.addr s.pc (afterException s))

/-- The registers listed as an instruction's sources are all that it reads: in two states that agree on them and on
everything that is no register, it completes alike, and the states agree afterwards wherever they did and on the registers
it writes (R23, R29, R30, R32; the list of sources is the model's, log 5). -/
def Obligations.SourcesAreAllThatIsRead : Prop :=
  ∀ (i : Instr) (s s' t : State) (on : Piece → Prop), (∀ p ∈ registerSources s i, on p) → AgreeOn on s s' →
    exec i s = .next t → ∃ t', exec i s' = .next t' ∧ AgreeOn (fun p => on p ∨ p ∈ registerDests i) t t'

/-- A register has a value after an instruction exactly when it had one or the instruction writes it (R332; the record of
what has been written is the model's, log 5). -/
def Obligations.WritesGiveValues : Prop :=
  ∀ (i : Instr) (s t : State) (p : Piece), exec i s = .next t → (∀ a, p ≠ .memory a) →
    (t.hasValue p = true ↔ s.hasValue p = true ∨ p ∈ registerDests i)

end
end

