-- ==== Sys2Proof/Laws/Decode.lean ====
section
/-! SUPPORT. The laws of instruction words: the fields of an encoded word, what a mask keeps of it, and that the row that
accepts a word decides how it decodes. -/

set_option linter.unusedSimpArgs false

namespace Sys2Proof

/-! ### An encoded word is its fields, one after the other (R81 to R85) -/

theorem encR_eq_append (op : BitVec 6) (rs rt rd shamt : BitVec 5) (funct : BitVec 6) :
    encR op rs rt rd shamt funct = op ++ rs ++ rt ++ rd ++ shamt ++ funct := by
  apply BitVec.eq_of_getLsbD_eq
  intro i hi
  simp only [encR, BitVec.getLsbD_or, BitVec.getLsbD_shiftLeft, BitVec.getLsbD_setWidth, BitVec.getLsbD_append]
  have hc : (0 ≤ i ∧ i < 6) ∨ (6 ≤ i ∧ i < 11) ∨ (11 ≤ i ∧ i < 16) ∨ (16 ≤ i ∧ i < 21) ∨ (21 ≤ i ∧ i < 26) ∨ (26 ≤ i ∧ i < 32) := by omega
  rcases hc with h | h | h | h | h | h <;>
    simp (disch := omega) only [BitVec.getLsbD_of_ge, decide_eq_true, decide_eq_false, Bool.not_true, Bool.not_false,
      Bool.true_and, Bool.false_and, Bool.and_false, Bool.or_false, Bool.false_or, Bool.and_true, Nat.sub_sub,
      decide_true, if_pos, if_neg, hi]

theorem encI_eq_append (op : BitVec 6) (rs rt : BitVec 5) (imm : BitVec 16) :
    encI op rs rt imm = op ++ rs ++ rt ++ imm := by
  apply BitVec.eq_of_getLsbD_eq
  intro i hi
  simp only [encI, BitVec.getLsbD_or, BitVec.getLsbD_shiftLeft, BitVec.getLsbD_setWidth, BitVec.getLsbD_append]
  have hc : (0 ≤ i ∧ i < 16) ∨ (16 ≤ i ∧ i < 21) ∨ (21 ≤ i ∧ i < 26) ∨ (26 ≤ i ∧ i < 32) := by omega
  rcases hc with h | h | h | h <;>
    simp (disch := omega) only [BitVec.getLsbD_of_ge, decide_eq_true, decide_eq_false, Bool.not_true, Bool.not_false,
      Bool.true_and, Bool.false_and, Bool.and_false, Bool.or_false, Bool.false_or, Bool.and_true, Nat.sub_sub,
      decide_true, if_pos, if_neg, hi]

theorem encJ_eq_append (op : BitVec 6) (address : BitVec 26) :
    encJ op address = op ++ address := by
  apply BitVec.eq_of_getLsbD_eq
  intro i hi
  simp only [encJ, BitVec.getLsbD_or, BitVec.getLsbD_shiftLeft, BitVec.getLsbD_setWidth, BitVec.getLsbD_append]
  have hc : (0 ≤ i ∧ i < 26) ∨ (26 ≤ i ∧ i < 32) := by omega
  rcases hc with h | h <;>
    simp (disch := omega) only [BitVec.getLsbD_of_ge, decide_eq_true, decide_eq_false, Bool.not_true, Bool.not_false,
      Bool.true_and, Bool.false_and, Bool.and_false, Bool.or_false, Bool.false_or, Bool.and_true, Nat.sub_sub,
      decide_true, if_pos, if_neg, hi]

/-! ### The fields of an encoded word -/

@[simp] theorem fOpcode_encR (op : BitVec 6) (rs rt rd shamt : BitVec 5) (funct : BitVec 6) : fOpcode (encR op rs rt rd shamt funct) = op := by
  rw [encR_eq_append]
  apply BitVec.eq_of_getLsbD_eq
  intro i hi
  simp only [fOpcode, BitVec.getLsbD_extractLsb', BitVec.getLsbD_append]
  simp (disch := omega) only [BitVec.getLsbD_of_ge, decide_eq_true, decide_eq_false, Bool.not_true, Bool.not_false,
    Bool.true_and, Bool.false_and, Bool.and_false, Bool.or_false, Bool.false_or, Bool.and_true, Nat.sub_sub,
    decide_true, if_pos, if_neg, hi]
  congr 1; omega

@[simp] theorem fRs_encR (op : BitVec 6) (rs rt rd shamt : BitVec 5) (funct : BitVec 6) : fRs (encR op rs rt rd shamt funct) = rs := by
  rw [encR_eq_append]
  apply BitVec.eq_of_getLsbD_eq
  intro i hi
  simp only [fRs, BitVec.getLsbD_extractLsb', BitVec.getLsbD_append]
  simp (disch := omega) only [BitVec.getLsbD_of_ge, decide_eq_true, decide_eq_false, Bool.not_true, Bool.not_false,
    Bool.true_and, Bool.false_and, Bool.and_false, Bool.or_false, Bool.false_or, Bool.and_true, Nat.sub_sub,
    decide_true, if_pos, if_neg, hi]
  congr 1; omega

@[simp] theorem fRt_encR (op : BitVec 6) (rs rt rd shamt : BitVec 5) (funct : BitVec 6) : fRt (encR op rs rt rd shamt funct) = rt := by
  rw [encR_eq_append]
  apply BitVec.eq_of_getLsbD_eq
  intro i hi
  simp only [fRt, BitVec.getLsbD_extractLsb', BitVec.getLsbD_append]
  simp (disch := omega) only [BitVec.getLsbD_of_ge, decide_eq_true, decide_eq_false, Bool.not_true, Bool.not_false,
    Bool.true_and, Bool.false_and, Bool.and_false, Bool.or_false, Bool.false_or, Bool.and_true, Nat.sub_sub,
    decide_true, if_pos, if_neg, hi]
  congr 1; omega

@[simp] theorem fRd_encR (op : BitVec 6) (rs rt rd shamt : BitVec 5) (funct : BitVec 6) : fRd (encR op rs rt rd shamt funct) = rd := by
  rw [encR_eq_append]
  apply BitVec.eq_of_getLsbD_eq
  intro i hi
  simp only [fRd, BitVec.getLsbD_extractLsb', BitVec.getLsbD_append]
  simp (disch := omega) only [BitVec.getLsbD_of_ge, decide_eq_true, decide_eq_false, Bool.not_true, Bool.not_false,
    Bool.true_and, Bool.false_and, Bool.and_false, Bool.or_false, Bool.false_or, Bool.and_true, Nat.sub_sub,
    decide_true, if_pos, if_neg, hi]
  congr 1; omega

@[simp] theorem fShamt_encR (op : BitVec 6) (rs rt rd shamt : BitVec 5) (funct : BitVec 6) : fShamt (encR op rs rt rd shamt funct) = shamt := by
  rw [encR_eq_append]
  apply BitVec.eq_of_getLsbD_eq
  intro i hi
  simp only [fShamt, BitVec.getLsbD_extractLsb', BitVec.getLsbD_append]
  simp (disch := omega) only [BitVec.getLsbD_of_ge, decide_eq_true, decide_eq_false, Bool.not_true, Bool.not_false,
    Bool.true_and, Bool.false_and, Bool.and_false, Bool.or_false, Bool.false_or, Bool.and_true, Nat.sub_sub,
    decide_true, if_pos, if_neg, hi]
  congr 1; omega

@[simp] theorem fFunct_encR (op : BitVec 6) (rs rt rd shamt : BitVec 5) (funct : BitVec 6) : fFunct (encR op rs rt rd shamt funct) = funct := by
  rw [encR_eq_append]
  apply BitVec.eq_of_getLsbD_eq
  intro i hi
  simp only [fFunct, BitVec.getLsbD_extractLsb', BitVec.getLsbD_append]
  simp (disch := omega) only [BitVec.getLsbD_of_ge, decide_eq_true, decide_eq_false, Bool.not_true, Bool.not_false,
    Bool.true_and, Bool.false_and, Bool.and_false, Bool.or_false, Bool.false_or, Bool.and_true, Nat.sub_sub,
    decide_true, if_pos, if_neg, hi]
  congr 1; omega

@[simp] theorem fOpcode_encI (op : BitVec 6) (rs rt : BitVec 5) (imm : BitVec 16) : fOpcode (encI op rs rt imm) = op := by
  rw [encI_eq_append]
  apply BitVec.eq_of_getLsbD_eq
  intro i hi
  simp only [fOpcode, BitVec.getLsbD_extractLsb', BitVec.getLsbD_append]
  simp (disch := omega) only [BitVec.getLsbD_of_ge, decide_eq_true, decide_eq_false, Bool.not_true, Bool.not_false,
    Bool.true_and, Bool.false_and, Bool.and_false, Bool.or_false, Bool.false_or, Bool.and_true, Nat.sub_sub,
    decide_true, if_pos, if_neg, hi]
  congr 1; omega

@[simp] theorem fRs_encI (op : BitVec 6) (rs rt : BitVec 5) (imm : BitVec 16) : fRs (encI op rs rt imm) = rs := by
  rw [encI_eq_append]
  apply BitVec.eq_of_getLsbD_eq
  intro i hi
  simp only [fRs, BitVec.getLsbD_extractLsb', BitVec.getLsbD_append]
  simp (disch := omega) only [BitVec.getLsbD_of_ge, decide_eq_true, decide_eq_false, Bool.not_true, Bool.not_false,
    Bool.true_and, Bool.false_and, Bool.and_false, Bool.or_false, Bool.false_or, Bool.and_true, Nat.sub_sub,
    decide_true, if_pos, if_neg, hi]
  congr 1; omega

@[simp] theorem fRt_encI (op : BitVec 6) (rs rt : BitVec 5) (imm : BitVec 16) : fRt (encI op rs rt imm) = rt := by
  rw [encI_eq_append]
  apply BitVec.eq_of_getLsbD_eq
  intro i hi
  simp only [fRt, BitVec.getLsbD_extractLsb', BitVec.getLsbD_append]
  simp (disch := omega) only [BitVec.getLsbD_of_ge, decide_eq_true, decide_eq_false, Bool.not_true, Bool.not_false,
    Bool.true_and, Bool.false_and, Bool.and_false, Bool.or_false, Bool.false_or, Bool.and_true, Nat.sub_sub,
    decide_true, if_pos, if_neg, hi]
  congr 1; omega

@[simp] theorem fImm_encI (op : BitVec 6) (rs rt : BitVec 5) (imm : BitVec 16) : fImm (encI op rs rt imm) = imm := by
  rw [encI_eq_append]
  apply BitVec.eq_of_getLsbD_eq
  intro i hi
  simp only [fImm, BitVec.getLsbD_extractLsb', BitVec.getLsbD_append]
  simp (disch := omega) only [BitVec.getLsbD_of_ge, decide_eq_true, decide_eq_false, Bool.not_true, Bool.not_false,
    Bool.true_and, Bool.false_and, Bool.and_false, Bool.or_false, Bool.false_or, Bool.and_true, Nat.sub_sub,
    decide_true, if_pos, if_neg, hi]
  congr 1; omega

@[simp] theorem fOpcode_encJ (op : BitVec 6) (address : BitVec 26) : fOpcode (encJ op address) = op := by
  rw [encJ_eq_append]
  apply BitVec.eq_of_getLsbD_eq
  intro i hi
  simp only [fOpcode, BitVec.getLsbD_extractLsb', BitVec.getLsbD_append]
  simp (disch := omega) only [BitVec.getLsbD_of_ge, decide_eq_true, decide_eq_false, Bool.not_true, Bool.not_false,
    Bool.true_and, Bool.false_and, Bool.and_false, Bool.or_false, Bool.false_or, Bool.and_true, Nat.sub_sub,
    decide_true, if_pos, if_neg, hi]
  congr 1; omega

@[simp] theorem fAddress_encJ (op : BitVec 6) (address : BitVec 26) : fAddress (encJ op address) = address := by
  rw [encJ_eq_append]
  apply BitVec.eq_of_getLsbD_eq
  intro i hi
  simp only [fAddress, BitVec.getLsbD_extractLsb', BitVec.getLsbD_append]
  simp (disch := omega) only [BitVec.getLsbD_of_ge, decide_eq_true, decide_eq_false, Bool.not_true, Bool.not_false,
    Bool.true_and, Bool.false_and, Bool.and_false, Bool.or_false, Bool.false_or, Bool.and_true, Nat.sub_sub,
    decide_true, if_pos, if_neg, hi]
  congr 1; omega

/-! ### Masks -/

theorem encR_and (op op' : BitVec 6) (rs rs' rt rt' rd rd' shamt shamt' : BitVec 5) (funct funct' : BitVec 6) :
    encR op rs rt rd shamt funct &&& encR op' rs' rt' rd' shamt' funct' =
      encR (op &&& op') (rs &&& rs') (rt &&& rt') (rd &&& rd') (shamt &&& shamt') (funct &&& funct') := by
  rw [encR_eq_append, encR_eq_append, encR_eq_append]
  apply BitVec.eq_of_getLsbD_eq
  intro i hi
  have hc : (0 ≤ i ∧ i < 6) ∨ (6 ≤ i ∧ i < 11) ∨ (11 ≤ i ∧ i < 16) ∨ (16 ≤ i ∧ i < 21) ∨ (21 ≤ i ∧ i < 26) ∨ (26 ≤ i ∧ i < 32) := by omega
  simp only [BitVec.getLsbD_and, BitVec.getLsbD_append]
  rcases hc with h | h | h | h | h | h <;>
    simp (disch := omega) only [BitVec.getLsbD_of_ge, decide_eq_true, decide_eq_false, Bool.not_true, Bool.not_false,
      Bool.true_and, Bool.false_and, Bool.and_false, Bool.or_false, Bool.false_or, Bool.and_true, Nat.sub_sub,
      decide_true, if_pos, if_neg, hi]

theorem encI_and (op op' : BitVec 6) (rs rs' rt rt' : BitVec 5) (imm imm' : BitVec 16) :
    encI op rs rt imm &&& encI op' rs' rt' imm' =
      encI (op &&& op') (rs &&& rs') (rt &&& rt') (imm &&& imm') := by
  rw [encI_eq_append, encI_eq_append, encI_eq_append]
  apply BitVec.eq_of_getLsbD_eq
  intro i hi
  have hc : (0 ≤ i ∧ i < 16) ∨ (16 ≤ i ∧ i < 21) ∨ (21 ≤ i ∧ i < 26) ∨ (26 ≤ i ∧ i < 32) := by omega
  simp only [BitVec.getLsbD_and, BitVec.getLsbD_append]
  rcases hc with h | h | h | h <;>
    simp (disch := omega) only [BitVec.getLsbD_of_ge, decide_eq_true, decide_eq_false, Bool.not_true, Bool.not_false,
      Bool.true_and, Bool.false_and, Bool.and_false, Bool.or_false, Bool.false_or, Bool.and_true, Nat.sub_sub,
      decide_true, if_pos, if_neg, hi]

theorem encJ_and (op op' : BitVec 6) (a a' : BitVec 26) : encJ op a &&& encJ op' a' = encJ (op &&& op') (a &&& a') := by
  rw [encJ_eq_append, encJ_eq_append, encJ_eq_append]
  apply BitVec.eq_of_getLsbD_eq
  intro i hi
  have hc : (0 ≤ i ∧ i < 26) ∨ (26 ≤ i ∧ i < 32) := by omega
  simp only [BitVec.getLsbD_and, BitVec.getLsbD_append]
  rcases hc with h | h <;>
    simp (disch := omega) only [BitVec.getLsbD_of_ge, decide_eq_true, decide_eq_false, Bool.not_true, Bool.not_false,
      Bool.true_and, Bool.false_and, Bool.and_false, Bool.or_false, Bool.false_or, Bool.and_true, Nat.sub_sub,
      decide_true, if_pos, if_neg, hi]

theorem fOpcode_and (w m : Word) : fOpcode (w &&& m) = fOpcode w &&& fOpcode m := BitVec.extractLsb'_and
theorem fRs_and (w m : Word) : fRs (w &&& m) = fRs w &&& fRs m := BitVec.extractLsb'_and
theorem fRt_and (w m : Word) : fRt (w &&& m) = fRt w &&& fRt m := BitVec.extractLsb'_and
theorem fRd_and (w m : Word) : fRd (w &&& m) = fRd w &&& fRd m := BitVec.extractLsb'_and
theorem fShamt_and (w m : Word) : fShamt (w &&& m) = fShamt w &&& fShamt m := BitVec.extractLsb'_and
theorem fFunct_and (w m : Word) : fFunct (w &&& m) = fFunct w &&& fFunct m := BitVec.extractLsb'_and
theorem fImm_and (w m : Word) : fImm (w &&& m) = fImm w &&& fImm m := BitVec.extractLsb'_and
theorem fAddress_and (w m : Word) : fAddress (w &&& m) = fAddress w &&& fAddress m := BitVec.extractLsb'_and

/-- A word is the encoding of its fields. -/
theorem encR_fields (w : Word) : encR (fOpcode w) (fRs w) (fRt w) (fRd w) (fShamt w) (fFunct w) = w := by
  rw [encR_eq_append]
  apply BitVec.eq_of_getLsbD_eq
  intro i hi
  have hc : (0 ≤ i ∧ i < 6) ∨ (6 ≤ i ∧ i < 11) ∨ (11 ≤ i ∧ i < 16) ∨ (16 ≤ i ∧ i < 21) ∨ (21 ≤ i ∧ i < 26) ∨ (26 ≤ i ∧ i < 32) := by omega
  simp only [fOpcode, fRs, fRt, fRd, fShamt, fFunct, BitVec.getLsbD_append, BitVec.getLsbD_extractLsb']
  rcases hc with h | h | h | h | h | h <;>
    simp (disch := omega) only [BitVec.getLsbD_of_ge, decide_eq_true, decide_eq_false, Bool.not_true, Bool.not_false,
      Bool.true_and, Bool.false_and, Bool.and_false, Bool.or_false, Bool.false_or, Bool.and_true, Nat.sub_sub,
      decide_true, if_pos, if_neg, hi] <;>
    congr 1 <;> omega

/-- A word is the encoding of its fields. -/
theorem encI_fields (w : Word) : encI (fOpcode w) (fRs w) (fRt w) (fImm w) = w := by
  rw [encI_eq_append]
  apply BitVec.eq_of_getLsbD_eq
  intro i hi
  have hc : (0 ≤ i ∧ i < 16) ∨ (16 ≤ i ∧ i < 21) ∨ (21 ≤ i ∧ i < 26) ∨ (26 ≤ i ∧ i < 32) := by omega
  simp only [fOpcode, fRs, fRt, fImm, BitVec.getLsbD_append, BitVec.getLsbD_extractLsb']
  rcases hc with h | h | h | h <;>
    simp (disch := omega) only [BitVec.getLsbD_of_ge, decide_eq_true, decide_eq_false, Bool.not_true, Bool.not_false,
      Bool.true_and, Bool.false_and, Bool.and_false, Bool.or_false, Bool.false_or, Bool.and_true, Nat.sub_sub,
      decide_true, if_pos, if_neg, hi] <;>
    congr 1 <;> omega

/-- A word is the encoding of its fields. -/
theorem encJ_fields (w : Word) : encJ (fOpcode w) (fAddress w) = w := by
  rw [encJ_eq_append]
  apply BitVec.eq_of_getLsbD_eq
  intro i hi
  have hc : (0 ≤ i ∧ i < 26) ∨ (26 ≤ i ∧ i < 32) := by omega
  simp only [fOpcode, fAddress, BitVec.getLsbD_append, BitVec.getLsbD_extractLsb']
  rcases hc with h | h <;>
    simp (disch := omega) only [BitVec.getLsbD_of_ge, decide_eq_true, decide_eq_false, Bool.not_true, Bool.not_false,
      Bool.true_and, Bool.false_and, Bool.and_false, Bool.or_false, Bool.false_or, Bool.and_true, Nat.sub_sub,
      decide_true, if_pos, if_neg, hi] <;>
    congr 1 <;> omega

/-! ### The rows (R99) -/

/-- No word is of two rows: any two rows differ in a bit that both masks fix. -/
theorem rows_apart : opcodeTable.Pairwise (fun r q => (r.pattern ^^^ q.pattern) &&& r.mask &&& q.mask ≠ 0#32) := by
  decide +kernel

theorem Row.apart {r q : Row} {w : Word} (h : (r.pattern ^^^ q.pattern) &&& r.mask &&& q.mask ≠ 0#32)
    (hr : r.accepts w = true) : q.accepts w = false := by
  by_contra hq
  simp only [Row.accepts, beq_iff_eq, Bool.not_eq_false] at hr hq
  apply h
  rw [← hr, ← hq]
  apply BitVec.eq_of_getLsbD_eq
  intro i _
  simp only [BitVec.getLsbD_and, BitVec.getLsbD_xor, BitVec.getLsbD_zero]
  cases w.getLsbD i <;> cases r.mask.getLsbD i <;> cases q.mask.getLsbD i <;> rfl

theorem find_of_apart {w : Word} {r : Row} : ∀ {rows : List Row},
    rows.Pairwise (fun r q => (r.pattern ^^^ q.pattern) &&& r.mask &&& q.mask ≠ 0#32) → r ∈ rows → r.accepts w = true →
    rows.find? (·.accepts w) = some r
  | q :: rows, hp, hr, hw => by
    rw [List.pairwise_cons] at hp
    rcases List.mem_cons.1 hr with rfl | hr
    · simp [hw]
    · have hq : q.accepts w = false := by
        by_contra h
        have := Row.apart (hp.1 r hr) (Bool.not_eq_false _ ▸ h)
        simp [hw] at this
      simp only [List.find?_cons, hq]
      exact find_of_apart hp.2 hr hw

/-- The row that accepts a word is the one it decodes by (R99). -/
theorem decodeWord_of_accepts {r : Row} {w : Word} (hr : r ∈ opcodeTable) (hw : r.accepts w = true) :
    decodeWord w = .ok (r.build w) := by
  simp only [decodeWord, rowOf, find_of_apart rows_apart hr hw]

/-- A word that decodes is of a row of the table (R99). -/
theorem decodeWord_ok {w : Word} {i : Instr} (h : decodeWord w = .ok i) :
    ∃ r ∈ opcodeTable, r.accepts w = true ∧ i = r.build w := by
  unfold decodeWord at h
  split at h
  · next r hr => exact ⟨r, List.mem_of_find?_eq_some hr, by simpa using List.find?_some (p := fun r : Row => r.accepts w) (l := opcodeTable) hr, (Except.ok.inj h).symm⟩
  · simp at h

/-- A word that decodes to nothing is reported as it is, and no row accepts it (R100). -/
theorem decodeWord_error {w : Word} {e : DecodeError} (h : decodeWord w = .error e) :
    e = .reserved w ∧ ∀ r ∈ opcodeTable, r.accepts w = false := by
  unfold decodeWord at h
  split at h
  · simp at h
  · next hr => exact ⟨(Except.error.inj h).symm, fun r hm => by simpa using List.find?_eq_none.1 hr r hm⟩

/-- No row accepts a word: it is a reserved encoding (R100). -/
theorem decodeWord_of_no_row {w : Word} (h : ∀ r ∈ opcodeTable, r.accepts w = false) :
    decodeWord w = .error (.reserved w) := by
  have : rowOf w = none := List.find?_eq_none.2 fun r hr => by simp [h r hr]
  simp only [decodeWord, this]

end Sys2Proof
end

