-- ==== Sys2Proof/Laws/State.lean ====
section
/-! SUPPORT. One lemma per field per update of the state, true by rfl: no later proof unfolds a record update. -/

namespace Sys2Proof.Machine

variable (s : State)

/-! `State.setReg` -/

@[simp] theorem State.setReg_pc (r : Reg) (v : Word) : (s.setReg r v).pc = s.pc := rfl
@[simp] theorem State.setReg_npc (r : Reg) (v : Word) : (s.setReg r v).npc = s.npc := rfl
@[simp] theorem State.setReg_inDelaySlot (r : Reg) (v : Word) : (s.setReg r v).inDelaySlot = s.inDelaySlot := rfl
@[simp] theorem State.setReg_hi (r : Reg) (v : Word) : (s.setReg r v).hi = s.hi := rfl
@[simp] theorem State.setReg_lo (r : Reg) (v : Word) : (s.setReg r v).lo = s.lo := rfl
@[simp] theorem State.setReg_fprs (r : Reg) (v : Word) : (s.setReg r v).fprs = s.fprs := rfl
@[simp] theorem State.setReg_fpcond (r : Reg) (v : Word) : (s.setReg r v).fpcond = s.fpcond := rfl
@[simp] theorem State.setReg_crs (r : Reg) (v : Word) : (s.setReg r v).crs = s.crs := rfl
@[simp] theorem State.setReg_llbit (r : Reg) (v : Word) : (s.setReg r v).llbit = s.llbit := rfl
@[simp] theorem State.setReg_lladdr (r : Reg) (v : Word) : (s.setReg r v).lladdr = s.lladdr := rfl
@[simp] theorem State.setReg_mem (r : Reg) (v : Word) : (s.setReg r v).mem = s.mem := rfl
@[simp] theorem State.setReg_map (r : Reg) (v : Word) : (s.setReg r v).map = s.map := rfl
@[simp] theorem State.setReg_params (r : Reg) (v : Word) : (s.setReg r v).params = s.params := rfl
@[simp] theorem State.setReg_draws (r : Reg) (v : Word) : (s.setReg r v).draws = s.draws := rfl
@[simp] theorem State.setReg_fpr (r : Reg) (v : Word) (q : FReg) : (s.setReg r v).fpr q = s.fpr q := rfl
@[simp] theorem State.setReg_cr (r : Reg) (v : Word) (q : BitVec 5) : (s.setReg r v).cr q = s.cr q := rfl
@[simp] theorem State.setReg_byteAt (r : Reg) (v : Word) (q : Word) : (s.setReg r v).byteAt q = s.byteAt q := rfl
@[simp] theorem State.setReg_oneSlot (r : Reg) (v : Word) : (s.setReg r v).oneSlot = s.oneSlot := rfl

/-! `State.setFpr` -/

@[simp] theorem State.setFpr_gprs (n : FReg) (v : Word) : (s.setFpr n v).gprs = s.gprs := rfl
@[simp] theorem State.setFpr_pc (n : FReg) (v : Word) : (s.setFpr n v).pc = s.pc := rfl
@[simp] theorem State.setFpr_npc (n : FReg) (v : Word) : (s.setFpr n v).npc = s.npc := rfl
@[simp] theorem State.setFpr_inDelaySlot (n : FReg) (v : Word) : (s.setFpr n v).inDelaySlot = s.inDelaySlot := rfl
@[simp] theorem State.setFpr_hi (n : FReg) (v : Word) : (s.setFpr n v).hi = s.hi := rfl
@[simp] theorem State.setFpr_lo (n : FReg) (v : Word) : (s.setFpr n v).lo = s.lo := rfl
@[simp] theorem State.setFpr_fpcond (n : FReg) (v : Word) : (s.setFpr n v).fpcond = s.fpcond := rfl
@[simp] theorem State.setFpr_crs (n : FReg) (v : Word) : (s.setFpr n v).crs = s.crs := rfl
@[simp] theorem State.setFpr_llbit (n : FReg) (v : Word) : (s.setFpr n v).llbit = s.llbit := rfl
@[simp] theorem State.setFpr_lladdr (n : FReg) (v : Word) : (s.setFpr n v).lladdr = s.lladdr := rfl
@[simp] theorem State.setFpr_mem (n : FReg) (v : Word) : (s.setFpr n v).mem = s.mem := rfl
@[simp] theorem State.setFpr_map (n : FReg) (v : Word) : (s.setFpr n v).map = s.map := rfl
@[simp] theorem State.setFpr_params (n : FReg) (v : Word) : (s.setFpr n v).params = s.params := rfl
@[simp] theorem State.setFpr_draws (n : FReg) (v : Word) : (s.setFpr n v).draws = s.draws := rfl
@[simp] theorem State.setFpr_reg (n : FReg) (v : Word) (q : Reg) : (s.setFpr n v).reg q = s.reg q := rfl
@[simp] theorem State.setFpr_cr (n : FReg) (v : Word) (q : BitVec 5) : (s.setFpr n v).cr q = s.cr q := rfl
@[simp] theorem State.setFpr_byteAt (n : FReg) (v : Word) (q : Word) : (s.setFpr n v).byteAt q = s.byteAt q := rfl
@[simp] theorem State.setFpr_oneSlot (n : FReg) (v : Word) : (s.setFpr n v).oneSlot = s.oneSlot := rfl

/-! `State.setHiLo` -/

@[simp] theorem State.setHiLo_gprs (h l : Word) : (s.setHiLo h l).gprs = s.gprs := rfl
@[simp] theorem State.setHiLo_pc (h l : Word) : (s.setHiLo h l).pc = s.pc := rfl
@[simp] theorem State.setHiLo_npc (h l : Word) : (s.setHiLo h l).npc = s.npc := rfl
@[simp] theorem State.setHiLo_inDelaySlot (h l : Word) : (s.setHiLo h l).inDelaySlot = s.inDelaySlot := rfl
@[simp] theorem State.setHiLo_hi (h l : Word) : (s.setHiLo h l).hi = h := rfl
@[simp] theorem State.setHiLo_lo (h l : Word) : (s.setHiLo h l).lo = l := rfl
@[simp] theorem State.setHiLo_fprs (h l : Word) : (s.setHiLo h l).fprs = s.fprs := rfl
@[simp] theorem State.setHiLo_fpcond (h l : Word) : (s.setHiLo h l).fpcond = s.fpcond := rfl
@[simp] theorem State.setHiLo_crs (h l : Word) : (s.setHiLo h l).crs = s.crs := rfl
@[simp] theorem State.setHiLo_llbit (h l : Word) : (s.setHiLo h l).llbit = s.llbit := rfl
@[simp] theorem State.setHiLo_lladdr (h l : Word) : (s.setHiLo h l).lladdr = s.lladdr := rfl
@[simp] theorem State.setHiLo_mem (h l : Word) : (s.setHiLo h l).mem = s.mem := rfl
@[simp] theorem State.setHiLo_map (h l : Word) : (s.setHiLo h l).map = s.map := rfl
@[simp] theorem State.setHiLo_params (h l : Word) : (s.setHiLo h l).params = s.params := rfl
@[simp] theorem State.setHiLo_draws (h l : Word) : (s.setHiLo h l).draws = s.draws := rfl
@[simp] theorem State.setHiLo_reg (h l : Word) (q : Reg) : (s.setHiLo h l).reg q = s.reg q := rfl
@[simp] theorem State.setHiLo_fpr (h l : Word) (q : FReg) : (s.setHiLo h l).fpr q = s.fpr q := rfl
@[simp] theorem State.setHiLo_cr (h l : Word) (q : BitVec 5) : (s.setHiLo h l).cr q = s.cr q := rfl
@[simp] theorem State.setHiLo_byteAt (h l : Word) (q : Word) : (s.setHiLo h l).byteAt q = s.byteAt q := rfl
@[simp] theorem State.setHiLo_oneSlot (h l : Word) : (s.setHiLo h l).oneSlot = s.oneSlot := rfl

/-! `State.setFpcond` -/

@[simp] theorem State.setFpcond_gprs (b : Bool) : (s.setFpcond b).gprs = s.gprs := rfl
@[simp] theorem State.setFpcond_pc (b : Bool) : (s.setFpcond b).pc = s.pc := rfl
@[simp] theorem State.setFpcond_npc (b : Bool) : (s.setFpcond b).npc = s.npc := rfl
@[simp] theorem State.setFpcond_inDelaySlot (b : Bool) : (s.setFpcond b).inDelaySlot = s.inDelaySlot := rfl
@[simp] theorem State.setFpcond_hi (b : Bool) : (s.setFpcond b).hi = s.hi := rfl
@[simp] theorem State.setFpcond_lo (b : Bool) : (s.setFpcond b).lo = s.lo := rfl
@[simp] theorem State.setFpcond_fprs (b : Bool) : (s.setFpcond b).fprs = s.fprs := rfl
@[simp] theorem State.setFpcond_fpcond (b : Bool) : (s.setFpcond b).fpcond = b := rfl
@[simp] theorem State.setFpcond_crs (b : Bool) : (s.setFpcond b).crs = s.crs := rfl
@[simp] theorem State.setFpcond_llbit (b : Bool) : (s.setFpcond b).llbit = s.llbit := rfl
@[simp] theorem State.setFpcond_lladdr (b : Bool) : (s.setFpcond b).lladdr = s.lladdr := rfl
@[simp] theorem State.setFpcond_mem (b : Bool) : (s.setFpcond b).mem = s.mem := rfl
@[simp] theorem State.setFpcond_map (b : Bool) : (s.setFpcond b).map = s.map := rfl
@[simp] theorem State.setFpcond_params (b : Bool) : (s.setFpcond b).params = s.params := rfl
@[simp] theorem State.setFpcond_draws (b : Bool) : (s.setFpcond b).draws = s.draws := rfl
@[simp] theorem State.setFpcond_reg (b : Bool) (q : Reg) : (s.setFpcond b).reg q = s.reg q := rfl
@[simp] theorem State.setFpcond_fpr (b : Bool) (q : FReg) : (s.setFpcond b).fpr q = s.fpr q := rfl
@[simp] theorem State.setFpcond_cr (b : Bool) (q : BitVec 5) : (s.setFpcond b).cr q = s.cr q := rfl
@[simp] theorem State.setFpcond_byteAt (b : Bool) (q : Word) : (s.setFpcond b).byteAt q = s.byteAt q := rfl
@[simp] theorem State.setFpcond_oneSlot (b : Bool) : (s.setFpcond b).oneSlot = s.oneSlot := rfl

/-! `State.setLink` -/

@[simp] theorem State.setLink_gprs (a : Word) : (s.setLink a).gprs = s.gprs := rfl
@[simp] theorem State.setLink_pc (a : Word) : (s.setLink a).pc = s.pc := rfl
@[simp] theorem State.setLink_npc (a : Word) : (s.setLink a).npc = s.npc := rfl
@[simp] theorem State.setLink_inDelaySlot (a : Word) : (s.setLink a).inDelaySlot = s.inDelaySlot := rfl
@[simp] theorem State.setLink_hi (a : Word) : (s.setLink a).hi = s.hi := rfl
@[simp] theorem State.setLink_lo (a : Word) : (s.setLink a).lo = s.lo := rfl
@[simp] theorem State.setLink_fprs (a : Word) : (s.setLink a).fprs = s.fprs := rfl
@[simp] theorem State.setLink_fpcond (a : Word) : (s.setLink a).fpcond = s.fpcond := rfl
@[simp] theorem State.setLink_crs (a : Word) : (s.setLink a).crs = s.crs := rfl
@[simp] theorem State.setLink_llbit (a : Word) : (s.setLink a).llbit = true := rfl
@[simp] theorem State.setLink_lladdr (a : Word) : (s.setLink a).lladdr = a := rfl
@[simp] theorem State.setLink_mem (a : Word) : (s.setLink a).mem = s.mem := rfl
@[simp] theorem State.setLink_map (a : Word) : (s.setLink a).map = s.map := rfl
@[simp] theorem State.setLink_params (a : Word) : (s.setLink a).params = s.params := rfl
@[simp] theorem State.setLink_draws (a : Word) : (s.setLink a).draws = s.draws := rfl
@[simp] theorem State.setLink_written (a : Word) : (s.setLink a).written = s.written := rfl
@[simp] theorem State.setLink_reg (a : Word) (q : Reg) : (s.setLink a).reg q = s.reg q := rfl
@[simp] theorem State.setLink_fpr (a : Word) (q : FReg) : (s.setLink a).fpr q = s.fpr q := rfl
@[simp] theorem State.setLink_cr (a : Word) (q : BitVec 5) : (s.setLink a).cr q = s.cr q := rfl
@[simp] theorem State.setLink_byteAt (a : Word) (q : Word) : (s.setLink a).byteAt q = s.byteAt q := rfl
@[simp] theorem State.setLink_oneSlot (a : Word) : (s.setLink a).oneSlot = s.oneSlot := rfl

/-! `State.clearLink` -/

@[simp] theorem State.clearLink_gprs : (s.clearLink).gprs = s.gprs := rfl
@[simp] theorem State.clearLink_pc : (s.clearLink).pc = s.pc := rfl
@[simp] theorem State.clearLink_npc : (s.clearLink).npc = s.npc := rfl
@[simp] theorem State.clearLink_inDelaySlot : (s.clearLink).inDelaySlot = s.inDelaySlot := rfl
@[simp] theorem State.clearLink_hi : (s.clearLink).hi = s.hi := rfl
@[simp] theorem State.clearLink_lo : (s.clearLink).lo = s.lo := rfl
@[simp] theorem State.clearLink_fprs : (s.clearLink).fprs = s.fprs := rfl
@[simp] theorem State.clearLink_fpcond : (s.clearLink).fpcond = s.fpcond := rfl
@[simp] theorem State.clearLink_crs : (s.clearLink).crs = s.crs := rfl
@[simp] theorem State.clearLink_llbit : (s.clearLink).llbit = false := rfl
@[simp] theorem State.clearLink_lladdr : (s.clearLink).lladdr = s.lladdr := rfl
@[simp] theorem State.clearLink_mem : (s.clearLink).mem = s.mem := rfl
@[simp] theorem State.clearLink_map : (s.clearLink).map = s.map := rfl
@[simp] theorem State.clearLink_params : (s.clearLink).params = s.params := rfl
@[simp] theorem State.clearLink_draws : (s.clearLink).draws = s.draws := rfl
@[simp] theorem State.clearLink_written : (s.clearLink).written = s.written := rfl
@[simp] theorem State.clearLink_reg (q : Reg) : (s.clearLink).reg q = s.reg q := rfl
@[simp] theorem State.clearLink_fpr (q : FReg) : (s.clearLink).fpr q = s.fpr q := rfl
@[simp] theorem State.clearLink_cr (q : BitVec 5) : (s.clearLink).cr q = s.cr q := rfl
@[simp] theorem State.clearLink_byteAt (q : Word) : (s.clearLink).byteAt q = s.byteAt q := rfl
@[simp] theorem State.clearLink_oneSlot : (s.clearLink).oneSlot = s.oneSlot := rfl

/-! `State.drew` -/

@[simp] theorem State.drew_gprs (n : Nat) : (s.drew n).gprs = s.gprs := rfl
@[simp] theorem State.drew_pc (n : Nat) : (s.drew n).pc = s.pc := rfl
@[simp] theorem State.drew_npc (n : Nat) : (s.drew n).npc = s.npc := rfl
@[simp] theorem State.drew_inDelaySlot (n : Nat) : (s.drew n).inDelaySlot = s.inDelaySlot := rfl
@[simp] theorem State.drew_hi (n : Nat) : (s.drew n).hi = s.hi := rfl
@[simp] theorem State.drew_lo (n : Nat) : (s.drew n).lo = s.lo := rfl
@[simp] theorem State.drew_fprs (n : Nat) : (s.drew n).fprs = s.fprs := rfl
@[simp] theorem State.drew_fpcond (n : Nat) : (s.drew n).fpcond = s.fpcond := rfl
@[simp] theorem State.drew_crs (n : Nat) : (s.drew n).crs = s.crs := rfl
@[simp] theorem State.drew_llbit (n : Nat) : (s.drew n).llbit = s.llbit := rfl
@[simp] theorem State.drew_lladdr (n : Nat) : (s.drew n).lladdr = s.lladdr := rfl
@[simp] theorem State.drew_mem (n : Nat) : (s.drew n).mem = s.mem := rfl
@[simp] theorem State.drew_map (n : Nat) : (s.drew n).map = s.map := rfl
@[simp] theorem State.drew_params (n : Nat) : (s.drew n).params = s.params := rfl
@[simp] theorem State.drew_draws (n : Nat) : (s.drew n).draws = s.draws + n := rfl
@[simp] theorem State.drew_written (n : Nat) : (s.drew n).written = s.written := rfl
@[simp] theorem State.drew_reg (n : Nat) (q : Reg) : (s.drew n).reg q = s.reg q := rfl
@[simp] theorem State.drew_fpr (n : Nat) (q : FReg) : (s.drew n).fpr q = s.fpr q := rfl
@[simp] theorem State.drew_cr (n : Nat) (q : BitVec 5) : (s.drew n).cr q = s.cr q := rfl
@[simp] theorem State.drew_byteAt (n : Nat) (q : Word) : (s.drew n).byteAt q = s.byteAt q := rfl
@[simp] theorem State.drew_oneSlot (n : Nat) : (s.drew n).oneSlot = s.oneSlot := rfl

/-! `State.advance` -/

@[simp] theorem State.advance_gprs : (s.advance).gprs = s.gprs := rfl
@[simp] theorem State.advance_hi : (s.advance).hi = s.hi := rfl
@[simp] theorem State.advance_lo : (s.advance).lo = s.lo := rfl
@[simp] theorem State.advance_fprs : (s.advance).fprs = s.fprs := rfl
@[simp] theorem State.advance_fpcond : (s.advance).fpcond = s.fpcond := rfl
@[simp] theorem State.advance_crs : (s.advance).crs = s.crs := rfl
@[simp] theorem State.advance_llbit : (s.advance).llbit = s.llbit := rfl
@[simp] theorem State.advance_lladdr : (s.advance).lladdr = s.lladdr := rfl
@[simp] theorem State.advance_mem : (s.advance).mem = s.mem := rfl
@[simp] theorem State.advance_map : (s.advance).map = s.map := rfl
@[simp] theorem State.advance_params : (s.advance).params = s.params := rfl
@[simp] theorem State.advance_draws : (s.advance).draws = s.draws := rfl
@[simp] theorem State.advance_written : (s.advance).written = s.written := rfl
@[simp] theorem State.advance_reg (q : Reg) : (s.advance).reg q = s.reg q := rfl
@[simp] theorem State.advance_fpr (q : FReg) : (s.advance).fpr q = s.fpr q := rfl
@[simp] theorem State.advance_cr (q : BitVec 5) : (s.advance).cr q = s.cr q := rfl
@[simp] theorem State.advance_byteAt (q : Word) : (s.advance).byteAt q = s.byteAt q := rfl
@[simp] theorem State.advance_oneSlot : (s.advance).oneSlot = s.oneSlot := rfl

/-! `State.transfer` -/

@[simp] theorem State.transfer_gprs (b : Bool) (a : Word) : (s.transfer b a).gprs = s.gprs := rfl
@[simp] theorem State.transfer_hi (b : Bool) (a : Word) : (s.transfer b a).hi = s.hi := rfl
@[simp] theorem State.transfer_lo (b : Bool) (a : Word) : (s.transfer b a).lo = s.lo := rfl
@[simp] theorem State.transfer_fprs (b : Bool) (a : Word) : (s.transfer b a).fprs = s.fprs := rfl
@[simp] theorem State.transfer_fpcond (b : Bool) (a : Word) : (s.transfer b a).fpcond = s.fpcond := rfl
@[simp] theorem State.transfer_crs (b : Bool) (a : Word) : (s.transfer b a).crs = s.crs := rfl
@[simp] theorem State.transfer_llbit (b : Bool) (a : Word) : (s.transfer b a).llbit = s.llbit := rfl
@[simp] theorem State.transfer_lladdr (b : Bool) (a : Word) : (s.transfer b a).lladdr = s.lladdr := rfl
@[simp] theorem State.transfer_mem (b : Bool) (a : Word) : (s.transfer b a).mem = s.mem := rfl
@[simp] theorem State.transfer_map (b : Bool) (a : Word) : (s.transfer b a).map = s.map := rfl
@[simp] theorem State.transfer_params (b : Bool) (a : Word) : (s.transfer b a).params = s.params := rfl
@[simp] theorem State.transfer_draws (b : Bool) (a : Word) : (s.transfer b a).draws = s.draws := rfl
@[simp] theorem State.transfer_written (b : Bool) (a : Word) : (s.transfer b a).written = s.written := rfl
@[simp] theorem State.transfer_reg (b : Bool) (a : Word) (q : Reg) : (s.transfer b a).reg q = s.reg q := rfl
@[simp] theorem State.transfer_fpr (b : Bool) (a : Word) (q : FReg) : (s.transfer b a).fpr q = s.fpr q := rfl
@[simp] theorem State.transfer_cr (b : Bool) (a : Word) (q : BitVec 5) : (s.transfer b a).cr q = s.cr q := rfl
@[simp] theorem State.transfer_byteAt (b : Bool) (a : Word) (q : Word) : (s.transfer b a).byteAt q = s.byteAt q := rfl
@[simp] theorem State.transfer_oneSlot (b : Bool) (a : Word) : (s.transfer b a).oneSlot = s.oneSlot := rfl

/-! `State.setByte` -/

@[simp] theorem State.setByte_gprs (a : Word) (b : Byte) : (s.setByte a b).gprs = s.gprs := rfl
@[simp] theorem State.setByte_pc (a : Word) (b : Byte) : (s.setByte a b).pc = s.pc := rfl
@[simp] theorem State.setByte_npc (a : Word) (b : Byte) : (s.setByte a b).npc = s.npc := rfl
@[simp] theorem State.setByte_inDelaySlot (a : Word) (b : Byte) : (s.setByte a b).inDelaySlot = s.inDelaySlot := rfl
@[simp] theorem State.setByte_hi (a : Word) (b : Byte) : (s.setByte a b).hi = s.hi := rfl
@[simp] theorem State.setByte_lo (a : Word) (b : Byte) : (s.setByte a b).lo = s.lo := rfl
@[simp] theorem State.setByte_fprs (a : Word) (b : Byte) : (s.setByte a b).fprs = s.fprs := rfl
@[simp] theorem State.setByte_fpcond (a : Word) (b : Byte) : (s.setByte a b).fpcond = s.fpcond := rfl
@[simp] theorem State.setByte_crs (a : Word) (b : Byte) : (s.setByte a b).crs = s.crs := rfl
@[simp] theorem State.setByte_llbit (a : Word) (b : Byte) : (s.setByte a b).llbit = s.llbit := rfl
@[simp] theorem State.setByte_lladdr (a : Word) (b : Byte) : (s.setByte a b).lladdr = s.lladdr := rfl
@[simp] theorem State.setByte_map (a : Word) (b : Byte) : (s.setByte a b).map = s.map := rfl
@[simp] theorem State.setByte_params (a : Word) (b : Byte) : (s.setByte a b).params = s.params := rfl
@[simp] theorem State.setByte_draws (a : Word) (b : Byte) : (s.setByte a b).draws = s.draws := rfl
@[simp] theorem State.setByte_written (a : Word) (b : Byte) : (s.setByte a b).written = s.written := rfl
@[simp] theorem State.setByte_reg (a : Word) (b : Byte) (q : Reg) : (s.setByte a b).reg q = s.reg q := rfl
@[simp] theorem State.setByte_fpr (a : Word) (b : Byte) (q : FReg) : (s.setByte a b).fpr q = s.fpr q := rfl
@[simp] theorem State.setByte_cr (a : Word) (b : Byte) (q : BitVec 5) : (s.setByte a b).cr q = s.cr q := rfl
@[simp] theorem State.setByte_oneSlot (a : Word) (b : Byte) : (s.setByte a b).oneSlot = s.oneSlot := rfl

/-! `State.setHalf` -/

@[simp] theorem State.setHalf_gprs (a : Word) (v : Half) : (s.setHalf a v).gprs = s.gprs := rfl
@[simp] theorem State.setHalf_pc (a : Word) (v : Half) : (s.setHalf a v).pc = s.pc := rfl
@[simp] theorem State.setHalf_npc (a : Word) (v : Half) : (s.setHalf a v).npc = s.npc := rfl
@[simp] theorem State.setHalf_inDelaySlot (a : Word) (v : Half) : (s.setHalf a v).inDelaySlot = s.inDelaySlot := rfl
@[simp] theorem State.setHalf_hi (a : Word) (v : Half) : (s.setHalf a v).hi = s.hi := rfl
@[simp] theorem State.setHalf_lo (a : Word) (v : Half) : (s.setHalf a v).lo = s.lo := rfl
@[simp] theorem State.setHalf_fprs (a : Word) (v : Half) : (s.setHalf a v).fprs = s.fprs := rfl
@[simp] theorem State.setHalf_fpcond (a : Word) (v : Half) : (s.setHalf a v).fpcond = s.fpcond := rfl
@[simp] theorem State.setHalf_crs (a : Word) (v : Half) : (s.setHalf a v).crs = s.crs := rfl
@[simp] theorem State.setHalf_llbit (a : Word) (v : Half) : (s.setHalf a v).llbit = s.llbit := rfl
@[simp] theorem State.setHalf_lladdr (a : Word) (v : Half) : (s.setHalf a v).lladdr = s.lladdr := rfl
@[simp] theorem State.setHalf_map (a : Word) (v : Half) : (s.setHalf a v).map = s.map := rfl
@[simp] theorem State.setHalf_params (a : Word) (v : Half) : (s.setHalf a v).params = s.params := rfl
@[simp] theorem State.setHalf_draws (a : Word) (v : Half) : (s.setHalf a v).draws = s.draws := rfl
@[simp] theorem State.setHalf_written (a : Word) (v : Half) : (s.setHalf a v).written = s.written := rfl
@[simp] theorem State.setHalf_reg (a : Word) (v : Half) (q : Reg) : (s.setHalf a v).reg q = s.reg q := rfl
@[simp] theorem State.setHalf_fpr (a : Word) (v : Half) (q : FReg) : (s.setHalf a v).fpr q = s.fpr q := rfl
@[simp] theorem State.setHalf_cr (a : Word) (v : Half) (q : BitVec 5) : (s.setHalf a v).cr q = s.cr q := rfl
@[simp] theorem State.setHalf_oneSlot (a : Word) (v : Half) : (s.setHalf a v).oneSlot = s.oneSlot := rfl

/-! `State.setWord` -/

@[simp] theorem State.setWord_gprs (a : Word) (v : Word) : (s.setWord a v).gprs = s.gprs := rfl
@[simp] theorem State.setWord_pc (a : Word) (v : Word) : (s.setWord a v).pc = s.pc := rfl
@[simp] theorem State.setWord_npc (a : Word) (v : Word) : (s.setWord a v).npc = s.npc := rfl
@[simp] theorem State.setWord_inDelaySlot (a : Word) (v : Word) : (s.setWord a v).inDelaySlot = s.inDelaySlot := rfl
@[simp] theorem State.setWord_hi (a : Word) (v : Word) : (s.setWord a v).hi = s.hi := rfl
@[simp] theorem State.setWord_lo (a : Word) (v : Word) : (s.setWord a v).lo = s.lo := rfl
@[simp] theorem State.setWord_fprs (a : Word) (v : Word) : (s.setWord a v).fprs = s.fprs := rfl
@[simp] theorem State.setWord_fpcond (a : Word) (v : Word) : (s.setWord a v).fpcond = s.fpcond := rfl
@[simp] theorem State.setWord_crs (a : Word) (v : Word) : (s.setWord a v).crs = s.crs := rfl
@[simp] theorem State.setWord_llbit (a : Word) (v : Word) : (s.setWord a v).llbit = s.llbit := rfl
@[simp] theorem State.setWord_lladdr (a : Word) (v : Word) : (s.setWord a v).lladdr = s.lladdr := rfl
@[simp] theorem State.setWord_map (a : Word) (v : Word) : (s.setWord a v).map = s.map := rfl
@[simp] theorem State.setWord_params (a : Word) (v : Word) : (s.setWord a v).params = s.params := rfl
@[simp] theorem State.setWord_draws (a : Word) (v : Word) : (s.setWord a v).draws = s.draws := rfl
@[simp] theorem State.setWord_written (a : Word) (v : Word) : (s.setWord a v).written = s.written := rfl
@[simp] theorem State.setWord_reg (a : Word) (v : Word) (q : Reg) : (s.setWord a v).reg q = s.reg q := rfl
@[simp] theorem State.setWord_fpr (a : Word) (v : Word) (q : FReg) : (s.setWord a v).fpr q = s.fpr q := rfl
@[simp] theorem State.setWord_cr (a : Word) (v : Word) (q : BitVec 5) : (s.setWord a v).cr q = s.cr q := rfl
@[simp] theorem State.setWord_oneSlot (a : Word) (v : Word) : (s.setWord a v).oneSlot = s.oneSlot := rfl

/-! `State.setDbl` -/

@[simp] theorem State.setDbl_gprs (n : FReg) (v : DWord) : (s.setDbl n v).gprs = s.gprs := rfl
@[simp] theorem State.setDbl_pc (n : FReg) (v : DWord) : (s.setDbl n v).pc = s.pc := rfl
@[simp] theorem State.setDbl_npc (n : FReg) (v : DWord) : (s.setDbl n v).npc = s.npc := rfl
@[simp] theorem State.setDbl_inDelaySlot (n : FReg) (v : DWord) : (s.setDbl n v).inDelaySlot = s.inDelaySlot := rfl
@[simp] theorem State.setDbl_hi (n : FReg) (v : DWord) : (s.setDbl n v).hi = s.hi := rfl
@[simp] theorem State.setDbl_lo (n : FReg) (v : DWord) : (s.setDbl n v).lo = s.lo := rfl
@[simp] theorem State.setDbl_fpcond (n : FReg) (v : DWord) : (s.setDbl n v).fpcond = s.fpcond := rfl
@[simp] theorem State.setDbl_crs (n : FReg) (v : DWord) : (s.setDbl n v).crs = s.crs := rfl
@[simp] theorem State.setDbl_llbit (n : FReg) (v : DWord) : (s.setDbl n v).llbit = s.llbit := rfl
@[simp] theorem State.setDbl_lladdr (n : FReg) (v : DWord) : (s.setDbl n v).lladdr = s.lladdr := rfl
@[simp] theorem State.setDbl_mem (n : FReg) (v : DWord) : (s.setDbl n v).mem = s.mem := rfl
@[simp] theorem State.setDbl_map (n : FReg) (v : DWord) : (s.setDbl n v).map = s.map := rfl
@[simp] theorem State.setDbl_params (n : FReg) (v : DWord) : (s.setDbl n v).params = s.params := rfl
@[simp] theorem State.setDbl_draws (n : FReg) (v : DWord) : (s.setDbl n v).draws = s.draws := rfl
@[simp] theorem State.setDbl_reg (n : FReg) (v : DWord) (q : Reg) : (s.setDbl n v).reg q = s.reg q := rfl
@[simp] theorem State.setDbl_cr (n : FReg) (v : DWord) (q : BitVec 5) : (s.setDbl n v).cr q = s.cr q := rfl
@[simp] theorem State.setDbl_byteAt (n : FReg) (v : DWord) (q : Word) : (s.setDbl n v).byteAt q = s.byteAt q := rfl
@[simp] theorem State.setDbl_oneSlot (n : FReg) (v : DWord) : (s.setDbl n v).oneSlot = s.oneSlot := rfl

/-! `State.setProduct` -/

@[simp] theorem State.setProduct_gprs (p : DWord) : (s.setProduct p).gprs = s.gprs := rfl
@[simp] theorem State.setProduct_pc (p : DWord) : (s.setProduct p).pc = s.pc := rfl
@[simp] theorem State.setProduct_npc (p : DWord) : (s.setProduct p).npc = s.npc := rfl
@[simp] theorem State.setProduct_inDelaySlot (p : DWord) : (s.setProduct p).inDelaySlot = s.inDelaySlot := rfl
@[simp] theorem State.setProduct_fprs (p : DWord) : (s.setProduct p).fprs = s.fprs := rfl
@[simp] theorem State.setProduct_fpcond (p : DWord) : (s.setProduct p).fpcond = s.fpcond := rfl
@[simp] theorem State.setProduct_crs (p : DWord) : (s.setProduct p).crs = s.crs := rfl
@[simp] theorem State.setProduct_llbit (p : DWord) : (s.setProduct p).llbit = s.llbit := rfl
@[simp] theorem State.setProduct_lladdr (p : DWord) : (s.setProduct p).lladdr = s.lladdr := rfl
@[simp] theorem State.setProduct_mem (p : DWord) : (s.setProduct p).mem = s.mem := rfl
@[simp] theorem State.setProduct_map (p : DWord) : (s.setProduct p).map = s.map := rfl
@[simp] theorem State.setProduct_params (p : DWord) : (s.setProduct p).params = s.params := rfl
@[simp] theorem State.setProduct_draws (p : DWord) : (s.setProduct p).draws = s.draws := rfl
@[simp] theorem State.setProduct_reg (p : DWord) (q : Reg) : (s.setProduct p).reg q = s.reg q := rfl
@[simp] theorem State.setProduct_fpr (p : DWord) (q : FReg) : (s.setProduct p).fpr q = s.fpr q := rfl
@[simp] theorem State.setProduct_cr (p : DWord) (q : BitVec 5) : (s.setProduct p).cr q = s.cr q := rfl
@[simp] theorem State.setProduct_byteAt (p : DWord) (q : Word) : (s.setProduct p).byteAt q = s.byteAt q := rfl
@[simp] theorem State.setProduct_oneSlot (p : DWord) : (s.setProduct p).oneSlot = s.oneSlot := rfl

/-! `State.setHiLoOpen` -/

@[simp] theorem State.setHiLoOpen_gprs : (s.setHiLoOpen).gprs = s.gprs := rfl
@[simp] theorem State.setHiLoOpen_pc : (s.setHiLoOpen).pc = s.pc := rfl
@[simp] theorem State.setHiLoOpen_npc : (s.setHiLoOpen).npc = s.npc := rfl
@[simp] theorem State.setHiLoOpen_inDelaySlot : (s.setHiLoOpen).inDelaySlot = s.inDelaySlot := rfl
@[simp] theorem State.setHiLoOpen_fprs : (s.setHiLoOpen).fprs = s.fprs := rfl
@[simp] theorem State.setHiLoOpen_fpcond : (s.setHiLoOpen).fpcond = s.fpcond := rfl
@[simp] theorem State.setHiLoOpen_crs : (s.setHiLoOpen).crs = s.crs := rfl
@[simp] theorem State.setHiLoOpen_llbit : (s.setHiLoOpen).llbit = s.llbit := rfl
@[simp] theorem State.setHiLoOpen_lladdr : (s.setHiLoOpen).lladdr = s.lladdr := rfl
@[simp] theorem State.setHiLoOpen_mem : (s.setHiLoOpen).mem = s.mem := rfl
@[simp] theorem State.setHiLoOpen_map : (s.setHiLoOpen).map = s.map := rfl
@[simp] theorem State.setHiLoOpen_params : (s.setHiLoOpen).params = s.params := rfl
@[simp] theorem State.setHiLoOpen_reg (q : Reg) : (s.setHiLoOpen).reg q = s.reg q := rfl
@[simp] theorem State.setHiLoOpen_fpr (q : FReg) : (s.setHiLoOpen).fpr q = s.fpr q := rfl
@[simp] theorem State.setHiLoOpen_cr (q : BitVec 5) : (s.setHiLoOpen).cr q = s.cr q := rfl
@[simp] theorem State.setHiLoOpen_byteAt (q : Word) : (s.setHiLoOpen).byteAt q = s.byteAt q := rfl
@[simp] theorem State.setHiLoOpen_oneSlot : (s.setHiLoOpen).oneSlot = s.oneSlot := rfl

end Sys2Proof.Machine
end

