-- ==== Sys2Proof/Laws/Memory.lean ====
section
/-! SUPPORT. The laws of memory: reading what was written, writing elsewhere, and the canonical form that every memory
operation keeps. -/

namespace Sys2Proof.Machine

/-! ### One byte -/

theorem Memory.valueAt_put_same (m : Memory) (a : Nat) (b : Byte) : (m.put a b).valueAt a = some b := by
  induction m with
  | nil => simp [Memory.put, Memory.valueAt]
  | cons c m ih =>
    obtain ⟨k, v⟩ := c
    unfold Memory.put
    split
    · simp [Memory.valueAt]
    · split
      · simp [Memory.valueAt]
      · next h => simp [Memory.valueAt, Ne.symm h, ih]

theorem Memory.valueAt_put_ne (m : Memory) {a a' : Nat} (b : Byte) (h : a' ≠ a) :
    (m.put a b).valueAt a' = m.valueAt a' := by
  induction m with
  | nil => simp [Memory.put, Memory.valueAt, Ne.symm h]
  | cons c m ih =>
    obtain ⟨k, v⟩ := c
    unfold Memory.put
    split
    · simp [Memory.valueAt, Ne.symm h]
    · split
      · next e => subst e; simp [Memory.valueAt, Ne.symm h]
      · simp [Memory.valueAt, ih]

theorem Memory.mem_put {m : Memory} {a : Nat} {b : Byte} {c : Host.Cell} (h : c ∈ m.put a b) :
    c = (a, b) ∨ c ∈ m := by
  induction m with
  | nil => simpa [Memory.put] using h
  | cons d m ih =>
    obtain ⟨k, v⟩ := d
    unfold Memory.put at h
    split at h
    · simpa using h
    · split at h
      · simp only [List.mem_cons] at h ⊢; tauto
      · simp only [List.mem_cons] at h ⊢; tauto

/-- A write keeps the canonical form (R50). -/
theorem Memory.wf_put {m : Memory} {a : Nat} (b : Byte) (hm : m.wf) (ha : a < 2 ^ 32) : (m.put a b).wf := by
  refine ⟨?_, fun c hc => ?_⟩
  · have hp := hm.1
    clear hm
    induction m with
    | nil => simp [Memory.put]
    | cons c m ih =>
      obtain ⟨k, v⟩ := c
      rw [List.pairwise_cons] at hp
      unfold Memory.put
      split
      · next h =>
        refine List.pairwise_cons.2 ⟨fun c hc => ?_, List.pairwise_cons.2 hp⟩
        rcases List.mem_cons.1 hc with rfl | hc
        · exact h
        · exact h.trans (hp.1 c hc)
      · split
        · next h => subst h; exact List.pairwise_cons.2 hp
        · refine List.pairwise_cons.2 ⟨fun c hc => ?_, ih hp.2⟩
          rcases Memory.mem_put hc with rfl | hc
          · simp only; omega
          · exact hp.1 c hc
  · rcases Memory.mem_put hc with rfl | hc
    · exact ha
    · exact hm.2 c hc

theorem Memory.valueAt_isSome {m : Memory} {a : Nat} {b : Byte} (h : m.valueAt a = some b) : (a, b) ∈ m := by
  induction m with
  | nil => simp [Memory.valueAt] at h
  | cons c m ih =>
    obtain ⟨k, v⟩ := c
    by_cases e : k = a
    · subst e; simp only [Memory.valueAt, if_true, Option.some.injEq] at h; simp [h]
    · rw [Memory.valueAt, if_neg e] at h; exact List.mem_cons_of_mem _ (ih h)

theorem Memory.valueAt_eq_none {m : Memory} {a : Nat} (h : ∀ c ∈ m, a < c.1) : m.valueAt a = none := by
  induction m with
  | nil => rfl
  | cons c m ih =>
    have := h c (List.mem_cons_self ..)
    rw [Memory.valueAt, if_neg (by omega)]
    exact ih fun d hd => h d (List.mem_cons_of_mem _ hd)

/-- Memories in canonical form that hold the same bytes are the same memory. -/
theorem Memory.eq_of_valueAt {m n : Memory} (hm : m.wf) (hn : n.wf) (h : ∀ a, m.valueAt a = n.valueAt a) : m = n := by
  replace hm := hm.1; replace hn := hn.1
  induction m generalizing n with
  | nil =>
    cases n with
    | nil => rfl
    | cons d n => have := h d.1; simp [Memory.valueAt] at this
  | cons c m ih =>
    obtain ⟨k, v⟩ := c
    rw [List.pairwise_cons] at hm
    cases n with
    | nil => have := h k; simp [Memory.valueAt] at this
    | cons d n =>
      obtain ⟨l, w⟩ := d
      rw [List.pairwise_cons] at hn
      have hk : k = l := by
        rcases Nat.lt_trichotomy k l with hkl | hkl | hkl
        · have := h k
          rw [Memory.valueAt, if_pos rfl, Memory.valueAt_eq_none] at this
          · simp at this
          · intro c hc
            rcases List.mem_cons.1 hc with rfl | hc
            · exact hkl
            · exact hkl.trans (hn.1 c hc)
        · exact hkl
        · have := h l
          rw [Memory.valueAt_eq_none] at this
          · simp [Memory.valueAt] at this
          · intro c hc
            rcases List.mem_cons.1 hc with rfl | hc
            · exact hkl
            · exact hkl.trans (hm.1 c hc)
      subst hk
      have hv : v = w := by have := h k; simpa [Memory.valueAt] using this
      subst hv
      congr 1
      refine ih (fun a => ?_) hm.2 hn.2
      by_cases e : k = a
      · subst e; rw [Memory.valueAt_eq_none hm.1, Memory.valueAt_eq_none hn.1]
      · have := h a; rwa [Memory.valueAt, if_neg e, Memory.valueAt, if_neg e] at this

/-! ### The state's memory -/

@[simp] theorem State.setByte_mem (s : State) (a : Word) (b : Byte) : (s.setByte a b).mem = s.mem.put a.toNat b := rfl

theorem State.byteAt_setByte_same (s : State) (a : Word) (b : Byte) : (s.setByte a b).byteAt a = some b := by
  simp [State.byteAt, Memory.valueAt_put_same]

theorem State.byteAt_setByte_ne (s : State) {a q : Word} (b : Byte) (h : q ≠ a) :
    (s.setByte a b).byteAt q = s.byteAt q := by
  have hne : q.toNat ≠ a.toNat := fun e => h (BitVec.eq_of_toNat_eq e)
  simp [State.byteAt, Memory.valueAt_put_ne _ _ hne]

theorem State.byteAt_setByte (s : State) (a q : Word) (b : Byte) :
    (s.setByte a b).byteAt q = if q = a then some b else s.byteAt q := by
  split
  · next h => subst h; exact s.byteAt_setByte_same q b
  · next h => exact s.byteAt_setByte_ne b h

/-- A read of a byte depends on memory and the parameters alone. -/
theorem State.byteAt_congr {s t : State} (hm : t.mem = s.mem) (hp : t.params = s.params) (q : Word) :
    t.byteAt q = s.byteAt q := by
  simp [State.byteAt, hm, hp]

/-- Nothing changes outside the two bytes of a halfword store (R178). -/
theorem State.byteAt_setHalf_ne (s : State) {a q : Word} (v : Half) (h : ∀ k, k < 2 → q ≠ a + BitVec.ofNat 32 k) :
    (s.setHalf a v).byteAt q = s.byteAt q := by
  have h0 := h 0 (by omega); have h1 := h 1 (by omega)
  simp only [BitVec.add_zero] at h0 h1
  simp [State.setHalf, State.byteAt_setByte, h0, h1]

/-- Nothing changes outside the four bytes of a word store (R176). -/
theorem State.byteAt_setWord_ne (s : State) {a q : Word} (v : Word) (h : ∀ k, k < 4 → q ≠ a + BitVec.ofNat 32 k) :
    (s.setWord a v).byteAt q = s.byteAt q := by
  have h0 := h 0 (by omega); have h1 := h 1 (by omega); have h2 := h 2 (by omega); have h3 := h 3 (by omega)
  simp only [BitVec.add_zero] at h0 h1 h2 h3
  simp [State.setWord, State.byteAt_setByte, h0, h1, h2, h3]

/-- The bytes of a halfword store (R52). -/
theorem State.byteAt_setHalf (s : State) (a : Word) (v : Half) {k : Nat} (h : k < 2) :
    (s.setHalf a v).byteAt (a + BitVec.ofNat 32 k) = some (laneByte s.params.byteOrder 2 v k) := by
  have hk : k = 0 ∨ k = 1 := by omega
  rcases hk with rfl | rfl <;> simp [State.setHalf, State.byteAt_setByte]

/-- The bytes of a word store (R52). -/
theorem State.byteAt_setWord (s : State) (a v : Word) {k : Nat} (h : k < 4) :
    (s.setWord a v).byteAt (a + BitVec.ofNat 32 k) = some (laneByte s.params.byteOrder 4 v k) := by
  have h1 : a + 1#32 ≠ a + 2#32 := by simp
  have h2 : a + 1#32 ≠ a + 3#32 := by simp
  have h3 : a + 2#32 ≠ a + 3#32 := by simp
  have hk : k = 0 ∨ k = 1 ∨ k = 2 ∨ k = 3 := by omega
  rcases hk with rfl | rfl | rfl | rfl <;> simp [State.setWord, State.byteAt_setByte, h1, h2, h3]

/-- The bytes of a value joined again are the value (R52). -/
theorem joinWord_laneByte (o : ByteOrder) (v : Word) :
    joinWord o (laneByte o 4 v 0) (laneByte o 4 v 1) (laneByte o 4 v 2) (laneByte o 4 v 3) = v := by
  cases o <;>
  · simp only [joinWord, laneByte, byteOf]
    apply BitVec.eq_of_getLsbD_eq
    intro i hi
    simp only [BitVec.getLsbD_append, BitVec.getLsbD_extractLsb']
    by_cases h1 : i < 8
    · simp [h1]
    · by_cases h2 : i - 8 < 8
      · simp [h1, h2, show 8 + (i - 8) = i by omega]
      · by_cases h3 : i - 8 - 8 < 8
        · simp [h1, h2, h3, show 16 + (i - 8 - 8) = i by omega]
        · simp [h1, h2, h3, show i - 8 - 8 - 8 < 8 by omega, show 24 + (i - 8 - 8 - 8) = i by omega]

theorem joinHalf_laneByte (o : ByteOrder) (v : Half) : joinHalf o (laneByte o 2 v 0) (laneByte o 2 v 1) = v := by
  cases o <;>
  · simp only [joinHalf, laneByte, byteOf]
    apply BitVec.eq_of_getLsbD_eq
    intro i hi
    simp only [BitVec.getLsbD_append, BitVec.getLsbD_extractLsb']
    by_cases h1 : i < 8
    · simp [h1]
    · simp [h1, show i - 8 < 8 by omega, show 8 + (i - 8) = i by omega]

/-- A word stored reads back, under either byte order (R182 (a)). -/
theorem State.wordAt_setWord (s : State) (a v : Word) : (s.setWord a v).wordAt a = some v := by
  have h0 := s.byteAt_setWord a v (k := 0) (by omega)
  have h1 := s.byteAt_setWord a v (k := 1) (by omega)
  have h2 := s.byteAt_setWord a v (k := 2) (by omega)
  have h3 := s.byteAt_setWord a v (k := 3) (by omega)
  simp only [BitVec.add_zero] at h0 h1 h2 h3
  simp only [State.wordAt, h0, h1, h2, h3, State.setWord_params, joinWord_laneByte]

theorem State.halfAt_setHalf (s : State) (a : Word) (v : Half) : (s.setHalf a v).halfAt a = some v := by
  have h0 := s.byteAt_setHalf a v (k := 0) (by omega)
  have h1 := s.byteAt_setHalf a v (k := 1) (by omega)
  simp only [BitVec.add_zero] at h0 h1
  simp only [State.halfAt, h0, h1, State.setHalf_params, joinHalf_laneByte]

/-! ### The canonical form -/

theorem State.wf_setByte {s : State} (a : Word) (b : Byte) (h : s.mem.wf) : (s.setByte a b).mem.wf :=
  Memory.wf_put b h a.isLt

theorem State.wf_setHalf {s : State} (a : Word) (v : Half) (h : s.mem.wf) : (s.setHalf a v).mem.wf :=
  State.wf_setByte _ _ (State.wf_setByte _ _ h)

theorem State.wf_setWord {s : State} (a v : Word) (h : s.mem.wf) : (s.setWord a v).mem.wf :=
  State.wf_setByte _ _ (State.wf_setByte _ _ (State.wf_setByte _ _ (State.wf_setByte _ _ h)))

theorem State.reset_wf : State.reset.mem.wf := by decide

/-- The bytes listed after a byte is written. -/
theorem State.mem_setByte {s : State} {a : Word} {b : Byte} {c : Host.Cell} (h : c ∈ (s.setByte a b).mem) :
    c.1 = a.toNat ∨ c ∈ s.mem := by
  rcases Memory.mem_put h with rfl | h
  · exact .inl rfl
  · exact .inr h

theorem State.mem_setHalf {s : State} {a : Word} {v : Half} {c : Host.Cell} (h : c ∈ (s.setHalf a v).mem) :
    (∃ k, k < 2 ∧ c.1 = (a + BitVec.ofNat 32 k).toNat) ∨ c ∈ s.mem := by
  rcases State.mem_setByte h with h | h
  · exact .inl ⟨1, by omega, h⟩
  · rcases State.mem_setByte h with h | h
    · exact .inl ⟨0, by omega, by simpa using h⟩
    · exact .inr h

theorem State.mem_setWord {s : State} {a v : Word} {c : Host.Cell} (h : c ∈ (s.setWord a v).mem) :
    (∃ k, k < 4 ∧ c.1 = (a + BitVec.ofNat 32 k).toNat) ∨ c ∈ s.mem := by
  rcases State.mem_setByte h with h | h
  · exact .inl ⟨3, by omega, h⟩
  rcases State.mem_setByte h with h | h
  · exact .inl ⟨2, by omega, h⟩
  rcases State.mem_setByte h with h | h
  · exact .inl ⟨1, by omega, h⟩
  rcases State.mem_setByte h with h | h
  · exact .inl ⟨0, by omega, by simpa using h⟩
  · exact .inr h

end Sys2Proof.Machine
end

