-- ==== Sys2Proof/Laws/Ops.lean ====
section
/-! SUPPORT. One lemma for each shared operation that says once all it can do; later proofs cite it and do not unfold the
operation. -/

namespace Sys2Proof.Machine

/-! ### Registers -/

@[simp] theorem State.reg_zero (s : State) : s.reg 0#5 = 0#32 := rfl

theorem State.reg_setReg_same (s : State) (r : Reg) (v : Word) : (s.setReg r v).reg r = afterWrite r v := by
  by_cases h : r = 0#5 <;> simp [State.reg, State.setReg, afterWrite, h]

theorem State.reg_setReg_ne (s : State) {r q : Reg} (v : Word) (h : q ≠ r) : (s.setReg r v).reg q = s.reg q := by
  have hn : r.toNat ≠ q.toNat := fun e => h (BitVec.eq_of_toNat_eq e.symm)
  by_cases hq : q = 0#5
  · simp [State.reg, hq]
  · by_cases hr : r = 0#5
    · simp [State.reg, State.setReg, hr]
    · simp only [State.reg, State.setReg, hq, hr, if_false]
      exact Vector.getElem_set_ne _ _ hn

/-- A read of a general register after a write (R22). -/
theorem State.reg_setReg (s : State) (r q : Reg) (v : Word) :
    (s.setReg r v).reg q = if q = r then afterWrite r v else s.reg q := by
  split
  · next h => subst h; exact s.reg_setReg_same q v
  · next h => exact s.reg_setReg_ne v h

/-- The cell of `x[0]` is written by no write (R22). -/
@[simp] theorem State.setReg_zeroCell (s : State) (r : Reg) (v : Word) : (s.setReg r v).gprs[0] = s.gprs[0] := by
  by_cases h : r = 0#5
  · simp [State.setReg, h]
  · have hn : r.toNat ≠ 0 := fun e => h (BitVec.eq_of_toNat_eq e)
    simp only [State.setReg, h, if_false]
    exact Vector.getElem_set_ne _ _ hn

theorem State.fpr_setFpr_same (s : State) (n : FReg) (v : Word) : (s.setFpr n v).fpr n = v := by
  simp [State.fpr, State.setFpr]

theorem State.fpr_setFpr_ne (s : State) {n q : FReg} (v : Word) (h : q ≠ n) : (s.setFpr n v).fpr q = s.fpr q := by
  have hn : n.toNat ≠ q.toNat := fun e => h (BitVec.eq_of_toNat_eq e.symm)
  simp only [State.fpr, State.setFpr]
  exact Vector.getElem_set_ne _ _ hn

/-- A read of a floating-point register after a write (R30). -/
theorem State.fpr_setFpr (s : State) (n q : FReg) (v : Word) :
    (s.setFpr n v).fpr q = if q = n then v else s.fpr q := by
  split
  · next h => subst h; exact s.fpr_setFpr_same q v
  · next h => exact s.fpr_setFpr_ne v h

theorem freg_ne_next (n : FReg) : n ≠ n + 1#5 := by simp

theorem State.fpr_setDbl_first (s : State) (n : FReg) (v : DWord) :
    (s.setDbl n v).fpr n = pairFirst s.params.fpPairOrder v := by
  simp [State.setDbl, State.fpr_setFpr]

theorem State.fpr_setDbl_second (s : State) (n : FReg) (v : DWord) :
    (s.setDbl n v).fpr (n + 1#5) = pairSecond s.params.fpPairOrder v := by
  simp [State.setDbl, State.fpr_setFpr]

theorem State.fpr_setDbl_ne (s : State) {n q : FReg} (v : DWord) (h : q ∉ [n, n + 1#5]) :
    (s.setDbl n v).fpr q = s.fpr q := by
  simp only [List.mem_cons, List.not_mem_nil, or_false, not_or] at h
  simp [State.setDbl, State.fpr_setFpr, h]

/-- A double written to a pair reads back (R243). -/
theorem State.dbl_setDbl (s : State) (n : FReg) (v : DWord) : (s.setDbl n v).dbl n = v := by
  have hs : v.extractLsb' 32 32 ++ v.extractLsb' 0 32 = v := by
    apply BitVec.eq_of_getLsbD_eq
    intro i hi
    simp only [BitVec.getLsbD_append, BitVec.getLsbD_extractLsb']
    by_cases h : i < 32
    · simp [h]
    · simp [h, show i - 32 < 32 by omega, show 32 + (i - 32) = i by omega]
  simp only [State.dbl, State.fpr_setDbl_first, State.fpr_setDbl_second, State.setDbl_params]
  cases s.params.fpPairOrder <;> simpa [pairFirst, pairSecond] using hs

/-! ### Which registers have a value (R332; log 5) -/

/-- A write of a general register gives it a value, and no other register. -/
theorem State.hasValue_setReg (s : State) (r : Reg) (v : Word) (p : Piece) :
    (s.setReg r v).hasValue p = (decide (p = .gpr r) || s.hasValue p) := by
  cases p with
  | gpr q =>
    by_cases h : q = r
    · subst h; simp [State.hasValue, State.setReg]
    · have hn : r.toNat ≠ q.toNat := fun e => h (BitVec.eq_of_toNat_eq e.symm)
      simp [State.hasValue, State.setReg, h, Vector.getElem_set_ne _ _ hn]
  | _ => simp [State.hasValue, State.setReg]

/-- A write of a floating-point register gives it a value, and no other register. -/
theorem State.hasValue_setFpr (s : State) (n : FReg) (v : Word) (p : Piece) :
    (s.setFpr n v).hasValue p = (decide (p = .fpr n) || s.hasValue p) := by
  cases p with
  | fpr q =>
    by_cases h : q = n
    · subst h; simp [State.hasValue, State.setFpr]
    · have hn : n.toNat ≠ q.toNat := fun e => h (BitVec.eq_of_toNat_eq e.symm)
      simp [State.hasValue, State.setFpr, h, Vector.getElem_set_ne _ _ hn]
  | _ => simp [State.hasValue, State.setFpr]

theorem State.hasValue_setDbl (s : State) (n : FReg) (v : DWord) (p : Piece) :
    (s.setDbl n v).hasValue p = (decide (p = .fpr n) || decide (p = .fpr (n + 1#5)) || s.hasValue p) := by
  simp only [State.setDbl, State.hasValue_setFpr]
  rw [Bool.or_left_comm, Bool.or_assoc]

theorem State.hasValue_setHiLo (s : State) (h l : Word) (p : Piece) :
    (s.setHiLo h l).hasValue p = (decide (p = .hi) || decide (p = .lo) || s.hasValue p) := by
  cases p <;> simp [State.hasValue, State.setHiLo]

theorem State.hasValue_setFpcond (s : State) (b : Bool) (p : Piece) :
    (s.setFpcond b).hasValue p = (decide (p = .fpcond) || s.hasValue p) := by
  cases p <;> simp [State.hasValue, State.setFpcond]

/-- Which registers have a value depends on the model's record of them alone. -/
theorem State.hasValue_congr {s t : State} (h : t.written = s.written) {p : Piece} (hp : ∀ a, p ≠ .memory a) :
    t.hasValue p = s.hasValue p := by
  cases p with
  | memory a => exact absurd rfl (hp a)
  | _ => simp [State.hasValue, h]

@[simp] theorem State.advance_hasValue (s : State) (p : Piece) : s.advance.hasValue p = s.hasValue p := rfl
@[simp] theorem State.transfer_hasValue (s : State) (b : Bool) (a : Word) (p : Piece) :
    (s.transfer b a).hasValue p = s.hasValue p := rfl
@[simp] theorem State.setLink_hasValue (s : State) (a : Word) (p : Piece) : (s.setLink a).hasValue p = s.hasValue p := rfl
@[simp] theorem State.clearLink_hasValue (s : State) (p : Piece) : s.clearLink.hasValue p = s.hasValue p := rfl
@[simp] theorem State.drew_hasValue (s : State) (n : Nat) (p : Piece) : (s.drew n).hasValue p = s.hasValue p := rfl

/-! ### The program counter -/

/-- `advance` goes on in sequence, whatever else has been written (R28, R151). -/
theorem sequential_advance {s t : State} (hpc : t.pc = s.pc) (hn : t.npc = s.npc) (hp : t.params = s.params) :
    Sequential s t.advance := by
  cases h : s.params.branchDelay <;> simp [Sequential, State.advance, State.oneSlot, hp, h, hpc, hn]

/-- `transfer` goes to the target or on in sequence (R150, R151). -/
theorem transfers_transfer {s t : State} (taken : Bool) (a : Word) (hpc : t.pc = s.pc) (hn : t.npc = s.npc)
    (hp : t.params = s.params) : Transfers taken a s (t.transfer taken a) := by
  cases h : s.params.branchDelay <;> simp [Transfers, State.transfer, State.oneSlot, hp, h, hpc, hn]

/-! ### The checks of an access -/

theorem allFrom_iff {p : Nat → Bool} {a n : Nat} : allFrom p a n = true ↔ ∀ k, k < n → p (a + k) = true := by
  induction n generalizing a with
  | zero => simp [allFrom]
  | succ n ih =>
    simp only [allFrom, Bool.and_eq_true, ih]
    constructor
    · rintro ⟨h0, h⟩ k hk
      cases k with
      | zero => simpa using h0
      | succ k => have := h k (by omega); rwa [show a + 1 + k = a + (k + 1) by omega] at this
    · intro h
      refine ⟨by simpa using h 0 (by omega), fun k hk => ?_⟩
      have := h (k + 1) (by omega)
      rwa [show a + (k + 1) = a + 1 + k by omega] at this

/-- An access passes its checks when it is aligned and every byte of it is permitted (R54, R61, R66). -/
theorem State.accessOk_iff {s : State} {k : AccessKind} {n : Nat} {a : Word} :
    s.accessOk k n a = true ↔ a.toNat % n = 0 ∧ ∀ j, j < n → s.map.permits k (a.toNat + j) = true := by
  simp [State.accessOk, allFrom_iff]

/-- The checks depend on the map alone. -/
theorem State.accessOk_congr {s t : State} (h : t.map = s.map) (k : AccessKind) (n : Nat) (a : Word) :
    t.accessOk k n a = s.accessOk k n a := by
  simp [State.accessOk, h]

/-- The checks of a load or store say what `Access.Permitted` says. -/
theorem Access.permitted_iff {a : Access} {s : State} (hk : a.kind ≠ .fetch) :
    a.Permitted s ↔ s.accessOk a.kind a.size a.addr = true := by
  obtain ⟨k, n, b⟩ := a
  rw [State.accessOk_iff]
  cases k with
  | load => simp [Access.Permitted, MemMap.permits]
  | store => simp [Access.Permitted, MemMap.permits]
  | fetch => exact absurd rfl hk

/-- The bytes of an aligned access of a size that divides 2^32 do not wrap around. -/
theorem toNat_add_of_aligned {a : Word} {n k : Nat} (hn : n ∣ 2 ^ 32) (ha : a.toNat % n = 0) (hk : k < n) :
    (a + BitVec.ofNat 32 k).toNat = a.toNat + k := by
  have hlt := a.isLt
  have h1 : n ∣ a.toNat := Nat.dvd_of_mod_eq_zero ha
  have h2 : a.toNat + n ≤ 2 ^ 32 := by
    obtain ⟨c, hc⟩ := h1; obtain ⟨d, hd⟩ := hn
    have h3 : n * c < n * d := by omega
    have h4 : c + 1 ≤ d := Nat.lt_of_mul_lt_mul_left h3
    have h5 : n * (c + 1) ≤ n * d := Nat.mul_le_mul_left n h4
    rw [Nat.mul_succ] at h5
    omega
  rw [BitVec.toNat_add, BitVec.toNat_ofNat, Nat.mod_eq_of_lt (a := k) (by omega), Nat.mod_eq_of_lt (by omega)]

/-! ### Operations that end in a result -/

theorem raise_ne_next {e : Word → State → Fault} {s t : State} : raise e s ≠ .next t := nofun

/-- What a checked access can do. -/
theorem checked_cases (k : AccessKind) (n : Nat) (a : Word) (s : State) (body : Result) :
    (s.accessOk k n a = true ∧ checked k n a s body = body) ∨
    (s.accessOk k n a = false ∧ checked k n a s body = raise (.addressError k a) s) := by
  cases h : s.accessOk k n a <;> simp [checked, h]

/-- What going on with a read value can do. -/
theorem withValue_cases {α : Type} (v : Option α) (a : Word) (s : State) (body : α → Result) :
    (∃ x, v = some x ∧ withValue v a s body = body x) ∨
    (v = none ∧ withValue v a s body = .fault (.uninitialisedRead (.memory a) s.pc s)) := by
  cases v <;> simp [withValue]

/-- What a load can do: complete, raise AddressError, or read a byte that has no value (R170, R332). -/
theorem load_cases {α : Type} (n : Nat) (read : State → Word → Option α) (a : Word) (s : State) (f : α → State) :
    (∃ v, s.accessOk .load n a = true ∧ read s a = some v ∧ load n read a s f = .next (f v).advance) ∨
    (s.accessOk .load n a = false ∧ load n read a s f = raise (.addressError .load a) s) ∨
    (s.accessOk .load n a = true ∧ read s a = none ∧ load n read a s f = .fault (.uninitialisedRead (.memory a) s.pc s)) := by
  unfold load
  rcases checked_cases .load n a s (withValue (read s a) a s fun v => .next (f v).advance) with ⟨h, e⟩ | ⟨h, e⟩
  · rcases withValue_cases (read s a) a s fun v => .next (f v).advance with ⟨v, hv, e'⟩ | ⟨hv, e'⟩
    · exact .inl ⟨v, h, hv, by rw [e, e']⟩
    · exact .inr (.inr ⟨h, hv, by rw [e, e']⟩)
  · exact .inr (.inl ⟨h, e⟩)

/-- What a store can do (R170). -/
theorem store_cases (n : Nat) (a : Word) (s written : State) :
    (s.accessOk .store n a = true ∧ store n a s written = .next written.advance) ∨
    (s.accessOk .store n a = false ∧ store n a s written = raise (.addressError .store a) s) :=
  checked_cases .store n a s (.next written.advance)

/-- What an instruction on doubles can do first (R243). -/
theorem requireEven_cases (i : Instr) (regs : List FReg) (s : State) (body : Result) :
    (regs.all evenFReg = true ∧ requireEven i regs s body = body) ∨
    (regs.all evenFReg = false ∧ requireEven i regs s body = raise (.reservedInstruction (encode i)) s) := by
  cases h : regs.all evenFReg <;> simp only [requireEven, h, if_true, Bool.false_eq_true, if_false] <;> simp

theorem notInSlot_iff {s : State} : NotInSlot s ↔ (s.oneSlot && s.inDelaySlot) = false := by
  simp only [NotInSlot, State.oneSlot]
  cases s.params.branchDelay <;> cases s.inDelaySlot <;> decide

/-- What a branch or jump can do first (R151, R304 (c)). -/
theorem outsideDelaySlot_cases (i : Instr) (s : State) (body : Result) :
    (NotInSlot s ∧ outsideDelaySlot i s body = body) ∨
    (¬ NotInSlot s ∧ outsideDelaySlot i s body = raise (.reservedInstruction (encode i)) s) := by
  rw [notInSlot_iff]
  cases h : (s.oneSlot && s.inDelaySlot) <;> simp [outsideDelaySlot, h]

/-- What a store comes to read: its data, or nothing where its address fails the checks (R170). -/
theorem State.mem_storeData {s : State} {n : Nat} {a : Word} {data : List Piece} {p : Piece} :
    p ∈ s.storeData n a data ↔ s.accessOk .store n a = true ∧ p ∈ data := by
  cases h : s.accessOk .store n a <;> simp [State.storeData, h]

/-- The test before the reads of registers says what `ReservedForm` says (R304 (b), (c)). -/
theorem State.reservedHere_iff {s : State} {i : Instr} : s.reservedHere i = true ↔ ReservedForm s i := by
  simp only [State.reservedHere, ReservedForm, notInSlot_iff]
  cases i.wellFormed <;> cases isTransfer i <;> cases s.oneSlot <;> cases s.inDelaySlot <;> decide

/-- No read of a register ends the run exactly when the registers read have values, where that matters. -/
theorem State.valuelessSource_eq_none {s : State} {i : Instr} : s.valuelessSource i = none ↔ ReadsValues s i := by
  cases hp : s.params.uninitRead <;> cases hr : s.reservedHere i <;>
    simp [State.valuelessSource, ReadsValues, hp, hr, ← State.reservedHere_iff]

/-- The read of a register ends the run with the first register read that has no value. -/
theorem State.valuelessSource_eq_some {s : State} {i : Instr} {p : Piece} : s.valuelessSource i = some p ↔
    s.params.uninitRead = .fault ∧ ¬ ReservedForm s i ∧ s.hasValue p = false ∧
      ∃ before after, registerSources s i = before ++ p :: after ∧ ∀ q ∈ before, s.hasValue q = true := by
  cases hp : s.params.uninitRead <;> cases hr : s.reservedHere i <;>
    simp [State.valuelessSource, hp, hr, ← State.reservedHere_iff, List.find?_eq_some_iff_append]

/-- What the reads of registers can do (R332). -/
theorem readingRegisters_cases (i : Instr) (s : State) (body : Result) :
    (∃ p, s.valuelessSource i = some p ∧ readingRegisters i s body = .fault (.uninitialisedRead p s.pc s)) ∨
    (s.valuelessSource i = none ∧ readingRegisters i s body = body) := by
  cases h : s.valuelessSource i <;> simp [readingRegisters, h]

theorem load_eq_next {α : Type} {n : Nat} {read : State → Word → Option α} {a : Word} {s t : State} {f : α → State}
    (h : load n read a s f = .next t) :
    ∃ v, s.accessOk .load n a = true ∧ read s a = some v ∧ t = (f v).advance := by
  rcases load_cases n read a s f with ⟨v, h1, h2, e⟩ | ⟨_, e⟩ | ⟨_, _, e⟩ <;> rw [e] at h
  · exact ⟨v, h1, h2, (Host.Outcome.next.inj h).symm⟩
  · exact absurd h raise_ne_next
  · exact absurd h nofun

theorem store_eq_next {n : Nat} {a : Word} {s t written : State} (h : store n a s written = .next t) :
    s.accessOk .store n a = true ∧ t = written.advance := by
  rcases store_cases n a s written with ⟨h1, e⟩ | ⟨_, e⟩ <;> rw [e] at h
  · exact ⟨h1, (Host.Outcome.next.inj h).symm⟩
  · exact absurd h raise_ne_next

theorem requireEven_eq_next {i : Instr} {regs : List FReg} {s t : State} {body : Result}
    (h : requireEven i regs s body = .next t) : regs.all evenFReg = true ∧ body = .next t := by
  rcases requireEven_cases i regs s body with ⟨h1, e⟩ | ⟨_, e⟩ <;> rw [e] at h
  · exact ⟨h1, h⟩
  · exact absurd h raise_ne_next

theorem outsideDelaySlot_eq_next {i : Instr} {s t : State} {body : Result}
    (h : outsideDelaySlot i s body = .next t) : NotInSlot s ∧ body = .next t := by
  rcases outsideDelaySlot_cases i s body with ⟨h1, e⟩ | ⟨_, e⟩ <;> rw [e] at h
  · exact ⟨h1, h⟩
  · exact absurd h raise_ne_next

/-! ### Reads of several bytes -/

/-- A halfword reads as a value when both its bytes do (R52). -/
theorem State.halfAt_eq_some {s : State} {a : Word} {v : Half} : s.halfAt a = some v ↔
    ∃ b0 b1, s.byteAt a = some b0 ∧ s.byteAt (a + 1#32) = some b1 ∧ v = joinHalf s.params.byteOrder b0 b1 := by
  unfold State.halfAt
  cases s.byteAt a <;> cases s.byteAt (a + 1#32) <;> simp [eq_comm]

/-- A word reads as a value when its four bytes do (R52). -/
theorem State.wordAt_eq_some {s : State} {a v : Word} : s.wordAt a = some v ↔
    ∃ b0 b1 b2 b3, s.byteAt a = some b0 ∧ s.byteAt (a + 1#32) = some b1 ∧ s.byteAt (a + 2#32) = some b2 ∧
      s.byteAt (a + 3#32) = some b3 ∧ v = joinWord s.params.byteOrder b0 b1 b2 b3 := by
  unfold State.wordAt
  cases s.byteAt a <;> cases s.byteAt (a + 1#32) <;> cases s.byteAt (a + 2#32) <;> cases s.byteAt (a + 3#32) <;>
    simp [eq_comm]

end Sys2Proof.Machine
end

