-- ==== Sys2Proof/Laws/PerInstr.lean ====
section
/-! SUPPORT. Statements for all instructions, one lemma per instruction. Family RowAcceptsWord: the word that the encoder
writes is of a row of the opcode table, and that row builds the instruction back from its fields (R99). -/

namespace Sys2Proof.Laws.RowAcceptsWord

/-- Some row of the table accepts the instruction's word and builds the instruction from it. -/
def Statement (i : Instr) : Prop := ∃ r ∈ opcodeTable, r.accepts (encode i) = true ∧ r.build (encode i) = i

theorem add (rd : Reg) (rs : Reg) (rt : Reg) : Statement (.add rd rs rt) := by
  refine ⟨⟨"add", 0x00000020#32, 0xfc0007ff#32, fun w => .add (fRd w) (fRs w) (fRt w)⟩,
    List.mem_of_getElem? (i := 0) rfl, ?_, ?_⟩
  · simp only [Row.accepts, encode, beq_iff_eq]
    rw [show 0xfc0007ff#32 = encR 0x3f 0#5 0#5 0#5 0x1f 0x3f by decide, encR_and]
    simp only [BitVec.and_zero]
    decide
  · simp [encode]

theorem addi (rt : Reg) (rs : Reg) (imm : Imm) : Statement (.addi rt rs imm) := by
  refine ⟨⟨"addi", 0x20000000#32, 0xfc000000#32, fun w => .addi (fRt w) (fRs w) (fImm w)⟩,
    List.mem_of_getElem? (i := 1) rfl, ?_, ?_⟩
  · simp only [Row.accepts, encode, beq_iff_eq]
    rw [show 0xfc000000#32 = encI 0x3f 0#5 0#5 0#16 by decide, encI_and]
    simp only [BitVec.and_zero]
    decide
  · simp [encode]

theorem addiu (rt : Reg) (rs : Reg) (imm : Imm) : Statement (.addiu rt rs imm) := by
  refine ⟨⟨"addiu", 0x24000000#32, 0xfc000000#32, fun w => .addiu (fRt w) (fRs w) (fImm w)⟩,
    List.mem_of_getElem? (i := 2) rfl, ?_, ?_⟩
  · simp only [Row.accepts, encode, beq_iff_eq]
    rw [show 0xfc000000#32 = encI 0x3f 0#5 0#5 0#16 by decide, encI_and]
    simp only [BitVec.and_zero]
    decide
  · simp [encode]

theorem addu (rd : Reg) (rs : Reg) (rt : Reg) : Statement (.addu rd rs rt) := by
  refine ⟨⟨"addu", 0x00000021#32, 0xfc0007ff#32, fun w => .addu (fRd w) (fRs w) (fRt w)⟩,
    List.mem_of_getElem? (i := 3) rfl, ?_, ?_⟩
  · simp only [Row.accepts, encode, beq_iff_eq]
    rw [show 0xfc0007ff#32 = encR 0x3f 0#5 0#5 0#5 0x1f 0x3f by decide, encR_and]
    simp only [BitVec.and_zero]
    decide
  · simp [encode]

theorem sub (rd : Reg) (rs : Reg) (rt : Reg) : Statement (.sub rd rs rt) := by
  refine ⟨⟨"sub", 0x00000022#32, 0xfc0007ff#32, fun w => .sub (fRd w) (fRs w) (fRt w)⟩,
    List.mem_of_getElem? (i := 4) rfl, ?_, ?_⟩
  · simp only [Row.accepts, encode, beq_iff_eq]
    rw [show 0xfc0007ff#32 = encR 0x3f 0#5 0#5 0#5 0x1f 0x3f by decide, encR_and]
    simp only [BitVec.and_zero]
    decide
  · simp [encode]

theorem subu (rd : Reg) (rs : Reg) (rt : Reg) : Statement (.subu rd rs rt) := by
  refine ⟨⟨"subu", 0x00000023#32, 0xfc0007ff#32, fun w => .subu (fRd w) (fRs w) (fRt w)⟩,
    List.mem_of_getElem? (i := 5) rfl, ?_, ?_⟩
  · simp only [Row.accepts, encode, beq_iff_eq]
    rw [show 0xfc0007ff#32 = encR 0x3f 0#5 0#5 0#5 0x1f 0x3f by decide, encR_and]
    simp only [BitVec.and_zero]
    decide
  · simp [encode]

theorem slt (rd : Reg) (rs : Reg) (rt : Reg) : Statement (.slt rd rs rt) := by
  refine ⟨⟨"slt", 0x0000002a#32, 0xfc0007ff#32, fun w => .slt (fRd w) (fRs w) (fRt w)⟩,
    List.mem_of_getElem? (i := 6) rfl, ?_, ?_⟩
  · simp only [Row.accepts, encode, beq_iff_eq]
    rw [show 0xfc0007ff#32 = encR 0x3f 0#5 0#5 0#5 0x1f 0x3f by decide, encR_and]
    simp only [BitVec.and_zero]
    decide
  · simp [encode]

theorem sltu (rd : Reg) (rs : Reg) (rt : Reg) : Statement (.sltu rd rs rt) := by
  refine ⟨⟨"sltu", 0x0000002b#32, 0xfc0007ff#32, fun w => .sltu (fRd w) (fRs w) (fRt w)⟩,
    List.mem_of_getElem? (i := 7) rfl, ?_, ?_⟩
  · simp only [Row.accepts, encode, beq_iff_eq]
    rw [show 0xfc0007ff#32 = encR 0x3f 0#5 0#5 0#5 0x1f 0x3f by decide, encR_and]
    simp only [BitVec.and_zero]
    decide
  · simp [encode]

theorem slti (rt : Reg) (rs : Reg) (imm : Imm) : Statement (.slti rt rs imm) := by
  refine ⟨⟨"slti", 0x28000000#32, 0xfc000000#32, fun w => .slti (fRt w) (fRs w) (fImm w)⟩,
    List.mem_of_getElem? (i := 8) rfl, ?_, ?_⟩
  · simp only [Row.accepts, encode, beq_iff_eq]
    rw [show 0xfc000000#32 = encI 0x3f 0#5 0#5 0#16 by decide, encI_and]
    simp only [BitVec.and_zero]
    decide
  · simp [encode]

theorem sltiu (rt : Reg) (rs : Reg) (imm : Imm) : Statement (.sltiu rt rs imm) := by
  refine ⟨⟨"sltiu", 0x2c000000#32, 0xfc000000#32, fun w => .sltiu (fRt w) (fRs w) (fImm w)⟩,
    List.mem_of_getElem? (i := 9) rfl, ?_, ?_⟩
  · simp only [Row.accepts, encode, beq_iff_eq]
    rw [show 0xfc000000#32 = encI 0x3f 0#5 0#5 0#16 by decide, encI_and]
    simp only [BitVec.and_zero]
    decide
  · simp [encode]

theorem and (rd : Reg) (rs : Reg) (rt : Reg) : Statement (.and rd rs rt) := by
  refine ⟨⟨"and", 0x00000024#32, 0xfc0007ff#32, fun w => .and (fRd w) (fRs w) (fRt w)⟩,
    List.mem_of_getElem? (i := 10) rfl, ?_, ?_⟩
  · simp only [Row.accepts, encode, beq_iff_eq]
    rw [show 0xfc0007ff#32 = encR 0x3f 0#5 0#5 0#5 0x1f 0x3f by decide, encR_and]
    simp only [BitVec.and_zero]
    decide
  · simp [encode]

theorem andi (rt : Reg) (rs : Reg) (imm : Imm) : Statement (.andi rt rs imm) := by
  refine ⟨⟨"andi", 0x30000000#32, 0xfc000000#32, fun w => .andi (fRt w) (fRs w) (fImm w)⟩,
    List.mem_of_getElem? (i := 11) rfl, ?_, ?_⟩
  · simp only [Row.accepts, encode, beq_iff_eq]
    rw [show 0xfc000000#32 = encI 0x3f 0#5 0#5 0#16 by decide, encI_and]
    simp only [BitVec.and_zero]
    decide
  · simp [encode]

theorem or (rd : Reg) (rs : Reg) (rt : Reg) : Statement (.or rd rs rt) := by
  refine ⟨⟨"or", 0x00000025#32, 0xfc0007ff#32, fun w => .or (fRd w) (fRs w) (fRt w)⟩,
    List.mem_of_getElem? (i := 12) rfl, ?_, ?_⟩
  · simp only [Row.accepts, encode, beq_iff_eq]
    rw [show 0xfc0007ff#32 = encR 0x3f 0#5 0#5 0#5 0x1f 0x3f by decide, encR_and]
    simp only [BitVec.and_zero]
    decide
  · simp [encode]

theorem ori (rt : Reg) (rs : Reg) (imm : Imm) : Statement (.ori rt rs imm) := by
  refine ⟨⟨"ori", 0x34000000#32, 0xfc000000#32, fun w => .ori (fRt w) (fRs w) (fImm w)⟩,
    List.mem_of_getElem? (i := 13) rfl, ?_, ?_⟩
  · simp only [Row.accepts, encode, beq_iff_eq]
    rw [show 0xfc000000#32 = encI 0x3f 0#5 0#5 0#16 by decide, encI_and]
    simp only [BitVec.and_zero]
    decide
  · simp [encode]

theorem nor (rd : Reg) (rs : Reg) (rt : Reg) : Statement (.nor rd rs rt) := by
  refine ⟨⟨"nor", 0x00000027#32, 0xfc0007ff#32, fun w => .nor (fRd w) (fRs w) (fRt w)⟩,
    List.mem_of_getElem? (i := 14) rfl, ?_, ?_⟩
  · simp only [Row.accepts, encode, beq_iff_eq]
    rw [show 0xfc0007ff#32 = encR 0x3f 0#5 0#5 0#5 0x1f 0x3f by decide, encR_and]
    simp only [BitVec.and_zero]
    decide
  · simp [encode]

theorem xor (rd : Reg) (rs : Reg) (rt : Reg) : Statement (.xor rd rs rt) := by
  refine ⟨⟨"xor", 0x00000026#32, 0xfc0007ff#32, fun w => .xor (fRd w) (fRs w) (fRt w)⟩,
    List.mem_of_getElem? (i := 15) rfl, ?_, ?_⟩
  · simp only [Row.accepts, encode, beq_iff_eq]
    rw [show 0xfc0007ff#32 = encR 0x3f 0#5 0#5 0#5 0x1f 0x3f by decide, encR_and]
    simp only [BitVec.and_zero]
    decide
  · simp [encode]

theorem sll (rd : Reg) (rt : Reg) (shamt : BitVec 5) : Statement (.sll rd rt shamt) := by
  refine ⟨⟨"sll", 0x00000000#32, 0xffe0003f#32, fun w => .sll (fRd w) (fRt w) (fShamt w)⟩,
    List.mem_of_getElem? (i := 16) rfl, ?_, ?_⟩
  · simp only [Row.accepts, encode, beq_iff_eq]
    rw [show 0xffe0003f#32 = encR 0x3f 0x1f 0#5 0#5 0#5 0x3f by decide, encR_and]
    simp only [BitVec.and_zero]
    decide
  · simp [encode]

theorem srl (rd : Reg) (rt : Reg) (shamt : BitVec 5) : Statement (.srl rd rt shamt) := by
  refine ⟨⟨"srl", 0x00000002#32, 0xffe0003f#32, fun w => .srl (fRd w) (fRt w) (fShamt w)⟩,
    List.mem_of_getElem? (i := 17) rfl, ?_, ?_⟩
  · simp only [Row.accepts, encode, beq_iff_eq]
    rw [show 0xffe0003f#32 = encR 0x3f 0x1f 0#5 0#5 0#5 0x3f by decide, encR_and]
    simp only [BitVec.and_zero]
    decide
  · simp [encode]

theorem sra (rd : Reg) (rt : Reg) (shamt : BitVec 5) : Statement (.sra rd rt shamt) := by
  refine ⟨⟨"sra", 0x00000003#32, 0xffe0003f#32, fun w => .sra (fRd w) (fRt w) (fShamt w)⟩,
    List.mem_of_getElem? (i := 18) rfl, ?_, ?_⟩
  · simp only [Row.accepts, encode, beq_iff_eq]
    rw [show 0xffe0003f#32 = encR 0x3f 0x1f 0#5 0#5 0#5 0x3f by decide, encR_and]
    simp only [BitVec.and_zero]
    decide
  · simp [encode]

theorem beq (rs : Reg) (rt : Reg) (imm : Imm) : Statement (.beq rs rt imm) := by
  refine ⟨⟨"beq", 0x10000000#32, 0xfc000000#32, fun w => .beq (fRs w) (fRt w) (fImm w)⟩,
    List.mem_of_getElem? (i := 19) rfl, ?_, ?_⟩
  · simp only [Row.accepts, encode, beq_iff_eq]
    rw [show 0xfc000000#32 = encI 0x3f 0#5 0#5 0#16 by decide, encI_and]
    simp only [BitVec.and_zero]
    decide
  · simp [encode]

theorem bne (rs : Reg) (rt : Reg) (imm : Imm) : Statement (.bne rs rt imm) := by
  refine ⟨⟨"bne", 0x14000000#32, 0xfc000000#32, fun w => .bne (fRs w) (fRt w) (fImm w)⟩,
    List.mem_of_getElem? (i := 20) rfl, ?_, ?_⟩
  · simp only [Row.accepts, encode, beq_iff_eq]
    rw [show 0xfc000000#32 = encI 0x3f 0#5 0#5 0#16 by decide, encI_and]
    simp only [BitVec.and_zero]
    decide
  · simp [encode]

theorem j (address : BitVec 26) : Statement (.j address) := by
  refine ⟨⟨"j", 0x08000000#32, 0xfc000000#32, fun w => .j (fAddress w)⟩,
    List.mem_of_getElem? (i := 21) rfl, ?_, ?_⟩
  · simp only [Row.accepts, encode, beq_iff_eq]
    rw [show 0xfc000000#32 = encJ 0x3f 0#26 by decide, encJ_and]
    simp only [BitVec.and_zero]
    decide
  · simp [encode]

theorem jal (address : BitVec 26) : Statement (.jal address) := by
  refine ⟨⟨"jal", 0x0c000000#32, 0xfc000000#32, fun w => .jal (fAddress w)⟩,
    List.mem_of_getElem? (i := 22) rfl, ?_, ?_⟩
  · simp only [Row.accepts, encode, beq_iff_eq]
    rw [show 0xfc000000#32 = encJ 0x3f 0#26 by decide, encJ_and]
    simp only [BitVec.and_zero]
    decide
  · simp [encode]

theorem jr (rs : Reg) : Statement (.jr rs) := by
  refine ⟨⟨"jr", 0x00000008#32, 0xfc1fffff#32, fun w => .jr (fRs w)⟩,
    List.mem_of_getElem? (i := 23) rfl, ?_, ?_⟩
  · simp only [Row.accepts, encode, beq_iff_eq]
    rw [show 0xfc1fffff#32 = encR 0x3f 0#5 0x1f 0x1f 0x1f 0x3f by decide, encR_and]
    simp only [BitVec.and_zero]
    decide
  · simp [encode]

theorem lw (rt : Reg) (imm : Imm) (rs : Reg) : Statement (.lw rt imm rs) := by
  refine ⟨⟨"lw", 0x8c000000#32, 0xfc000000#32, fun w => .lw (fRt w) (fImm w) (fRs w)⟩,
    List.mem_of_getElem? (i := 24) rfl, ?_, ?_⟩
  · simp only [Row.accepts, encode, beq_iff_eq]
    rw [show 0xfc000000#32 = encI 0x3f 0#5 0#5 0#16 by decide, encI_and]
    simp only [BitVec.and_zero]
    decide
  · simp [encode]

theorem lbu (rt : Reg) (imm : Imm) (rs : Reg) : Statement (.lbu rt imm rs) := by
  refine ⟨⟨"lbu", 0x90000000#32, 0xfc000000#32, fun w => .lbu (fRt w) (fImm w) (fRs w)⟩,
    List.mem_of_getElem? (i := 25) rfl, ?_, ?_⟩
  · simp only [Row.accepts, encode, beq_iff_eq]
    rw [show 0xfc000000#32 = encI 0x3f 0#5 0#5 0#16 by decide, encI_and]
    simp only [BitVec.and_zero]
    decide
  · simp [encode]

theorem lb (rt : Reg) (imm : Imm) (rs : Reg) : Statement (.lb rt imm rs) := by
  refine ⟨⟨"lb", 0x80000000#32, 0xfc000000#32, fun w => .lb (fRt w) (fImm w) (fRs w)⟩,
    List.mem_of_getElem? (i := 26) rfl, ?_, ?_⟩
  · simp only [Row.accepts, encode, beq_iff_eq]
    rw [show 0xfc000000#32 = encI 0x3f 0#5 0#5 0#16 by decide, encI_and]
    simp only [BitVec.and_zero]
    decide
  · simp [encode]

theorem lhu (rt : Reg) (imm : Imm) (rs : Reg) : Statement (.lhu rt imm rs) := by
  refine ⟨⟨"lhu", 0x94000000#32, 0xfc000000#32, fun w => .lhu (fRt w) (fImm w) (fRs w)⟩,
    List.mem_of_getElem? (i := 27) rfl, ?_, ?_⟩
  · simp only [Row.accepts, encode, beq_iff_eq]
    rw [show 0xfc000000#32 = encI 0x3f 0#5 0#5 0#16 by decide, encI_and]
    simp only [BitVec.and_zero]
    decide
  · simp [encode]

theorem lh (rt : Reg) (imm : Imm) (rs : Reg) : Statement (.lh rt imm rs) := by
  refine ⟨⟨"lh", 0x84000000#32, 0xfc000000#32, fun w => .lh (fRt w) (fImm w) (fRs w)⟩,
    List.mem_of_getElem? (i := 28) rfl, ?_, ?_⟩
  · simp only [Row.accepts, encode, beq_iff_eq]
    rw [show 0xfc000000#32 = encI 0x3f 0#5 0#5 0#16 by decide, encI_and]
    simp only [BitVec.and_zero]
    decide
  · simp [encode]

theorem sw (rt : Reg) (imm : Imm) (rs : Reg) : Statement (.sw rt imm rs) := by
  refine ⟨⟨"sw", 0xac000000#32, 0xfc000000#32, fun w => .sw (fRt w) (fImm w) (fRs w)⟩,
    List.mem_of_getElem? (i := 29) rfl, ?_, ?_⟩
  · simp only [Row.accepts, encode, beq_iff_eq]
    rw [show 0xfc000000#32 = encI 0x3f 0#5 0#5 0#16 by decide, encI_and]
    simp only [BitVec.and_zero]
    decide
  · simp [encode]

theorem sb (rt : Reg) (imm : Imm) (rs : Reg) : Statement (.sb rt imm rs) := by
  refine ⟨⟨"sb", 0xa0000000#32, 0xfc000000#32, fun w => .sb (fRt w) (fImm w) (fRs w)⟩,
    List.mem_of_getElem? (i := 30) rfl, ?_, ?_⟩
  · simp only [Row.accepts, encode, beq_iff_eq]
    rw [show 0xfc000000#32 = encI 0x3f 0#5 0#5 0#16 by decide, encI_and]
    simp only [BitVec.and_zero]
    decide
  · simp [encode]

theorem sh (rt : Reg) (imm : Imm) (rs : Reg) : Statement (.sh rt imm rs) := by
  refine ⟨⟨"sh", 0xa4000000#32, 0xfc000000#32, fun w => .sh (fRt w) (fImm w) (fRs w)⟩,
    List.mem_of_getElem? (i := 31) rfl, ?_, ?_⟩
  · simp only [Row.accepts, encode, beq_iff_eq]
    rw [show 0xfc000000#32 = encI 0x3f 0#5 0#5 0#16 by decide, encI_and]
    simp only [BitVec.and_zero]
    decide
  · simp [encode]

theorem lui (rt : Reg) (imm : Imm) : Statement (.lui rt imm) := by
  refine ⟨⟨"lui", 0x3c000000#32, 0xffe00000#32, fun w => .lui (fRt w) (fImm w)⟩,
    List.mem_of_getElem? (i := 32) rfl, ?_, ?_⟩
  · simp only [Row.accepts, encode, beq_iff_eq]
    rw [show 0xffe00000#32 = encI 0x3f 0x1f 0#5 0#16 by decide, encI_and]
    simp only [BitVec.and_zero]
    decide
  · simp [encode]

theorem ll (rt : Reg) (imm : Imm) (rs : Reg) : Statement (.ll rt imm rs) := by
  refine ⟨⟨"ll", 0xc0000000#32, 0xfc000000#32, fun w => .ll (fRt w) (fImm w) (fRs w)⟩,
    List.mem_of_getElem? (i := 33) rfl, ?_, ?_⟩
  · simp only [Row.accepts, encode, beq_iff_eq]
    rw [show 0xfc000000#32 = encI 0x3f 0#5 0#5 0#16 by decide, encI_and]
    simp only [BitVec.and_zero]
    decide
  · simp [encode]

theorem sc (rt : Reg) (imm : Imm) (rs : Reg) : Statement (.sc rt imm rs) := by
  refine ⟨⟨"sc", 0xe0000000#32, 0xfc000000#32, fun w => .sc (fRt w) (fImm w) (fRs w)⟩,
    List.mem_of_getElem? (i := 34) rfl, ?_, ?_⟩
  · simp only [Row.accepts, encode, beq_iff_eq]
    rw [show 0xfc000000#32 = encI 0x3f 0#5 0#5 0#16 by decide, encI_and]
    simp only [BitVec.and_zero]
    decide
  · simp [encode]

theorem mult (rs : Reg) (rt : Reg) : Statement (.mult rs rt) := by
  refine ⟨⟨"mult", 0x00000018#32, 0xfc00ffff#32, fun w => .mult (fRs w) (fRt w)⟩,
    List.mem_of_getElem? (i := 35) rfl, ?_, ?_⟩
  · simp only [Row.accepts, encode, beq_iff_eq]
    rw [show 0xfc00ffff#32 = encR 0x3f 0#5 0#5 0x1f 0x1f 0x3f by decide, encR_and]
    simp only [BitVec.and_zero]
    decide
  · simp [encode]

theorem multu (rs : Reg) (rt : Reg) : Statement (.multu rs rt) := by
  refine ⟨⟨"multu", 0x00000019#32, 0xfc00ffff#32, fun w => .multu (fRs w) (fRt w)⟩,
    List.mem_of_getElem? (i := 36) rfl, ?_, ?_⟩
  · simp only [Row.accepts, encode, beq_iff_eq]
    rw [show 0xfc00ffff#32 = encR 0x3f 0#5 0#5 0x1f 0x1f 0x3f by decide, encR_and]
    simp only [BitVec.and_zero]
    decide
  · simp [encode]

theorem div (rs : Reg) (rt : Reg) : Statement (.div rs rt) := by
  refine ⟨⟨"div", 0x0000001a#32, 0xfc00ffff#32, fun w => .div (fRs w) (fRt w)⟩,
    List.mem_of_getElem? (i := 37) rfl, ?_, ?_⟩
  · simp only [Row.accepts, encode, beq_iff_eq]
    rw [show 0xfc00ffff#32 = encR 0x3f 0#5 0#5 0x1f 0x1f 0x3f by decide, encR_and]
    simp only [BitVec.and_zero]
    decide
  · simp [encode]

theorem divu (rs : Reg) (rt : Reg) : Statement (.divu rs rt) := by
  refine ⟨⟨"divu", 0x0000001b#32, 0xfc00ffff#32, fun w => .divu (fRs w) (fRt w)⟩,
    List.mem_of_getElem? (i := 38) rfl, ?_, ?_⟩
  · simp only [Row.accepts, encode, beq_iff_eq]
    rw [show 0xfc00ffff#32 = encR 0x3f 0#5 0#5 0x1f 0x1f 0x3f by decide, encR_and]
    simp only [BitVec.and_zero]
    decide
  · simp [encode]

theorem mfhi (rd : Reg) : Statement (.mfhi rd) := by
  refine ⟨⟨"mfhi", 0x00000010#32, 0xffff07ff#32, fun w => .mfhi (fRd w)⟩,
    List.mem_of_getElem? (i := 39) rfl, ?_, ?_⟩
  · simp only [Row.accepts, encode, beq_iff_eq]
    rw [show 0xffff07ff#32 = encR 0x3f 0x1f 0x1f 0#5 0x1f 0x3f by decide, encR_and]
    simp only [BitVec.and_zero]
    decide
  · simp [encode]

theorem mflo (rd : Reg) : Statement (.mflo rd) := by
  refine ⟨⟨"mflo", 0x00000012#32, 0xffff07ff#32, fun w => .mflo (fRd w)⟩,
    List.mem_of_getElem? (i := 40) rfl, ?_, ?_⟩
  · simp only [Row.accepts, encode, beq_iff_eq]
    rw [show 0xffff07ff#32 = encR 0x3f 0x1f 0x1f 0#5 0x1f 0x3f by decide, encR_and]
    simp only [BitVec.and_zero]
    decide
  · simp [encode]

theorem addS (fd : FReg) (fs : FReg) (ft : FReg) : Statement (.addS fd fs ft) := by
  refine ⟨⟨"add.s", 0x46000000#32, 0xffe0003f#32, fun w => .addS (fShamt w) (fRd w) (fRt w)⟩,
    List.mem_of_getElem? (i := 41) rfl, ?_, ?_⟩
  · simp only [Row.accepts, encode, beq_iff_eq]
    rw [show 0xffe0003f#32 = encR 0x3f 0x1f 0#5 0#5 0#5 0x3f by decide, encR_and]
    simp only [BitVec.and_zero]
    decide
  · simp [encode]

theorem addD (fd : FReg) (fs : FReg) (ft : FReg) : Statement (.addD fd fs ft) := by
  refine ⟨⟨"add.d", 0x46200000#32, 0xffe0003f#32, fun w => .addD (fShamt w) (fRd w) (fRt w)⟩,
    List.mem_of_getElem? (i := 42) rfl, ?_, ?_⟩
  · simp only [Row.accepts, encode, beq_iff_eq]
    rw [show 0xffe0003f#32 = encR 0x3f 0x1f 0#5 0#5 0#5 0x3f by decide, encR_and]
    simp only [BitVec.and_zero]
    decide
  · simp [encode]

theorem subS (fd : FReg) (fs : FReg) (ft : FReg) : Statement (.subS fd fs ft) := by
  refine ⟨⟨"sub.s", 0x46000001#32, 0xffe0003f#32, fun w => .subS (fShamt w) (fRd w) (fRt w)⟩,
    List.mem_of_getElem? (i := 43) rfl, ?_, ?_⟩
  · simp only [Row.accepts, encode, beq_iff_eq]
    rw [show 0xffe0003f#32 = encR 0x3f 0x1f 0#5 0#5 0#5 0x3f by decide, encR_and]
    simp only [BitVec.and_zero]
    decide
  · simp [encode]

theorem subD (fd : FReg) (fs : FReg) (ft : FReg) : Statement (.subD fd fs ft) := by
  refine ⟨⟨"sub.d", 0x46200001#32, 0xffe0003f#32, fun w => .subD (fShamt w) (fRd w) (fRt w)⟩,
    List.mem_of_getElem? (i := 44) rfl, ?_, ?_⟩
  · simp only [Row.accepts, encode, beq_iff_eq]
    rw [show 0xffe0003f#32 = encR 0x3f 0x1f 0#5 0#5 0#5 0x3f by decide, encR_and]
    simp only [BitVec.and_zero]
    decide
  · simp [encode]

theorem mulS (fd : FReg) (fs : FReg) (ft : FReg) : Statement (.mulS fd fs ft) := by
  refine ⟨⟨"mul.s", 0x46000002#32, 0xffe0003f#32, fun w => .mulS (fShamt w) (fRd w) (fRt w)⟩,
    List.mem_of_getElem? (i := 45) rfl, ?_, ?_⟩
  · simp only [Row.accepts, encode, beq_iff_eq]
    rw [show 0xffe0003f#32 = encR 0x3f 0x1f 0#5 0#5 0#5 0x3f by decide, encR_and]
    simp only [BitVec.and_zero]
    decide
  · simp [encode]

theorem mulD (fd : FReg) (fs : FReg) (ft : FReg) : Statement (.mulD fd fs ft) := by
  refine ⟨⟨"mul.d", 0x46200002#32, 0xffe0003f#32, fun w => .mulD (fShamt w) (fRd w) (fRt w)⟩,
    List.mem_of_getElem? (i := 46) rfl, ?_, ?_⟩
  · simp only [Row.accepts, encode, beq_iff_eq]
    rw [show 0xffe0003f#32 = encR 0x3f 0x1f 0#5 0#5 0#5 0x3f by decide, encR_and]
    simp only [BitVec.and_zero]
    decide
  · simp [encode]

theorem divS (fd : FReg) (fs : FReg) (ft : FReg) : Statement (.divS fd fs ft) := by
  refine ⟨⟨"div.s", 0x46000003#32, 0xffe0003f#32, fun w => .divS (fShamt w) (fRd w) (fRt w)⟩,
    List.mem_of_getElem? (i := 47) rfl, ?_, ?_⟩
  · simp only [Row.accepts, encode, beq_iff_eq]
    rw [show 0xffe0003f#32 = encR 0x3f 0x1f 0#5 0#5 0#5 0x3f by decide, encR_and]
    simp only [BitVec.and_zero]
    decide
  · simp [encode]

theorem divD (fd : FReg) (fs : FReg) (ft : FReg) : Statement (.divD fd fs ft) := by
  refine ⟨⟨"div.d", 0x46200003#32, 0xffe0003f#32, fun w => .divD (fShamt w) (fRd w) (fRt w)⟩,
    List.mem_of_getElem? (i := 48) rfl, ?_, ?_⟩
  · simp only [Row.accepts, encode, beq_iff_eq]
    rw [show 0xffe0003f#32 = encR 0x3f 0x1f 0#5 0#5 0#5 0x3f by decide, encR_and]
    simp only [BitVec.and_zero]
    decide
  · simp [encode]

theorem cEqS (fs : FReg) (ft : FReg) : Statement (.cEqS fs ft) := by
  refine ⟨⟨"c.eq.s", 0x46000032#32, 0xffe007ff#32, fun w => .cEqS (fRd w) (fRt w)⟩,
    List.mem_of_getElem? (i := 49) rfl, ?_, ?_⟩
  · simp only [Row.accepts, encode, beq_iff_eq]
    rw [show 0xffe007ff#32 = encR 0x3f 0x1f 0#5 0#5 0x1f 0x3f by decide, encR_and]
    simp only [BitVec.and_zero]
    decide
  · simp [encode]

theorem cLtS (fs : FReg) (ft : FReg) : Statement (.cLtS fs ft) := by
  refine ⟨⟨"c.lt.s", 0x4600003c#32, 0xffe007ff#32, fun w => .cLtS (fRd w) (fRt w)⟩,
    List.mem_of_getElem? (i := 50) rfl, ?_, ?_⟩
  · simp only [Row.accepts, encode, beq_iff_eq]
    rw [show 0xffe007ff#32 = encR 0x3f 0x1f 0#5 0#5 0x1f 0x3f by decide, encR_and]
    simp only [BitVec.and_zero]
    decide
  · simp [encode]

theorem cLeS (fs : FReg) (ft : FReg) : Statement (.cLeS fs ft) := by
  refine ⟨⟨"c.le.s", 0x4600003e#32, 0xffe007ff#32, fun w => .cLeS (fRd w) (fRt w)⟩,
    List.mem_of_getElem? (i := 51) rfl, ?_, ?_⟩
  · simp only [Row.accepts, encode, beq_iff_eq]
    rw [show 0xffe007ff#32 = encR 0x3f 0x1f 0#5 0#5 0x1f 0x3f by decide, encR_and]
    simp only [BitVec.and_zero]
    decide
  · simp [encode]

theorem cEqD (fs : FReg) (ft : FReg) : Statement (.cEqD fs ft) := by
  refine ⟨⟨"c.eq.d", 0x46200032#32, 0xffe007ff#32, fun w => .cEqD (fRd w) (fRt w)⟩,
    List.mem_of_getElem? (i := 52) rfl, ?_, ?_⟩
  · simp only [Row.accepts, encode, beq_iff_eq]
    rw [show 0xffe007ff#32 = encR 0x3f 0x1f 0#5 0#5 0x1f 0x3f by decide, encR_and]
    simp only [BitVec.and_zero]
    decide
  · simp [encode]

theorem cLtD (fs : FReg) (ft : FReg) : Statement (.cLtD fs ft) := by
  refine ⟨⟨"c.lt.d", 0x4620003c#32, 0xffe007ff#32, fun w => .cLtD (fRd w) (fRt w)⟩,
    List.mem_of_getElem? (i := 53) rfl, ?_, ?_⟩
  · simp only [Row.accepts, encode, beq_iff_eq]
    rw [show 0xffe007ff#32 = encR 0x3f 0x1f 0#5 0#5 0x1f 0x3f by decide, encR_and]
    simp only [BitVec.and_zero]
    decide
  · simp [encode]

theorem cLeD (fs : FReg) (ft : FReg) : Statement (.cLeD fs ft) := by
  refine ⟨⟨"c.le.d", 0x4620003e#32, 0xffe007ff#32, fun w => .cLeD (fRd w) (fRt w)⟩,
    List.mem_of_getElem? (i := 54) rfl, ?_, ?_⟩
  · simp only [Row.accepts, encode, beq_iff_eq]
    rw [show 0xffe007ff#32 = encR 0x3f 0x1f 0#5 0#5 0x1f 0x3f by decide, encR_and]
    simp only [BitVec.and_zero]
    decide
  · simp [encode]

theorem bc1t (imm : Imm) : Statement (.bc1t imm) := by
  refine ⟨⟨"bc1t", 0x45010000#32, 0xffff0000#32, fun w => .bc1t (fImm w)⟩,
    List.mem_of_getElem? (i := 55) rfl, ?_, ?_⟩
  · simp only [Row.accepts, encode, beq_iff_eq]
    rw [show 0xffff0000#32 = encI 0x3f 0x1f 0x1f 0#16 by decide, encI_and]
    simp only [BitVec.and_zero]
    decide
  · simp [encode]

theorem bc1f (imm : Imm) : Statement (.bc1f imm) := by
  refine ⟨⟨"bc1f", 0x45000000#32, 0xffff0000#32, fun w => .bc1f (fImm w)⟩,
    List.mem_of_getElem? (i := 56) rfl, ?_, ?_⟩
  · simp only [Row.accepts, encode, beq_iff_eq]
    rw [show 0xffff0000#32 = encI 0x3f 0x1f 0x1f 0#16 by decide, encI_and]
    simp only [BitVec.and_zero]
    decide
  · simp [encode]

theorem lwc1 (ft : FReg) (imm : Imm) (rs : Reg) : Statement (.lwc1 ft imm rs) := by
  refine ⟨⟨"lwc1", 0xc4000000#32, 0xfc000000#32, fun w => .lwc1 (fRt w) (fImm w) (fRs w)⟩,
    List.mem_of_getElem? (i := 57) rfl, ?_, ?_⟩
  · simp only [Row.accepts, encode, beq_iff_eq]
    rw [show 0xfc000000#32 = encI 0x3f 0#5 0#5 0#16 by decide, encI_and]
    simp only [BitVec.and_zero]
    decide
  · simp [encode]

theorem ldc1 (ft : FReg) (imm : Imm) (rs : Reg) : Statement (.ldc1 ft imm rs) := by
  refine ⟨⟨"ldc1", 0xd4000000#32, 0xfc000000#32, fun w => .ldc1 (fRt w) (fImm w) (fRs w)⟩,
    List.mem_of_getElem? (i := 58) rfl, ?_, ?_⟩
  · simp only [Row.accepts, encode, beq_iff_eq]
    rw [show 0xfc000000#32 = encI 0x3f 0#5 0#5 0#16 by decide, encI_and]
    simp only [BitVec.and_zero]
    decide
  · simp [encode]

theorem swc1 (ft : FReg) (imm : Imm) (rs : Reg) : Statement (.swc1 ft imm rs) := by
  refine ⟨⟨"swc1", 0xe4000000#32, 0xfc000000#32, fun w => .swc1 (fRt w) (fImm w) (fRs w)⟩,
    List.mem_of_getElem? (i := 59) rfl, ?_, ?_⟩
  · simp only [Row.accepts, encode, beq_iff_eq]
    rw [show 0xfc000000#32 = encI 0x3f 0#5 0#5 0#16 by decide, encI_and]
    simp only [BitVec.and_zero]
    decide
  · simp [encode]

theorem sdc1 (ft : FReg) (imm : Imm) (rs : Reg) : Statement (.sdc1 ft imm rs) := by
  refine ⟨⟨"sdc1", 0xf4000000#32, 0xfc000000#32, fun w => .sdc1 (fRt w) (fImm w) (fRs w)⟩,
    List.mem_of_getElem? (i := 60) rfl, ?_, ?_⟩
  · simp only [Row.accepts, encode, beq_iff_eq]
    rw [show 0xfc000000#32 = encI 0x3f 0#5 0#5 0#16 by decide, encI_and]
    simp only [BitVec.and_zero]
    decide
  · simp [encode]

theorem mfc0 (rt : Reg) (rd : BitVec 5) : Statement (.mfc0 rt rd) := by
  refine ⟨⟨"mfc0", 0x40000000#32, 0xffe007ff#32, fun w => .mfc0 (fRt w) (fRd w)⟩,
    List.mem_of_getElem? (i := 61) rfl, ?_, ?_⟩
  · simp only [Row.accepts, encode, beq_iff_eq]
    rw [show 0xffe007ff#32 = encR 0x3f 0x1f 0#5 0#5 0x1f 0x3f by decide, encR_and]
    simp only [BitVec.and_zero]
    decide
  · simp [encode]

end Sys2Proof.Laws.RowAcceptsWord
end

