-- ==== Sys2Proof/Laws/Step.lean ====
section
/-! SUPPORT. What one step can do around the instruction's meaning. -/

namespace Sys2Proof.Machine

/-- A step stays at `END_PC`, raises AddressError at the fetch, reads a byte that has no value, raises
ReservedInstruction for a reserved word, would read a register that has no value, or runs the instruction that the word at
`pc` encodes (R10, R332, R335). -/
theorem step_cases (s : State) :
    (s.pc = s.map.endPc ∧ step s = .next s) ∨
    (s.pc ≠ s.map.endPc ∧
      ((s.accessOk .fetch 4 s.pc = false ∧ step s = raise (.addressError .fetch s.pc) s) ∨
       (s.accessOk .fetch 4 s.pc = true ∧ s.wordAt s.pc = none ∧
          step s = .fault (.uninitialisedRead (.memory s.pc) s.pc s)) ∨
       (∃ w, s.accessOk .fetch 4 s.pc = true ∧ s.wordAt s.pc = some w ∧ (∀ i, decodeWord w ≠ .ok i) ∧
          step s = raise (.reservedInstruction w) s) ∨
       (∃ w i p, s.accessOk .fetch 4 s.pc = true ∧ s.wordAt s.pc = some w ∧ decodeWord w = .ok i ∧
          s.valuelessSource i = some p ∧ step s = .fault (.uninitialisedRead p s.pc s)) ∨
       (∃ w i, s.accessOk .fetch 4 s.pc = true ∧ s.wordAt s.pc = some w ∧ decodeWord w = .ok i ∧
          s.valuelessSource i = none ∧ step s = exec i s))) := by
  by_cases hp : s.pc = s.map.endPc
  · exact .inl ⟨hp, by simp [step, stepWith, State.ended, hp]⟩
  refine .inr ⟨hp, ?_⟩
  have hs : step s = fetch s fun w => decoded w s fun i => readingRegisters i s (exec i s) := by
    simp [step, stepWith, State.ended, hp]
  rw [hs, fetch]
  generalize hb : (fun w => decoded w s fun i => readingRegisters i s (exec i s)) = body
  rcases checked_cases .fetch 4 s.pc s (withValue (s.wordAt s.pc) s.pc s body) with ⟨h, e⟩ | ⟨h, e⟩
  · rcases withValue_cases (s.wordAt s.pc) s.pc s body with ⟨w, hw, e'⟩ | ⟨hw, e'⟩
    · subst hb
      rw [e, e']
      cases hd : decodeWord w with
      | ok i =>
        simp only [decoded, hd]
        rcases readingRegisters_cases i s (exec i s) with ⟨p, hv, e''⟩ | ⟨hv, e''⟩
        · exact .inr (.inr (.inr (.inl ⟨w, i, p, h, hw, hd, hv, e''⟩)))
        · exact .inr (.inr (.inr (.inr ⟨w, i, h, hw, hd, hv, e''⟩)))
      | error d => exact .inr (.inr (.inl ⟨w, h, hw, by simp [hd], by simp [decoded, hd]⟩))
    · exact .inr (.inl ⟨h, hw, by rw [e, e']⟩)
  · exact .inl ⟨h, e⟩

end Sys2Proof.Machine
end

