-- ==== Sys2Proof/Tests/Slice0.lean ====
section
/-! SUPPORT. The model's own tests: words written out from the encodings, one step of each instruction on the vectors of
spec/95_test_vectors.md (named in the comments), the checks of well-formedness, and states that meet the hypotheses of the
statements, at boundary values. -/

namespace Sys2Proof.Tests

open Sys2Proof.Machine

/-! ### Well-formedness: an ill-formed term for each check (R243) -/

theorem test_illformed_double_arithmetic :
    [Instr.addD 1 2 4, .addD 0 3 4, .addD 0 2 5, .subD 1 2 4, .subD 0 3 4, .subD 0 2 5, .mulD 1 2 4, .mulD 0 3 4, .mulD 0 2 5,
      .divD 1 2 4, .divD 0 3 4, .divD 0 2 5].all (fun i => !i.wellFormed) = true := by decide

theorem test_illformed_double_compare_and_memory :
    [Instr.cEqD 3 4, .cEqD 2 5, .cLtD 3 4, .cLtD 2 5, .cLeD 3 4, .cLeD 2 5, .ldc1 31 0 8, .sdc1 1 0 8].all
      (fun i => !i.wellFormed) = true := by decide

theorem test_wellformed :
    [Instr.addD 0 2 4, .divD 30 30 30, .cEqD 2 4, .ldc1 30 0 9, .addS 1 3 5, .lwc1 31 0 9, .add 31 31 31].all
      (·.wellFormed) = true := by decide

/-! ### Decoding -/

/-- Arithmetic words, field by field from the formats of R81 to R85 and the values of R94 to R98. -/
theorem test_decode_arithmetic :
    decodeWord 0b000000_10001_01010_00111_00000_100000#32 = .ok (.add 7 17 10) ∧
    decodeWord 0b001000_10001_01010_1000000000000101#32 = .ok (.addi 10 17 0x8005) ∧
    decodeWord 0b001001_10001_01010_1000000000000101#32 = .ok (.addiu 10 17 0x8005) ∧
    decodeWord 0b000000_10001_01010_00111_00000_100001#32 = .ok (.addu 7 17 10) ∧
    decodeWord 0b000000_10001_01010_00111_00000_100010#32 = .ok (.sub 7 17 10) ∧
    decodeWord 0b000000_10001_01010_00111_00000_100011#32 = .ok (.subu 7 17 10) ∧
    decodeWord 0b000000_10001_01010_00111_00000_101010#32 = .ok (.slt 7 17 10) ∧
    decodeWord 0b000000_10001_01010_00111_00000_101011#32 = .ok (.sltu 7 17 10) ∧
    decodeWord 0b001010_10001_01010_1000000000000101#32 = .ok (.slti 10 17 0x8005) ∧
    decodeWord 0b001011_10001_01010_1000000000000101#32 = .ok (.sltiu 10 17 0x8005) := by decide

/-- Logic words, field by field from the formats of R81 to R85 and the values of R94 to R98. -/
theorem test_decode_logic :
    decodeWord 0b000000_10001_01010_00111_00000_100100#32 = .ok (.and 7 17 10) ∧
    decodeWord 0b001100_10001_01010_1000000000000101#32 = .ok (.andi 10 17 0x8005) ∧
    decodeWord 0b000000_10001_01010_00111_00000_100101#32 = .ok (.or 7 17 10) ∧
    decodeWord 0b001101_10001_01010_1000000000000101#32 = .ok (.ori 10 17 0x8005) ∧
    decodeWord 0b000000_10001_01010_00111_00000_100111#32 = .ok (.nor 7 17 10) ∧
    decodeWord 0b000000_10001_01010_00111_00000_100110#32 = .ok (.xor 7 17 10) ∧
    decodeWord 0b000000_00000_01010_00111_01100_000000#32 = .ok (.sll 7 10 12) ∧
    decodeWord 0b000000_00000_01010_00111_01100_000010#32 = .ok (.srl 7 10 12) ∧
    decodeWord 0b000000_00000_01010_00111_01100_000011#32 = .ok (.sra 7 10 12) := by decide

/-- Branch words, field by field from the formats of R81 to R85 and the values of R94 to R98. -/
theorem test_decode_branch :
    decodeWord 0b000100_10001_01010_1000000000000101#32 = .ok (.beq 17 10 0x8005) ∧
    decodeWord 0b000101_10001_01010_1000000000000101#32 = .ok (.bne 17 10 0x8005) ∧
    decodeWord 0b000010_10000100000000000000000111#32 = .ok (.j 0x2100007) ∧
    decodeWord 0b000011_10000100000000000000000111#32 = .ok (.jal 0x2100007) ∧
    decodeWord 0b000000_10001_00000_00000_00000_001000#32 = .ok (.jr 17) ∧
    decodeWord 0b010001_01000_00001_1000000000000101#32 = .ok (.bc1t 0x8005) ∧
    decodeWord 0b010001_01000_00000_1000000000000101#32 = .ok (.bc1f 0x8005) := by decide

/-- Memory words, field by field from the formats of R81 to R85 and the values of R94 to R98. -/
theorem test_decode_memory :
    decodeWord 0b100011_10001_01010_1000000000000101#32 = .ok (.lw 10 0x8005 17) ∧
    decodeWord 0b100100_10001_01010_1000000000000101#32 = .ok (.lbu 10 0x8005 17) ∧
    decodeWord 0b100000_10001_01010_1000000000000101#32 = .ok (.lb 10 0x8005 17) ∧
    decodeWord 0b100101_10001_01010_1000000000000101#32 = .ok (.lhu 10 0x8005 17) ∧
    decodeWord 0b100001_10001_01010_1000000000000101#32 = .ok (.lh 10 0x8005 17) ∧
    decodeWord 0b101011_10001_01010_1000000000000101#32 = .ok (.sw 10 0x8005 17) ∧
    decodeWord 0b101000_10001_01010_1000000000000101#32 = .ok (.sb 10 0x8005 17) ∧
    decodeWord 0b101001_10001_01010_1000000000000101#32 = .ok (.sh 10 0x8005 17) ∧
    decodeWord 0b110000_10001_01010_1000000000000101#32 = .ok (.ll 10 0x8005 17) ∧
    decodeWord 0b111000_10001_01010_1000000000000101#32 = .ok (.sc 10 0x8005 17) ∧
    decodeWord 0b110001_10001_01010_1000000000000101#32 = .ok (.lwc1 10 0x8005 17) ∧
    decodeWord 0b110101_10001_01010_1000000000000101#32 = .ok (.ldc1 10 0x8005 17) ∧
    decodeWord 0b111001_10001_01010_1000000000000101#32 = .ok (.swc1 10 0x8005 17) ∧
    decodeWord 0b111101_10001_01010_1000000000000101#32 = .ok (.sdc1 10 0x8005 17) ∧
    decodeWord 0b001111_00000_01010_1000000000000101#32 = .ok (.lui 10 0x8005) := by decide

/-- Multiply words, field by field from the formats of R81 to R85 and the values of R94 to R98. -/
theorem test_decode_multiply :
    decodeWord 0b000000_10001_01010_00000_00000_011000#32 = .ok (.mult 17 10) ∧
    decodeWord 0b000000_10001_01010_00000_00000_011001#32 = .ok (.multu 17 10) ∧
    decodeWord 0b000000_10001_01010_00000_00000_011010#32 = .ok (.div 17 10) ∧
    decodeWord 0b000000_10001_01010_00000_00000_011011#32 = .ok (.divu 17 10) ∧
    decodeWord 0b000000_00000_00000_00111_00000_010000#32 = .ok (.mfhi 7) ∧
    decodeWord 0b000000_00000_00000_00111_00000_010010#32 = .ok (.mflo 7) ∧
    decodeWord 0b010000_00000_01010_00111_00000_000000#32 = .ok (.mfc0 10 7) := by decide

/-- Float words, field by field from the formats of R81 to R85 and the values of R94 to R98. -/
theorem test_decode_float :
    decodeWord 0b010001_10000_00110_00100_00010_000000#32 = .ok (.addS 2 4 6) ∧
    decodeWord 0b010001_10001_00110_00100_00010_000000#32 = .ok (.addD 2 4 6) ∧
    decodeWord 0b010001_10000_00110_00100_00010_000001#32 = .ok (.subS 2 4 6) ∧
    decodeWord 0b010001_10001_00110_00100_00010_000001#32 = .ok (.subD 2 4 6) ∧
    decodeWord 0b010001_10000_00110_00100_00010_000010#32 = .ok (.mulS 2 4 6) ∧
    decodeWord 0b010001_10001_00110_00100_00010_000010#32 = .ok (.mulD 2 4 6) ∧
    decodeWord 0b010001_10000_00110_00100_00010_000011#32 = .ok (.divS 2 4 6) ∧
    decodeWord 0b010001_10001_00110_00100_00010_000011#32 = .ok (.divD 2 4 6) := by decide

/-- Compare words, field by field from the formats of R81 to R85 and the values of R94 to R98. -/
theorem test_decode_compare :
    decodeWord 0b010001_10000_00110_00100_00000_110010#32 = .ok (.cEqS 4 6) ∧
    decodeWord 0b010001_10001_00110_00100_00000_110010#32 = .ok (.cEqD 4 6) ∧
    decodeWord 0b010001_10000_00110_00100_00000_111100#32 = .ok (.cLtS 4 6) ∧
    decodeWord 0b010001_10001_00110_00100_00000_111100#32 = .ok (.cLtD 4 6) ∧
    decodeWord 0b010001_10000_00110_00100_00000_111110#32 = .ok (.cLeS 4 6) ∧
    decodeWord 0b010001_10001_00110_00100_00000_111110#32 = .ok (.cLeD 4 6) := by decide

/-- Words that are no instruction (V43.47, V44.12, V44.32, V45.39, V45.44, V46.3 to V46.17). -/
theorem test_reserved_words :
    [0x3d291234#32, 0x012a4018#32, 0x01204810#32, 0x4602087c#32, 0x45020003#32, 0x40086801#32, 0x40886800#32, 0x0000000c#32,
      0x0000000d#32, 0x42000018#32, 0x0000000f#32, 0x012a4060#32, 0x01294140#32, 0x02290008#32, 0x012a4004#32, 0x05200002#32,
      0x39285678#32, 0x46000806#32, 0x44080800#32, 0xffffffff#32].all (fun w => (rowOf w).isNone) = true := by decide

/-- The opcode table's bit numbering, and a word laid out in bytes. -/
theorem test_decode_table_word :
    decodeTableWord 32 0x012a4020 = some (.add 8 9 10) ∧ decodeTableWord 32 0xffffffff = none ∧
    decodeBytes .big [0x01#8, 0x2a#8, 0x40#8, 0x20#8] = .ok (.add 8 9 10, []) ∧
    decodeBytes .little [0x20#8, 0x40#8, 0x2a#8] = .error (.truncated 3) := by decide

/-! ### One step -/

/-- The vectors' state: one region of text at `pc` and the data region of 2.4, no byte of which has a value yet. -/
def start (pc : Word) (p : Params) : State :=
  { State.reset with
    pc := pc, npc := pc + 4#32, params := p
    map := { text := { base := pc.toNat, size := 4 }, data := [{ base := 0x10010000, size := 32 }], endPc := 0#32 } }

/-- The defaults, but sc does not fail spuriously, so that a run is one run. -/
def plain : Params := { Config.defaults with scMayFailSpuriously := false }

/-- The state with words stored from an address on. -/
def withWords (s : State) (a : Word) : List Word → State
  | [] => s
  | w :: ws => withWords (s.setWord a w) (a + 4#32) ws

/-- The data of 2.4. -/
def withData (s : State) : State :=
  withWords s 0x10010000#32 [0x11223344#32, 0x12345678#32, 0x123456f8#32, 0x12348cde#32, 0x87654321#32, 0x80ff7f00#32, 0#32,
    0#32]

/-- Registers set. -/
def withRegs (s : State) (rs : List (Reg × Word)) : State := rs.foldl (fun s p => s.setReg p.1 p.2) s

/-- Floating-point registers set. -/
def withFprs (s : State) (fs : List (FReg × Word)) : State := fs.foldl (fun s p => s.setFpr p.1 p.2) s

/-- The state of most vectors. -/
def here (rs : List (Reg × Word)) : State := withRegs (start 0x00400000#32 plain) rs

/-- The state of the vectors of 2.4, `$t0` the data's address. -/
def data (rs : List (Reg × Word)) : State := withRegs (withData (here [(8, 0x10010000#32)])) rs

/-- The state of the vectors of 2.6. -/
def floats (fs : List (FReg × Word)) : State := withFprs (here []) fs

/-- One step with the word at `pc`. -/
def runs (w : Word) (s : State) : Result := step (s.setWord s.pc w)

/-- The step answers a next state with the property, at the next instruction in sequence. -/
def gives (w : Word) (s : State) (p : State → Bool) : Bool :=
  match runs w s with
  | .next t => t.pc == s.pc + 4#32 && p t
  | _ => false

/-- The step goes to an address. -/
def goesTo (w : Word) (s : State) (a : Word) : Bool :=
  match runs w s with
  | .next t => t.pc == a
  | _ => false

/-- The step ends in the fault that `e` makes of the faulting `pc` and the final state. -/
def faults (w : Word) (s : State) (e : Word → State → Fault) : Bool :=
  match runs w s with
  | .fault f =>
    match f, e s.pc s with
    | .overflow p _, .overflow q _ => p == q
    | .addressError k a p _, .addressError l b q _ => decide (k = l) && a == b && p == q
    | .reservedInstruction v p _, .reservedInstruction w q _ => v == w && p == q
    | .uninitialisedRead a p _, .uninitialisedRead b q _ => decide (a = b) && p == q
    | _, _ => false
  | _ => false

/-- V40.5 -/
theorem test_add_carry_is_no_overflow : gives 0x012a4020#32 (here [(9, 0xffffffff#32), (10, 0x00000001#32)]) (fun t => t.reg 8 == 0#32) = true := by decide

/-- V40.8 -/
theorem test_add_overflow : faults 0x01084020#32 (here [(8, 0x40000000#32)]) (.overflow) = true := by decide

/-- V40.15 -/
theorem test_addi_negative_immediate : gives 0x2128fffd#32 (here [(9, 4#32)]) (fun t => t.reg 8 == 1#32) = true := by decide

/-- V40.20 -/
theorem test_addi_overflow : faults 0x21287fff#32 (here [(9, 0x7fff8001#32)]) (.overflow) = true := by decide

/-- V40.24 -/
theorem test_addiu_sign_extends : gives 0x2528ffff#32 (here [(9, 0x80000000#32)]) (fun t => t.reg 8 == 0x7fffffff#32) = true := by decide

/-- V40.12 -/
theorem test_addu_wraps : gives 0x012a4021#32 (here [(9, 0xffffffff#32), (10, 2#32)]) (fun t => t.reg 8 == 1#32) = true := by decide

/-- V40.26 -/
theorem test_sub_order : gives 0x012a4022#32 (here [(9, 3#32), (10, 7#32)]) (fun t => t.reg 8 == 0xfffffffc#32) = true := by decide

/-- V40.29 -/
theorem test_sub_overflow : faults 0x012a4022#32 (here [(10, 0x80000000#32)]) (.overflow) = true := by decide

/-- V40.34 -/
theorem test_subu_wraps : gives 0x012a4023#32 (here [(10, 1#32)]) (fun t => t.reg 8 == 0xffffffff#32) = true := by decide

/-- V40.37 -/
theorem test_slt_signed : gives 0x012a402a#32 (here [(9, 0x80000000#32), (10, 0x7fffffff#32)]) (fun t => t.reg 8 == 1#32) = true := by decide

/-- V40.40 -/
theorem test_sltu_unsigned : gives 0x012a402b#32 (here [(9, 0xfffffff1#32), (10, 0x73#32), (8, 0x55#32)]) (fun t => t.reg 8 == 0#32) = true := by decide

/-- V40.46 -/
theorem test_slti_signed : gives 0x29288000#32 (here [(9, 0x80000000#32)]) (fun t => t.reg 8 == 1#32) = true := by decide

/-- V40.50 -/
theorem test_sltiu_sign_extends_then_unsigned : gives 0x2d28ff83#32 (here [(9, 0xffffff00#32)]) (fun t => t.reg 8 == 1#32) = true := by decide

/-- V41.2 -/
theorem test_and : gives 0x012a4024#32 (here [(9, 0xffff0000#32), (10, 0x00ffff00#32)]) (fun t => t.reg 8 == 0x00ff0000#32) = true := by decide

/-- V41.4 -/
theorem test_andi_zero_extends : gives 0x31288000#32 (here [(9, 0xffffffff#32)]) (fun t => t.reg 8 == 0x8000#32) = true := by decide

/-- V41.7 -/
theorem test_or : gives 0x014b4825#32 (here [(10, 0x0f0f0000#32), (11, 0x00ff00ff#32)]) (fun t => t.reg 9 == 0x0fff00ff#32) = true := by decide

/-- V41.9 -/
theorem test_ori_zero_extends : gives 0x3408ffff#32 (here []) (fun t => t.reg 8 == 0x0000ffff#32) = true := by decide

/-- V41.10 -/
theorem test_nor : gives 0x012a4027#32 (here [(9, 0x12345678#32), (10, 0xf#32)]) (fun t => t.reg 8 == 0xedcba980#32) = true := by decide

/-- V41.13 -/
theorem test_xor : gives 0x012a4026#32 (here [(9, 0x12345678#32), (10, 0x0000ffff#32)]) (fun t => t.reg 8 == 0x1234a987#32) = true := by decide

/-- V41.18 -/
theorem test_sll : gives 0x00094040#32 (here [(9, 0xc0000001#32)]) (fun t => t.reg 8 == 0x80000002#32) = true := by decide

/-- V41.21 -/
theorem test_srl_zero_fill : gives 0x00094102#32 (here [(9, 0xfffffff1#32)]) (fun t => t.reg 8 == 0x0fffffff#32) = true := by decide

/-- V41.24 -/
theorem test_sra_sign_fill : gives 0x00094103#32 (here [(9, 0xfffffff1#32)]) (fun t => t.reg 8 == 0xffffffff#32) = true := by decide

/-- V43.45 -/
theorem test_lui_no_sign_extension : gives 0x3c09ffff#32 (here []) (fun t => t.reg 9 == 0xffff0000#32) = true := by decide

/-- V42.6 -/
theorem test_beq_taken_backward : goesTo 0x112a8000#32 (here []) 0x003e0004#32 = true := by decide

/-- V42.2 -/
theorem test_beq_not_taken : goesTo 0x112a0002#32 (here [(9, 5#32), (10, 6#32)]) 0x00400004#32 = true := by decide

/-- V42.9 -/
theorem test_bne_taken : goesTo 0x152a0002#32 (here [(9, 5#32), (10, 6#32)]) 0x0040000c#32 = true := by decide

/-- V42.15 -/
theorem test_j_region_of_next_pc : goesTo 0x08000001#32 (start 0x0ffffffc#32 plain) 0x10000004#32 = true := by decide

/-- V42.17 -/
theorem test_jal_links : (match runs 0x0c100006#32 (here []) with | .next t => t.pc == 0x00400018#32 && t.reg 31 == 0x00400004#32 | _ => false) = true := by decide

/-- V42.18 -/
theorem test_jal_one_slot : (match runs 0x0c100006#32 (start 0x00400000#32 { plain with branchDelay := .oneSlot }) with
    | .next t => t.pc == 0x00400004#32 && t.npc == 0x00400018#32 && t.reg 31 == 0x00400008#32 | _ => false) = true := by decide

/-- V42.23 -/
theorem test_jr_misaligned_completes : goesTo 0x02200008#32 (here [(17, 0x0040000a#32)]) 0x0040000a#32 = true := by decide

/-- V43.2 -/
theorem test_lw_negative_offset : gives 0x8d09fff4#32 (data [(8, 0x10010010#32)]) (fun t => t.reg 9 == 0x12345678#32) = true := by decide

/-- V43.8 -/
theorem test_lw_misaligned : faults 0x8d090005#32 (data []) (.addressError .load 0x10010005#32) = true := by decide

/-- V43.17 -/
theorem test_lbu_zero_extends : gives 0x91090016#32 (data []) (fun t => t.reg 9 == 0xff#32) = true := by decide

/-- V43.22 -/
theorem test_lb_sign_extends : gives 0x81090017#32 (data []) (fun t => t.reg 9 == 0xffffff80#32) = true := by decide

/-- V43.25 -/
theorem test_lhu_zero_extends : gives 0x9509000c#32 (data []) (fun t => t.reg 9 == 0x8cde#32) = true := by decide

/-- V43.27 -/
theorem test_lh_sign_extends : gives 0x8509000c#32 (data []) (fun t => t.reg 9 == 0xffff8cde#32) = true := by decide

/-- V43.31 -/
theorem test_sw : gives 0xad090008#32 (data [(9, 0x87654321#32)]) (fun t => t.wordAt 0x10010008#32 == some 0x87654321#32 && t.wordAt 0x1001000c#32 == some 0x12348cde#32) = true := by decide

/-- V43.34 -/
theorem test_sw_text : faults 0xad090000#32 (data [(8, 0x00400000#32)]) (.addressError .store 0x00400000#32) = true := by decide

/-- V43.39 -/
theorem test_sb_one_byte : gives 0xa1090007#32 (data [(9, 0x87654321#32)]) (fun t => t.wordAt 0x10010004#32 == some 0x21345678#32) = true := by decide

/-- V43.42 -/
theorem test_sh_two_bytes : gives 0xa5090006#32 (data [(9, 0x87654321#32)]) (fun t => t.wordAt 0x10010004#32 == some 0x43215678#32) = true := by decide

/-- V43L.1 -/
theorem test_ll_arms : gives 0xc1090004#32 (data []) (fun t => t.reg 9 == 0x12345678#32 && t.llbit && t.lladdr == 0x10010004#32) = true := by decide

/-- V43L.3 -/
theorem test_ll_fault_clears_llbit : (match runs 0xc1090006#32 { data [] with llbit := true } with
    | .fault (.addressError .load a _ t) => a == 0x10010006#32 && !t.llbit | _ => false) = true := by decide

/-- V43L.4 -/
theorem test_sc_success : gives 0xe1090004#32 ({ data [(9, 0xaabbccdd#32)] with llbit := true, lladdr := 0x10010004#32 }) (fun t => t.reg 9 == 1#32 && !t.llbit && t.wordAt 0x10010004#32 == some 0xaabbccdd#32) = true := by decide

/-- V43L.7 -/
theorem test_sc_other_address : gives 0xe1090008#32 ({ data [(9, 0xaabbccdd#32)] with llbit := true, lladdr := 0x10010004#32 }) (fun t => t.reg 9 == 0#32 && !t.llbit && t.wordAt 0x10010008#32 == some 0x123456f8#32) = true := by decide

/-- V44.2 -/
theorem test_mult_signed : gives 0x012a0018#32 (here [(9, 0x80008765#32), (10, 0x12345678#32)]) (fun t => t.hi == 0xf6e5de64#32 && t.lo == 0xc83f6558#32) = true := by decide

/-- V44.8 -/
theorem test_multu_unsigned : gives 0x012a0019#32 (here [(9, 0x80008765#32), (10, 0x12345678#32)]) (fun t => t.hi == 0x091a34dc#32 && t.lo == 0xc83f6558#32) = true := by decide

/-- V44.16 -/
theorem test_div_signs : gives 0x014b001a#32 (here [(10, 7#32), (11, 0xfffffffe#32)]) (fun t => t.hi == 1#32 && t.lo == 0xfffffffd#32) = true := by decide

/-- V44.22 -/
theorem test_div_by_zero_goes_on : gives 0x014b001a#32 (here [(10, 5#32)]) (fun t => t.reg 10 == 5#32) = true := by decide

/-- V44.25 -/
theorem test_divu_unsigned : gives 0x014b001b#32 (here [(10, 0xfffffff9#32), (11, 2#32)]) (fun t => t.hi == 1#32 && t.lo == 0x7ffffffc#32) = true := by decide

/-- V44.28 -/
theorem test_divu_by_zero_goes_on : gives 0x014b001b#32 (here [(10, 5#32)]) (fun t => t.reg 10 == 5#32) = true := by decide

/-- V44.29 -/
theorem test_mfhi : gives 0x00004810#32 ((here []).setHiLo 0x11111111#32 0x22222222#32) (fun t => t.reg 9 == 0x11111111#32) = true := by decide

/-- V44.30 -/
theorem test_mflo : gives 0x00004812#32 ((here []).setHiLo 0x11111111#32 0x22222222#32) (fun t => t.reg 9 == 0x22222222#32) = true := by decide

/-- V45.7 -/
theorem test_add_s_tie_to_even : gives 0x46020800#32 (floats [(1, 0x3f800001#32), (2, 0x33800000#32)]) (fun t => t.fpr 0 == 0x3f800002#32) = true := by decide

/-- V45.14 -/
theorem test_add_d : gives 0x46241000#32 (floats [(2, 0x3ff80000#32), (4, 0x40020000#32)]) (fun t => t.fpr 0 == 0x400e0000#32 && t.fpr 1 == 0#32) = true := by decide

/-- V45.20 -/
theorem test_add_d_odd : faults 0x46241040#32 (floats [(2, 0x3ff80000#32), (4, 0x40020000#32)]) (.reservedInstruction 0x46241040#32) = true := by decide

/-- V45.2 -/
theorem test_sub_s_order : gives 0x46020801#32 (floats [(1, 0x3fc00000#32), (2, 0x40100000#32)]) (fun t => t.fpr 0 == 0xbf400000#32) = true := by decide

/-- V45.15 -/
theorem test_sub_d_order : gives 0x46241001#32 (floats [(2, 0x3ff80000#32), (4, 0x40020000#32)]) (fun t => t.fpr 0 == 0xbfe80000#32 && t.fpr 1 == 0#32) = true := by decide

/-- V45.11 -/
theorem test_mul_s_overflow : gives 0x46020802#32 (floats [(1, 0x7f7fffff#32), (2, 0x40000000#32)]) (fun t => t.fpr 0 == 0x7f800000#32) = true := by decide

/-- V45.16 -/
theorem test_mul_d : gives 0x46241002#32 (floats [(2, 0x3ff80000#32), (4, 0x40020000#32)]) (fun t => t.fpr 0 == 0x400b0000#32 && t.fpr 1 == 0#32) = true := by decide

/-- V45.4 -/
theorem test_div_s_order : gives 0x46020803#32 (floats [(1, 0x3fc00000#32), (2, 0x40100000#32)]) (fun t => t.fpr 0 == 0x3f2aaaab#32) = true := by decide

/-- V45.17 -/
theorem test_div_d_order : gives 0x46241003#32 (floats [(2, 0x3ff80000#32), (4, 0x40020000#32)]) (fun t => t.fpr 0 == 0x3fe55555#32 && t.fpr 1 == 0x55555555#32) = true := by decide

/-- V45.29 -/
theorem test_c_eq_s_zeros : gives 0x46020832#32 (floats [(1, 0#32), (2, 0x80000000#32)]) (fun t => t.fpcond) = true := by decide

/-- V45.31 -/
theorem test_c_lt_s_numeric : gives 0x4602083c#32 (floats [(1, 0xbf800000#32), (2, 0x3f800000#32)]) (fun t => t.fpcond) = true := by decide

/-- V45.33 -/
theorem test_c_le_s_nan : gives 0x4602083e#32 ((floats [(1, 0x7fc00000#32), (2, 0x3f800000#32)]).setFpcond true) (fun t => !t.fpcond) = true := by decide

/-- V45.34 -/
theorem test_c_eq_d : gives 0x46241032#32 ((floats [(2, 0x3ff80000#32), (4, 0x40020000#32)]).setFpcond true) (fun t => !t.fpcond) = true := by decide

/-- V45.35 -/
theorem test_c_lt_d : gives 0x4624103c#32 (floats [(2, 0x3ff80000#32), (4, 0x40020000#32)]) (fun t => t.fpcond) = true := by decide

/-- V45.36 -/
theorem test_c_le_d_order : gives 0x4622203e#32 ((floats [(2, 0x3ff80000#32), (4, 0x40020000#32)]).setFpcond true) (fun t => !t.fpcond) = true := by decide

/-- V45.40 -/
theorem test_bc1t_taken : goesTo 0x45010003#32 ((here []).setFpcond true) 0x00400010#32 = true := by decide

/-- V45.42 -/
theorem test_bc1f_taken : goesTo 0x4500fffe#32 (start 0x00400010#32 plain) 0x0040000c#32 = true := by decide

/-- V45M.1 -/
theorem test_lwc1 : gives 0xc5020008#32 (data []) (fun t => t.fpr 2 == 0x123456f8#32) = true := by decide

/-- V45M.5 -/
theorem test_ldc1_lower_address_first : gives 0xd5020008#32 (data []) (fun t => t.fpr 2 == 0x123456f8#32 && t.fpr 3 == 0x12348cde#32) = true := by decide

/-- V45M.8 -/
theorem test_ldc1_odd_before_misaligned : faults 0xd5030004#32 (data []) (.reservedInstruction 0xd5030004#32) = true := by decide

/-- V45M.3 -/
theorem test_swc1 : gives 0xe5020008#32 ((data []).setFpr 2 0x3fc00000#32) (fun t => t.wordAt 0x10010008#32 == some 0x3fc00000#32) = true := by decide

/-- V45M.11 -/
theorem test_sdc1_last_doubleword : gives 0xf5020018#32 (((data []).setFpr 2 0xaaaaaaaa#32).setFpr 3 0xbbbbbbbb#32) (fun t => t.wordAt 0x10010018#32 == some 0xaaaaaaaa#32 && t.wordAt 0x1001001c#32 == some 0xbbbbbbbb#32) = true := by decide

/-- V46.1, the draw being the value the state holds -/
theorem test_mfc0 : gives 0x40086800#32 ({ here [] with crs := (here []).crs.set 13 7#32 }) (fun t => t.reg 8 == 7#32) = true := by decide

/-- V46.2 -/
theorem test_mfc0_zero : gives 0x40006000#32 (here []) (fun t => t.reg 0 == 0#32) = true := by decide

/-! ### Registers that nothing has written (R332), with the instructions of V40 to V45 -/

/-- Registers must have values. -/
def strict : Params := { plain with uninitRead := .fault }

/-- The state of `here` where registers must have values. -/
def hereStrict (rs : List (Reg × Word)) : State := withRegs (start 0x00400000#32 strict) rs

/-- rs comes before rt, written sources are read as they are, and `x[0]` always has its value. -/
theorem test_unwritten_gpr : faults 0x012a4020#32 (hereStrict []) (.uninitialisedRead (.gpr 9)) = true ∧
    faults 0x012a4020#32 (hereStrict [(9, 1#32)]) (.uninitialisedRead (.gpr 10)) = true ∧
    gives 0x012a4020#32 (hereStrict [(9, 1#32), (10, 2#32)]) (fun t => t.reg 8 == 3#32) = true ∧
    gives 0x00004020#32 (hereStrict []) (fun t => t.reg 8 == 0#32) = true := by decide

theorem test_unwritten_others : faults 0x00004810#32 (hereStrict []) (.uninitialisedRead .hi) = true ∧
    faults 0x00004812#32 (hereStrict []) (.uninitialisedRead .lo) = true ∧
    faults 0x45010003#32 (hereStrict []) (.uninitialisedRead .fpcond) = true ∧
    faults 0x46241000#32 ((hereStrict []).setFpr 2 0#32) (.uninitialisedRead (.fpr 3)) = true := by decide

/-- Under `UNINIT_READ = draw` such a read never ends the run. -/
theorem test_unwritten_draw : gives 0x012a4020#32 (here []) (fun _ => true) = true ∧
    gives 0x00004810#32 (here []) (fun _ => true) = true := by decide

/-- A write by an instruction gives the register its value: `lui $9, 0xffff` (V43.45). -/
theorem test_written_by_instruction : gives 0x3c09ffff#32 (hereStrict []) (fun t => t.hasValue (.gpr 9)) = true := by decide

/-- sc reads its data only where it stores (R181). -/
theorem test_unwritten_sc_data :
    gives 0xe1090004#32 (withData (hereStrict [(8, 0x10010000#32)])) (fun t => t.reg 9 == 0#32) = true ∧
    faults 0xe1090004#32 { withData (hereStrict [(8, 0x10010000#32)]) with llbit := true, lladdr := 0x10010004#32 }
      (.uninitialisedRead (.gpr 9)) = true := by decide

/-- A store checks its address before it reads its data (R170, R242): misaligned, unmapped, in the text; then the data. -/
theorem test_unwritten_store_data :
    faults 0xad090001#32 (hereStrict [(8, 0x10010000#32)]) (.addressError .store 0x10010001#32) = true ∧
    faults 0xa1090020#32 (hereStrict [(8, 0x10010000#32)]) (.addressError .store 0x10010020#32) = true ∧
    faults 0xe5020000#32 (hereStrict [(8, 0x00400000#32)]) (.addressError .store 0x00400000#32) = true ∧
    faults 0xf5020004#32 (hereStrict [(8, 0x10010000#32)]) (.addressError .store 0x10010004#32) = true ∧
    faults 0xa5090006#32 (hereStrict [(8, 0x10010000#32)]) (.uninitialisedRead (.gpr 9)) = true ∧
    faults 0xad090001#32 (hereStrict []) (.uninitialisedRead (.gpr 8)) = true := by decide

/-! ### The assembler's labels -/

/-- Distances modulo 2^32, worked out from R90: a label across the end of the address space, forward and backward. -/
theorem test_branch_field_wraps : Assembler.branchField 0xfffffff8#32 0#32 = some 1 ∧
    Assembler.branchField 0xfffffffc#32 8#32 = some 2 ∧ Assembler.branchField 0#32 0xfffffffc#32 = some 0xfffe ∧
    Assembler.branchField 0#32 0x80000000#32 = none ∧ Assembler.branchField 0#32 6#32 = none := by decide

/-! ### States that meet the hypotheses of the statements, each clause at a boundary value -/

/-- The state has the word at `pc`. -/
def coded (w : Word) (s : State) : State := s.setWord s.pc w

/-- The same with the delay slot. -/
def slotted : Params := { plain with branchDelay := .oneSlot }

/-- The result is a next state. -/
def isNext (r : Result) : Bool :=
  match r with
  | .next _ => true
  | _ => false

theorem exists_of_isNext {r : Result} (h : isNext r = true) : ∃ t, r = .next t := by
  cases r with
  | next t => exact ⟨t, rfl⟩
  | fault _ => cases h
  | refused _ => cases h

/-- The result is an exception. -/
def isException (r : Result) : Bool :=
  match r with
  | .fault f => f.isException
  | _ => false

theorem exists_of_isException {r : Result} (h : isException r = true) : ∃ f, r = .fault f ∧ f.isException = true := by
  cases r with
  | next _ => cases h
  | fault f => exact ⟨f, rfl, h⟩
  | refused _ => cases h

theorem permitted_of_ok {k : AccessKind} {n : Nat} {a : Word} {s : State} (hk : k ≠ .fetch)
    (h : s.accessOk k n a = true) : Access.Permitted ⟨k, n, a⟩ s := (Access.permitted_iff hk).2 h

theorem not_permitted_of_not_ok {k : AccessKind} {n : Nat} {a : Word} {s : State} (hk : k ≠ .fetch)
    (h : s.accessOk k n a = false) : ¬ Access.Permitted ⟨k, n, a⟩ s := fun hp =>
  Bool.false_ne_true (h.symm.trans ((Access.permitted_iff hk).1 hp))

theorem inv_data : Inv (coded 0x8d090004#32 (data [])) where
  canonical := by decide
  mapped := by decide
  zero := by decide
  link := by decide
  slot := by decide

/-- EncodeOfDecode -/
theorem test_witness_encode_of_decode : decodeWord 0xffffffff#32 = .error (.reserved 0xffffffff#32) ∧
    decodeWord 0x00000000#32 = .ok (.sll 0 0 0) ∧ decodeWord 0xf7ffffff#32 = .ok (.sdc1 31 0xffff 31) := by decide

/-- UnlistedEncodingsAreReserved, each way of being unlisted: lowest and highest opcode, syscall, mtc0, mfc1, mov.s, ft 2. -/
theorem test_witness_unlisted :
    (fOpcode 0x04000000#32 = 0x01 ∧ fOpcode 0xffffffff#32 = 0x3f) ∧
    (fOpcode 0x0000000c#32 = 0 ∧ fFunct 0x0000000c#32 = 0x0c) ∧ (fOpcode 0x40886800#32 = 0x10 ∧ fRs 0x40886800#32 ≠ 0) ∧
    (fOpcode 0x44080800#32 = 0x11 ∧ fRs 0x44080800#32 = 0) ∧
    (fOpcode 0x46000806#32 = 0x11 ∧ fRs 0x46000806#32 = 0x10 ∧ fFunct 0x46000806#32 = 0x06) ∧
    (fOpcode 0x45020003#32 = 0x11 ∧ fRs 0x45020003#32 = 0x08 ∧ fRt 0x45020003#32 = 2) := by decide

/-- StepRunsDecoded -/
theorem test_witness_step_runs_decoded :
    let s := coded 0x012a4020#32 (here [])
    s.pc ≠ s.map.endPc ∧ s.accessOk .fetch 4 s.pc = true ∧ s.wordAt s.pc = some 0x012a4020#32 ∧
    decodeWord 0x012a4020#32 = .ok (.add 8 9 10) := by decide

theorem readsValues_of_none {s : State} {i : Instr} (h : s.valuelessSource i = none) : ReadsValues s i :=
  State.valuelessSource_eq_none.1 h

/-- StepRunsDecoded: under `draw`, and under `fault` with both sources written and with one missing. -/
theorem test_witness_reads_values : ReadsValues (here []) (.add 8 9 10) ∧
    ReadsValues (hereStrict [(9, 0#32), (10, 0#32)]) (.add 8 9 10) ∧
    (hereStrict [(9, 0#32)]).valuelessSource (.add 8 9 10) = some (.gpr 10) :=
  ⟨readsValues_of_none (by decide), readsValues_of_none (by decide), by decide⟩

/-- StepReadsRegisters: the first and the last of the sources missing. -/
theorem test_witness_step_reads :
    (let s := coded 0x46241000#32 (hereStrict [])
     s.pc ≠ s.map.endPc ∧ s.accessOk .fetch 4 s.pc = true ∧ s.wordAt s.pc = some 0x46241000#32 ∧
     decodeWord 0x46241000#32 = .ok (.addD 0 2 4) ∧ s.params.uninitRead = .fault ∧ s.reservedHere (.addD 0 2 4) = false ∧
     registerSources s (.addD 0 2 4) = [] ++ .fpr 2 :: [.fpr 3, .fpr 4, .fpr 5] ∧ s.hasValue (.fpr 2) = false) ∧
    (let s := withFprs (hereStrict []) [(2, 0#32), (3, 0#32), (4, 0#32)]
     registerSources s (.addD 0 2 4) = [.fpr 2, .fpr 3, .fpr 4] ++ .fpr 5 :: [] ∧ s.hasValue (.fpr 5) = false ∧
     (∀ q ∈ [Piece.fpr 2, .fpr 3, .fpr 4], s.hasValue q = true)) := by decide

/-- StepReadsRegisters, its second clause: the first word past the region, the store's data without a value. -/
theorem test_witness_step_checks_first :
    (let s := coded 0xad090020#32 (hereStrict [(8, 0x10010000#32)])
     s.pc ≠ s.map.endPc ∧ s.accessOk .fetch 4 s.pc = true ∧ s.wordAt s.pc = some 0xad090020#32 ∧
     decodeWord 0xad090020#32 = .ok (.sw 9 0x0020 8) ∧ baseOf (.sw 9 0x0020 8) = some 8 ∧ s.hasValue (.gpr 8) = true ∧
     s.hasValue (.gpr 9) = false ∧ accessOf s (.sw 9 0x0020 8) = some ⟨.store, 4, 0x10010020#32⟩) ∧
    ¬ Access.Permitted ⟨.store, 4, 0x10010020#32⟩ (coded 0xad090020#32 (hereStrict [(8, 0x10010000#32)])) :=
  ⟨by decide, not_permitted_of_not_ok (by decide) (by decide)⟩

/-- StepReadsRegisters: the form is none that is reserved. -/
theorem test_witness_not_reserved : ¬ ReservedForm (hereStrict []) (.addD 0 2 4) := fun h =>
  absurd (State.reservedHere_iff.2 h) (by decide)

/-- SourcesAreAllThatIsRead: two states that differ in a register that add does not read. -/
theorem test_witness_agree :
    AgreeOn (· ∈ registerSources (here []) (.add 8 9 10)) (here []) ((here []).setReg 31 7#32) ∧
    ∃ t, exec (.add 8 9 10) (here []) = .next t :=
  ⟨{ gprs := fun r h => State.reg_setReg_ne _ _ (by
        rintro rfl
        exact absurd h (by decide))
     fprs := fun _ _ => rfl
     hi := fun _ => rfl
     lo := fun _ => rfl
     fpcond := fun _ => rfl
     pc := rfl
     npc := rfl
     inDelaySlot := rfl
     crs := rfl
     llbit := rfl
     lladdr := rfl
     mem := rfl
     map := rfl
     params := rfl
     draws := rfl }, exists_of_isNext (by decide)⟩

/-- WritesGiveValues: the last register of each file, before and after. -/
theorem test_witness_writes_give_values :
    (∃ t, exec (.jal 0) (here []) = .next t) ∧ Piece.gpr 31 ∈ registerDests (.jal 0) ∧ (here []).hasValue (.gpr 31) = false ∧
    (∃ t, exec (.ldc1 30 0 8) (data []) = .next t) ∧ Piece.fpr 31 ∈ registerDests (.ldc1 30 0 8) ∧
    Piece.fpr 29 ∉ registerDests (.ldc1 30 0 8) :=
  ⟨exists_of_isNext (by decide), by decide, by decide, exists_of_isNext (by decide), by decide, by decide⟩

/-- StepFaults: a misaligned `pc`, one past the text, and a reserved word. -/
theorem test_witness_step_faults :
    (let s := start 0x00400002#32 plain
     s.pc ≠ s.map.endPc ∧ s.pc.toNat % 4 ≠ 0) ∧
    (let s := { here [] with pc := 0x00400004#32 }
     s.pc ≠ s.map.endPc ∧ s.map.isText (s.pc.toNat + 0) = false) ∧
    (let s := coded 0xffffffff#32 (here [])
     s.pc ≠ s.map.endPc ∧ s.pc.toNat % 4 = 0 ∧ (∀ k, k < 4 → s.map.isText (s.pc.toNat + k) = true) ∧
     s.wordAt s.pc = some 0xffffffff#32 ∧ decodeWord 0xffffffff#32 = .error (.reserved 0xffffffff#32)) := by decide

/-- StepStaysAtEnd, PlacedWordRuns -/
theorem test_witness_end_and_placed : State.reset.pc = State.reset.map.endPc ∧ State.reset.pc.toNat % 4 = 0 ∧
    ReadsValues (State.reset.withFetchWord 32 0x012a4020) (.add 8 9 10) :=
  ⟨by decide, by decide, readsValues_of_none (by decide)⟩

/-- A launch: an entry at the last word, a data byte at the last address of its region. -/
def launched : Launch where
  program := [0x00000000#32, 0x012a4020#32]
  entry := some 0x00400004#32
  data := [{ base := 0x10010000, size := 8 }]
  bytes := [(0x10010007, 0xff#8)]
  gprs := [(31, 5#32)]

/-- An empty region inside another one overlaps none (log 20), two regions that share an address do (U20). -/
theorem test_empty_region_overlaps_none :
    ({ launched with data := [{ base := 0x10010000, size := 16 }, { base := 0x10010008, size := 0 }] } : Launch).check = none ∧
    ({ launched with data := [{ base := 0x10010000, size := 16 }, { base := 0x10010008, size := 8 }] } : Launch).check =
      some .regionsOverlap := by decide

/-- LaunchStarts -/
theorem test_witness_launch_starts : ∃ s, launched.start = .ok s := ⟨_, rfl⟩

/-- ExceptionsArePrecise: each of the three. -/
theorem test_witness_exceptions :
    (∃ f, step (coded 0x01084020#32 (here [(8, 0x40000000#32)])) = .fault f ∧ f.isException = true) ∧
    (∃ f, step (coded 0x8d090005#32 (data [])) = .fault f ∧ f.isException = true) ∧
    (∃ f, step (coded 0xffffffff#32 (here [])) = .fault f ∧ f.isException = true) :=
  ⟨exists_of_isException (by decide), exists_of_isException (by decide), exists_of_isException (by decide)⟩

/-- UninitialisedReadRaisers: the load that reads no value under `UNINIT_READ = fault`, at the region's last word. -/
theorem test_witness_uninitialised_read :
    exec (.lw 9 0x001c 8) (withRegs (start 0x00400000#32 { plain with uninitRead := .fault }) [(8, 0x10010000#32)]) =
      .fault (.uninitialisedRead (.memory 0x1001001c#32) 0x00400000#32
        (withRegs (start 0x00400000#32 { plain with uninitRead := .fault }) [(8, 0x10010000#32)])) := rfl

/-- StepKeepsInv, LaunchIsFixed -/
theorem test_witness_step_keeps_inv :
    Inv (coded 0x8d090004#32 (data [])) ∧ ∃ t, step (coded 0x8d090004#32 (data [])) = .next t :=
  ⟨inv_data, exists_of_isNext (by decide)⟩

/-- TextIsImmutable: the first and the last byte of the text, over one step. -/
theorem test_witness_text :
    (∃ t, RunsTo 1 (coded 0xad090008#32 (data [])) t) ∧ (data []).map.isText 0x00400000 = true ∧
    (data []).map.isText 0x00400003 = true :=
  ⟨by
    obtain ⟨t, h⟩ := exists_of_isNext (r := step (coded 0xad090008#32 (data []))) (by decide)
    refine ⟨t, ?_⟩
    change (match step (coded 0xad090008#32 (data [])) with
      | .next s' => Host.Core.run Sys2Proof.core 0 s'
      | .fault r => .fault r
      | .refused r => .refused r) = _
    rw [h]
    rfl, by decide, by decide⟩

/-- OnlyJrMisaligns -/
theorem test_witness_only_jr : (∃ t, exec (.beq 0 0 0x8000) (here []) = .next t) ∧ (here []).pc.toNat % 4 = 0 ∧
    (here []).npc.toNat % 4 = 0 := ⟨exists_of_isNext (by decide), by decide, by decide⟩

/-- FlagAndHiLoWriters, GprWriters, FprWriters, MemoryWriters, LinkWriters: a store, a load, a compare, a multiplication. -/
theorem test_witness_writers :
    (∃ t, exec (.sw 9 0 8) (data []) = .next t) ∧ isCompare (.sw 9 0 8) = false ∧ writesHiLo (.sw 9 0 8) = false ∧
    gprDest (.sw 9 0 8) ≠ some 9 ∧ (31 : FReg) ∉ fprDests (.sw 9 0 8) ∧
    (∃ t, exec (.ldc1 30 0 8) (data []) = .next t) ∧ (29 : FReg) ∉ fprDests (.ldc1 30 0 8) ∧
    (∃ t, exec (.jal 0) (data []) = .next t) ∧ gprDest (.jal 0) ≠ some 30 :=
  ⟨exists_of_isNext (by decide), by decide, by decide, by decide, by decide, exists_of_isNext (by decide), by decide,
    exists_of_isNext (by decide), by decide⟩

/-- MemoryWriters: the byte after the last one stored. -/
theorem test_witness_memory_writers : ¬ storesTo (data []) (.sw 9 0 8) 0x10010004#32 := by
  rintro ⟨k, hk, e⟩
  have h : k = 0 ∨ k = 1 ∨ k = 2 ∨ k = 3 := by omega
  rcases h with rfl | rfl | rfl | rfl <;> exact absurd e (by decide)

/-- OverflowRaisers and AddAddiSub: the last sum that fits and the first that does not, for each instruction. -/
theorem test_witness_overflow :
    (-2 ^ 31 ≤ (0x7fff8000#32).toInt + (0x7fff#16).toInt ∧ (0x7fff8000#32).toInt + (0x7fff#16).toInt ≤ 2 ^ 31 - 1) ∧
    ¬ (0x7fff8001#32).toInt + (0x7fff#16).toInt ≤ 2 ^ 31 - 1 ∧
    (0x7ffffffe#32).toInt + (1#32).toInt = 2 ^ 31 - 1 ∧ (0x7fffffff#32).toInt + (1#32).toInt = 2 ^ 31 ∧
    (0x80000001#32).toInt - (1#32).toInt = -2 ^ 31 ∧ (0x80000000#32).toInt - (1#32).toInt = -2 ^ 31 - 1 := by decide

/-- Branches and Jumps: outside a delay slot under either setting of BRANCH_DELAY. -/
theorem test_witness_not_in_slot : NotInSlot (here []) ∧ NotInSlot (start 0x00400000#32 slotted) ∧
    (here []).params.branchDelay = .none ∧ (start 0x00400000#32 slotted).params.branchDelay = .oneSlot :=
  ⟨.inl (by decide), .inr (by decide), by decide, by decide⟩

/-- DelaySlot: each branch and jump under `one_slot`, the branches taken and not taken, and an instruction in the slot. -/
theorem test_witness_delay_slot :
    (start 0x00400000#32 slotted).params.branchDelay = .oneSlot ∧
    (∃ t, exec (.j 7) (start 0x00400000#32 slotted) = .next t ∧ ∃ u, exec (.add 8 9 10) t = .next u) ∧
    (∃ t, exec (.beq 0 0 0x8000) (start 0x00400000#32 slotted) = .next t ∧ t.npc = 0x003e0004#32 ∧
      t.inDelaySlot = true ∧ ∃ u, exec (.add 8 9 10) t = .next u) ∧
    (∃ t, exec (.bne 0 0 0x7fff) (start 0x00400000#32 slotted) = .next t ∧ t.npc = 0x00400008#32 ∧
      t.inDelaySlot = true ∧ ∃ u, exec (.add 8 9 10) t = .next u) :=
  ⟨by decide, ⟨_, rfl, exists_of_isNext (by decide)⟩, ⟨_, rfl, by decide, by decide, exists_of_isNext (by decide)⟩,
    _, rfl, by decide, by decide, exists_of_isNext (by decide)⟩

/-- DelaySlot: jal, jr, bc1t and bc1f complete under `one_slot` too, and are transfers. -/
theorem test_witness_delay_slot_others :
    [Instr.jal 0, .jr 31, .bc1t 0, .bc1f 0].all
      (fun i => isTransfer i && isNext (exec i (start 0x00400000#32 slotted))) = true := by decide

/-- LoadWord, LoadLinked, LoadStoreSingle: the region's last word and the first past it. -/
theorem test_witness_load_word :
    Access.Permitted ⟨.load, 4, (data []).effAddr 8 0x001c⟩ (data []) ∧
    ¬ Access.Permitted ⟨.load, 4, (data []).effAddr 8 0x0020⟩ (data []) ∧
    (data []).byteAt 0x1001001c#32 = some 0#8 ∧ (data []).byteAt 0x1001001d#32 = some 0#8 ∧
    (data []).byteAt 0x1001001e#32 = some 0#8 ∧ (data []).byteAt 0x1001001f#32 = some 0#8 ∧
    (data []).wordAt 0x1001001c#32 = some 0#32 ∧ (data []).params.byteOrder = .little ∧
    (start 0#32 { plain with byteOrder := .big }).params.byteOrder = .big :=
  ⟨permitted_of_ok (by decide) (by decide), not_permitted_of_not_ok (by decide) (by decide), by decide, by decide, by decide,
    by decide, by decide, by decide, by decide⟩

/-- LoadBytes, LoadHalfwords: the region's last byte and halfword, and the first past it. -/
theorem test_witness_load_small :
    Access.Permitted ⟨.load, 1, (data []).effAddr 8 0x001f⟩ (data []) ∧
    ¬ Access.Permitted ⟨.load, 1, (data []).effAddr 8 0x0020⟩ (data []) ∧
    Access.Permitted ⟨.load, 2, (data []).effAddr 8 0x001e⟩ (data []) ∧
    ¬ Access.Permitted ⟨.load, 2, (data []).effAddr 8 0x001f⟩ (data []) ∧
    (data []).byteAt 0x1001001e#32 = some 0#8 ∧ (data []).byteAt 0x1001001f#32 = some 0#8 :=
  ⟨permitted_of_ok (by decide) (by decide), not_permitted_of_not_ok (by decide) (by decide),
    permitted_of_ok (by decide) (by decide), not_permitted_of_not_ok (by decide) (by decide), by decide, by decide⟩

/-- Stores, StoreConditional, LoadStoreSingle: the last word, byte and halfword; misaligned, past the region, in the text. -/
theorem test_witness_stores :
    Access.Permitted ⟨.store, 4, (data []).effAddr 8 0x001c⟩ (data []) ∧
    ¬ Access.Permitted ⟨.store, 4, (data []).effAddr 8 0x001e⟩ (data []) ∧
    Access.Permitted ⟨.store, 1, (data []).effAddr 8 0x001f⟩ (data []) ∧
    ¬ Access.Permitted ⟨.store, 1, (data [(8, 0x00400003#32)]).effAddr 8 0⟩ (data [(8, 0x00400003#32)]) ∧
    Access.Permitted ⟨.store, 2, (data []).effAddr 8 0x001e⟩ (data []) ∧
    ¬ Access.Permitted ⟨.store, 2, (data []).effAddr 8 0x0020⟩ (data []) :=
  ⟨permitted_of_ok (by decide) (by decide), not_permitted_of_not_ok (by decide) (by decide),
    permitted_of_ok (by decide) (by decide), not_permitted_of_not_ok (by decide) (by decide),
    permitted_of_ok (by decide) (by decide), not_permitted_of_not_ok (by decide) (by decide)⟩

/-- StoreThenLoad: each byte of the last word of the region. -/
theorem test_witness_store_then_load :
    Access.Permitted ⟨.store, 4, (data []).effAddr 8 0x001c⟩ (data []) ∧ (data []).params.byteOrder = .little ∧
    (∀ k, k < 4 → (data []).effAddr 8 (BitVec.ofNat 16 (0x1c + k)) = (data []).effAddr 8 0x001c + BitVec.ofNat 32 k) :=
  ⟨permitted_of_ok (by decide) (by decide), by decide, by decide⟩

/-- StoreConditional: a pair that is whole and may not fail spuriously, a closed one, one of another address; the two
outcomes. -/
theorem test_witness_store_conditional :
    let s := { data [(9, 1#32)] with llbit := true, lladdr := 0x1001001c#32 }
    (s.llbit = true ∧ s.lladdr = s.effAddr 8 0x001c ∧ s.params.scMayFailSpuriously = false) ∧
    s.scSucceeds (s.effAddr 8 0x001c) = true ∧
    (data []).llbit = false ∧ (s.lladdr ≠ s.effAddr 8 0x0018 ∧ s.scSucceeds (s.effAddr 8 0x0018) = false) := by decide

/-- DivideSigned, DivideUnsigned: -2^31 by 1 and by -2, the divisors next to the open ones. -/
theorem test_witness_divide :
    ((1#32).toInt ≠ 0 ∧ ¬ ((0x80000000#32).toInt = -2 ^ 31 ∧ (1#32).toInt = -1)) ∧
    ((0xfffffffe#32).toInt ≠ 0 ∧ ¬ ((0x80000000#32).toInt = -2 ^ 31 ∧ (0xfffffffe#32).toInt = -1)) ∧
    (1#32).toNat ≠ 0 := by decide

/-- DoubleArithmetic, DoubleCompares, LoadStoreDouble: the last even and the last odd register; both pair orders. -/
theorem test_witness_doubles :
    (30 : FReg).toNat % 2 = 0 ∧ (31 : FReg).toNat % 2 = 1 ∧ plain.fpPairOrder = .firstIsHigh ∧
    ({ plain with fpPairOrder := .firstIsLow } : Params).fpPairOrder = .firstIsLow := by decide

/-- NanComparesFalse: the least and the greatest pattern of a NaN. -/
theorem test_witness_nan :
    ((0x7f800001#32).extractLsb' 23 8 = 0xff#8 ∧ (0x7f800001#32).extractLsb' 0 23 ≠ 0#23) ∧
    ((0xffffffff#32).extractLsb' 23 8 = 0xff#8 ∧ (0xffffffff#32).extractLsb' 0 23 ≠ 0#23) ∧
    ((0x7ff0000000000001#64).extractLsb' 52 11 = 0x7ff#11 ∧ (0x7ff0000000000001#64).extractLsb' 0 52 ≠ 0#52) := by decide

/-- LoadStoreDouble: the last doubleword, one that is misaligned, and the words that are read. -/
theorem test_witness_load_store_double :
    Access.Permitted ⟨.load, 8, (data []).effAddr 8 0x0018⟩ (data []) ∧
    ¬ Access.Permitted ⟨.load, 8, (data []).effAddr 8 0x001c⟩ (data []) ∧
    Access.Permitted ⟨.store, 8, (data []).effAddr 8 0x0018⟩ (data []) ∧
    ¬ Access.Permitted ⟨.store, 8, (data []).effAddr 8 0x0020⟩ (data []) ∧
    (data []).wordAt 0x10010018#32 = some 0#32 ∧ (data []).wordAt (0x10010018#32 + 4#32) = some 0#32 :=
  ⟨permitted_of_ok (by decide) (by decide), not_permitted_of_not_ok (by decide) (by decide),
    permitted_of_ok (by decide) (by decide), not_permitted_of_not_ok (by decide) (by decide), by decide, by decide⟩

/-- PseudoBranches: both ends of a branch's reach, for each of the four; and the words of V47.1, V47.5. -/
theorem test_witness_pseudo_branches :
    (here []).params.branchDelay = .none ∧
    Assembler.expand 0x00400000#32 (.blt 9 10 0x00420004#32) = some [.slt 1 9 10, .bne 1 0 0x7fff] ∧
    Assembler.expand 0x00400000#32 (.bgt 9 10 0x003e0008#32) = some [.slt 1 10 9, .bne 1 0 0x8000] ∧
    Assembler.expand 0x00400000#32 (.ble 9 10 0x00400010#32) = some [.slt 1 10 9, .beq 1 0 2] ∧
    Assembler.expand 0x00400000#32 (.bge 9 10 0x00400010#32) = some [.slt 1 9 10, .beq 1 0 2] ∧
    Assembler.expand 0x00400000#32 (.blt 9 10 0x00420008#32) = none := by decide

/-- Completion: `Completes` holds of a load that reads a value, and of a branch outside a delay slot. -/
theorem test_witness_completes : (∃ t, exec (.lw 9 0x001c 8) (data []) = .next t) ∧
    ∃ t, exec (.beq 0 0 0) (start 0x00400000#32 slotted) = .next t :=
  ⟨exists_of_isNext (by decide), exists_of_isNext (by decide)⟩

end Sys2Proof.Tests
end

/-! The word that the encoder writes decodes to its instruction: the 62 per-instruction laws put together. -/

namespace Sys2Proof.Laws.RowAcceptsWord

/-- The per-instruction laws of this family, for whatever instruction (R99). -/
theorem exists_row_of_encode : ∀ i : Instr, Statement i
  | .add .. => add ..
  | .addi .. => addi ..
  | .addiu .. => addiu ..
  | .addu .. => addu ..
  | .sub .. => sub ..
  | .subu .. => subu ..
  | .slt .. => slt ..
  | .sltu .. => sltu ..
  | .slti .. => slti ..
  | .sltiu .. => sltiu ..
  | .and .. => and ..
  | .andi .. => andi ..
  | .or .. => or ..
  | .ori .. => ori ..
  | .nor .. => nor ..
  | .xor .. => xor ..
  | .sll .. => sll ..
  | .srl .. => srl ..
  | .sra .. => sra ..
  | .beq .. => beq ..
  | .bne .. => bne ..
  | .j .. => j ..
  | .jal .. => jal ..
  | .jr .. => jr ..
  | .lw .. => lw ..
  | .lbu .. => lbu ..
  | .lb .. => lb ..
  | .lhu .. => lhu ..
  | .lh .. => lh ..
  | .sw .. => sw ..
  | .sb .. => sb ..
  | .sh .. => sh ..
  | .lui .. => lui ..
  | .ll .. => ll ..
  | .sc .. => sc ..
  | .mult .. => mult ..
  | .multu .. => multu ..
  | .div .. => div ..
  | .divu .. => divu ..
  | .mfhi .. => mfhi ..
  | .mflo .. => mflo ..
  | .addS .. => addS ..
  | .addD .. => addD ..
  | .subS .. => subS ..
  | .subD .. => subD ..
  | .mulS .. => mulS ..
  | .mulD .. => mulD ..
  | .divS .. => divS ..
  | .divD .. => divD ..
  | .cEqS .. => cEqS ..
  | .cLtS .. => cLtS ..
  | .cLeS .. => cLeS ..
  | .cEqD .. => cEqD ..
  | .cLtD .. => cLtD ..
  | .cLeD .. => cLeD ..
  | .bc1t .. => bc1t ..
  | .bc1f .. => bc1f ..
  | .lwc1 .. => lwc1 ..
  | .ldc1 .. => ldc1 ..
  | .swc1 .. => swc1 ..
  | .sdc1 .. => sdc1 ..
  | .mfc0 .. => mfc0 ..

end Sys2Proof.Laws.RowAcceptsWord

namespace Sys2Proof

/-- The decoder undoes the encoder (R99): the row that built the word is the only one that accepts it. -/
@[simp] theorem decodeWord_encode (i : Instr) : decodeWord (encode i) = .ok i := by
  obtain ⟨r, hmem, haccepts, hbuild⟩ := Laws.RowAcceptsWord.exists_row_of_encode i
  rw [decodeWord_of_accepts hmem haccepts, hbuild]

end Sys2Proof

/-! The step and the instruction at `pc` (00_scope.md, R10): a step runs the instruction that the word at `pc` decodes to,
and a word placed at `pc` is the one that runs. -/

namespace Sys2Proof.Machine

/-! ### A step that fetches an instruction -/

/-- Of all that a step can do (`step_cases`), the conditions of its last case leave only that case: run the instruction
(R10). -/
theorem step_eq_exec {s : State} {w : Word} {i : Instr} (hpc : s.pc ≠ s.map.endPc)
    (hfetch : s.accessOk .fetch 4 s.pc = true) (hword : s.wordAt s.pc = some w) (hdec : decodeWord w = .ok i)
    (hreads : s.valuelessSource i = none) : step s = exec i s := by
  rcases step_cases s with
    ⟨hend, -⟩ | ⟨-, ⟨hbad, -⟩ | ⟨-, hnone, -⟩ | ⟨w', -, hw', hres, -⟩ | ⟨w', i', p, -, hw', hd', hp, -⟩ |
      ⟨w', i', -, hw', hd', -, hrun⟩⟩
  case inl => exact absurd hend hpc
  case inr.inl => simp [hfetch] at hbad
  case inr.inr.inl => simp [hword] at hnone
  all_goals obtain rfl : w = w' := Option.some.inj (hword.symm.trans hw')
  case inr.inr.inr.inl => exact absurd hdec (hres i)
  all_goals obtain rfl : i = i' := Except.ok.inj (hdec.symm.trans hd')
  case inr.inr.inr.inr.inl => simp [hreads] at hp
  case inr.inr.inr.inr.inr => exact hrun

/-- Settles O5: of the cases of `step_cases` only the last is left. -/
theorem stepRunsDecoded : Obligations.StepRunsDecoded := by
  intro s w i hpc hfetch hword hdec hreads
  exact step_eq_exec hpc hfetch hword hdec (State.valuelessSource_eq_none.2 hreads)

/-! ### The map that makes a fetch possible (log 21) -/

/-- The run has not ended at a `pc` that was made fetchable (R335 (a)). -/
theorem MemMap.ne_fetchable_endPc (m : MemMap) (pc : Word) : pc ≠ (m.fetchable pc).endPc := by
  by_cases h : m.endPc = pc
  · simp [MemMap.fetchable, h]
  · simpa [MemMap.fetchable, h] using Ne.symm h

/-- The four bytes from a `pc` that was made fetchable are text: they were before, or the text region is now theirs
(R335 (b)). -/
theorem MemMap.isText_fetchable (m : MemMap) (pc : Word) {k : Nat} (hk : k < 4) :
    (m.fetchable pc).isText (pc.toNat + k) = true := by
  by_cases h : allFrom m.isText pc.toNat 4 = true
  · simpa [MemMap.fetchable, MemMap.isText, h] using allFrom_iff.1 h k hk
  · simpa [MemMap.fetchable, MemMap.isText, Region.contains, h] using hk

/-! ### The word that `withFetchWord` places -/

/-- Placing a word of 32 bits is storing it at `pc`, under the map that makes it fetchable (log 21). -/
theorem State.withFetchWord_eq_setWord (s : State) (w : Word) :
    s.withFetchWord 32 w.toNat = ({ s with map := s.map.fetchable s.pc }).setWord s.pc w := by
  rw [State.withFetchWord, State.placeFetchWord, Nat.mod_eq_of_lt w.isLt, BitVec.ofNat_toNat, BitVec.setWidth_eq]

/-! Placing a word changes memory and the map alone, field by field. -/

@[simp] theorem State.withFetchWord_pc (s : State) (w : Nat) : (s.withFetchWord 32 w).pc = s.pc := rfl
@[simp] theorem State.withFetchWord_npc (s : State) (w : Nat) : (s.withFetchWord 32 w).npc = s.npc := rfl
@[simp] theorem State.withFetchWord_inDelaySlot (s : State) (w : Nat) :
    (s.withFetchWord 32 w).inDelaySlot = s.inDelaySlot := rfl
@[simp] theorem State.withFetchWord_hi (s : State) (w : Nat) : (s.withFetchWord 32 w).hi = s.hi := rfl
@[simp] theorem State.withFetchWord_lo (s : State) (w : Nat) : (s.withFetchWord 32 w).lo = s.lo := rfl
@[simp] theorem State.withFetchWord_fpcond (s : State) (w : Nat) : (s.withFetchWord 32 w).fpcond = s.fpcond := rfl
@[simp] theorem State.withFetchWord_llbit (s : State) (w : Nat) : (s.withFetchWord 32 w).llbit = s.llbit := rfl
@[simp] theorem State.withFetchWord_lladdr (s : State) (w : Nat) : (s.withFetchWord 32 w).lladdr = s.lladdr := rfl
@[simp] theorem State.withFetchWord_params (s : State) (w : Nat) : (s.withFetchWord 32 w).params = s.params := rfl
@[simp] theorem State.withFetchWord_written (s : State) (w : Nat) : (s.withFetchWord 32 w).written = s.written := rfl
@[simp] theorem State.withFetchWord_reg (s : State) (w : Nat) (q : Reg) : (s.withFetchWord 32 w).reg q = s.reg q := rfl
@[simp] theorem State.withFetchWord_fpr (s : State) (w : Nat) (q : FReg) : (s.withFetchWord 32 w).fpr q = s.fpr q := rfl
@[simp] theorem State.withFetchWord_cr (s : State) (w : Nat) (q : BitVec 5) :
    (s.withFetchWord 32 w).cr q = s.cr q := rfl
@[simp] theorem State.withFetchWord_map (s : State) (w : Nat) :
    (s.withFetchWord 32 w).map = s.map.fetchable s.pc := rfl

@[simp] theorem State.wordAt_withFetchWord (s : State) (w : Word) :
    (s.withFetchWord 32 w.toNat).wordAt s.pc = some w := by
  rw [State.withFetchWord_eq_setWord, State.wordAt_setWord]

/-- The fetch of a placed word passes its checks where `pc` is aligned (R54, R335 (b)). -/
theorem State.accessOk_fetch_withFetchWord (s : State) (w : Nat) (haligned : s.pc.toNat % 4 = 0) :
    (s.withFetchWord 32 w).accessOk .fetch 4 s.pc = true := by
  rw [State.accessOk_iff]
  exact ⟨haligned, fun _ hk => s.map.isText_fetchable s.pc hk⟩

/-- The step after an instruction was placed at an aligned `pc` fetches its word, which decodes to it, and runs it. -/
theorem step_withFetchWord_encode (s : State) (i : Instr) (haligned : s.pc.toNat % 4 = 0)
    (hreads : ReadsValues (s.withFetchWord 32 (encode i).toNat) i) :
    step (s.withFetchWord 32 (encode i).toNat) = exec i (s.withFetchWord 32 (encode i).toNat) :=
  stepRunsDecoded _ (encode i) i (s.map.ne_fetchable_endPc s.pc) (s.accessOk_fetch_withFetchWord _ haligned)
    (s.wordAt_withFetchWord (encode i)) (decodeWord_encode i) hreads

/-- Settles O8: the step is `step_withFetchWord_encode`, and the rest the frame of `withFetchWord`. -/
theorem placedWordRuns : Obligations.PlacedWordRuns := by
  intro s i haligned
  refine ⟨step_withFetchWord_encode s i haligned, ?_⟩
  simp

end Sys2Proof.Machine

/-! What an instruction that completes does, as data: the list of its writes and how it moves the program counter. An
instruction's whole effect is determined by its listed sources, so one theorem over the 62 instructions
(`exec_hasEffect`) serves every statement about who writes what (10_state.md). -/

namespace Sys2Proof.Machine

/-! ### Writes and effects -/

/-- One write of a piece of the state, by the operation of the model that makes it. -/
inductive Write where
  | gpr (r : Reg) (v : Word)
  | fpr (n : FReg) (v : Word)
  | hiLo (hi lo : Word)
  | fpcond (b : Bool)
  | byte (a : Word) (b : Byte)
  | link (a : Word)
  | unlink
  | draws (n : Nat)

/-- The state after a write. -/
def Write.apply (s : State) : Write → State
  | .gpr r v => s.setReg r v
  | .fpr n v => s.setFpr n v
  | .hiLo h l => s.setHiLo h l
  | .fpcond b => s.setFpcond b
  | .byte a b => s.setByte a b
  | .link a => s.setLink a
  | .unlink => s.clearLink
  | .draws n => s.drew n

/-- The registers of R332 that a write writes. -/
def Write.pieces : Write → List Piece
  | .gpr r _ => [.gpr r]
  | .fpr n _ => [.fpr n]
  | .hiLo _ _ => [.hi, .lo]
  | .fpcond _ => [.fpcond]
  | .byte _ _ | .link _ | .unlink | .draws _ => []

/-- How an instruction ends: in sequence (R28), or as a branch or jump (R150, R151). -/
inductive Flow where
  | sequential
  | transfer (taken : Bool) (target : Word)

/-- The state after the program counter has moved. -/
def Flow.apply (s : State) : Flow → State
  | .sequential => s.advance
  | .transfer taken target => s.transfer taken target

/-- The writes of an instruction, in order, and how it ends. -/
structure Effect where
  writes : List Write
  flow : Flow := .sequential

/-- The state after an instruction. -/
def Effect.apply (e : Effect) (s : State) : State := e.flow.apply (e.writes.foldl Write.apply s)

/-- The bytes of a halfword store (R52). -/
def halfWrites (o : ByteOrder) (a : Word) (v : Half) : List Write :=
  [.byte a (laneByte o 2 v 0), .byte (a + 1#32) (laneByte o 2 v 1)]

/-- The bytes of a word store (R52). -/
def wordWrites (o : ByteOrder) (a v : Word) : List Write :=
  [.byte a (laneByte o 4 v 0), .byte (a + 1#32) (laneByte o 4 v 1), .byte (a + 2#32) (laneByte o 4 v 2),
    .byte (a + 3#32) (laneByte o 4 v 3)]

/-- The writes of a double to its pair of registers (R243). -/
def doubleWrites (o : FpPairOrder) (n : FReg) (v : DWord) : List Write :=
  [.fpr n (pairFirst o v), .fpr (n + 1#5) (pairSecond o v)]

/-! ### What an instruction may do to memory, the link and the program counter -/

/-- A byte is stored only where the instruction stores and a store is permitted, the pair is opened by a permitted ll
and closed by sc alone (R34, R35, R61, R66). -/
def Write.Allowed (i : Instr) (s : State) : Write → Prop
  | .byte a _ => storesTo s i a ∧ s.map.permits .store a.toNat = true
  | .link a => (∃ rt imm rs, i = .ll rt imm rs) ∧ s.accessOk .load 4 a = true
  | .unlink => ∃ rt imm rs, i = .sc rt imm rs
  | .gpr _ _ | .fpr _ _ | .hiLo _ _ | .fpcond _ | .draws _ => True

/-- A target is aligned where `pc` is, jr's excepted (R26, R155). -/
def Flow.Allowed (i : Instr) (s : State) : Flow → Prop
  | .sequential => True
  | .transfer _ target => (∀ rs, i ≠ .jr rs) → s.pc.toNat % 4 = 0 → target.toNat % 4 = 0

/-- The effect is one that the instruction can have in a state: it writes exactly its destination registers, and nothing
that it may not. -/
structure Effect.AllowedFor (e : Effect) (i : Instr) (s : State) : Prop where
  pieces : e.writes.flatMap Write.pieces = registerDests i
  writes : ∀ w ∈ e.writes, w.Allowed i s
  flow : e.flow.Allowed i s

/-- Two states hold the same in the instruction's sources, and in all that is no register (R332; log 5). -/
abbrev SameSources (i : Instr) (s s' : State) : Prop := AgreeOn (· ∈ registerSources s i) s s'

/-- Wherever the run completes it does so by an allowed effect, and by the same effect from every state with the same
sources. -/
def HasEffect (i : Instr) (s : State) (run : State → Result) : Prop :=
  ∀ t, run s = .next t → ∃ e : Effect, e.AllowedFor i s ∧
    ∀ s', SameSources i s s' → run s' = .next (e.apply s')

/-! ### States that agree -/

theorem AgreeOn.refl (on : Piece → Prop) (s : State) : AgreeOn on s s := by
  constructor <;> simp

theorem AgreeOn.mono {on on' : Piece → Prop} {s s' : State} (h : AgreeOn on s s') (hon : ∀ p, on' p → on p) :
    AgreeOn on' s s' :=
  { h with
    gprs := fun r hr => h.gprs r (hon _ hr)
    fprs := fun n hn => h.fprs n (hon _ hn)
    hi := fun hp => h.hi (hon _ hp)
    lo := fun hp => h.lo (hon _ hp)
    fpcond := fun hp => h.fpcond (hon _ hp) }

section
variable {on : Piece → Prop} {s s' : State} (h : AgreeOn on s s')
include h

theorem AgreeOn.effAddr {rs : Reg} (hrs : on (.gpr rs)) (imm : Imm) : s'.effAddr rs imm = s.effAddr rs imm := by
  simp only [State.effAddr, h.gprs rs hrs]

theorem AgreeOn.dbl {n : FReg} (hn : ∀ p ∈ pairPieces n, on p) : s'.dbl n = s.dbl n := by
  simp only [State.dbl, h.params, h.fprs n (hn _ (by simp [pairPieces])),
    h.fprs (n + 1#5) (hn _ (by simp [pairPieces]))]

theorem AgreeOn.oneSlot : s'.oneSlot = s.oneSlot := by simp only [State.oneSlot, h.params]

theorem AgreeOn.byteAt (a : Word) : s'.byteAt a = s.byteAt a := State.byteAt_congr h.mem h.params a

theorem AgreeOn.halfAt (a : Word) : s'.halfAt a = s.halfAt a := by
  simp only [State.halfAt, h.byteAt, h.params]

theorem AgreeOn.wordAt (a : Word) : s'.wordAt a = s.wordAt a := by
  simp only [State.wordAt, h.byteAt, h.params]

theorem AgreeOn.wordPairAt (a : Word) : s'.wordPairAt a = s.wordPairAt a := by
  simp only [State.wordPairAt, h.wordAt]

theorem AgreeOn.accessOk (k : AccessKind) (n : Nat) (a : Word) : s'.accessOk k n a = s.accessOk k n a :=
  State.accessOk_congr h.map k n a

theorem AgreeOn.scSucceeds (a : Word) : s'.scSucceeds a = s.scSucceeds a := by
  simp only [State.scSucceeds, State.scSpurious, State.anyBit, h.llbit, h.lladdr, h.params, h.draws]

theorem AgreeOn.cr (n : BitVec 5) : s'.cr n = s.cr n := by simp only [State.cr, h.crs]

end

/-! ### The same writes keep states in agreement -/

section
variable {on : Piece → Prop} {s s' : State} (h : AgreeOn on s s')
include h

theorem AgreeOn.setReg (r : Reg) (v : Word) :
    AgreeOn (fun p => on p ∨ p ∈ [.gpr r]) (s.setReg r v) (s'.setReg r v) :=
  { h with
    gprs := fun q hq => by
      by_cases e : q = r
      · rw [e, State.reg_setReg_same, State.reg_setReg_same]
      · rw [State.reg_setReg_ne _ _ e, State.reg_setReg_ne _ _ e]
        exact h.gprs q (by simpa [e] using hq)
    fprs := fun n hn => h.fprs n (by simpa using hn)
    hi := fun hp => h.hi (by simpa using hp)
    lo := fun hp => h.lo (by simpa using hp)
    fpcond := fun hp => h.fpcond (by simpa using hp) }

theorem AgreeOn.setFpr (n : FReg) (v : Word) :
    AgreeOn (fun p => on p ∨ p ∈ [.fpr n]) (s.setFpr n v) (s'.setFpr n v) :=
  { h with
    gprs := fun r hr => h.gprs r (by simpa using hr)
    fprs := fun q hq => by
      by_cases e : q = n
      · rw [e, State.fpr_setFpr_same, State.fpr_setFpr_same]
      · rw [State.fpr_setFpr_ne _ _ e, State.fpr_setFpr_ne _ _ e]
        exact h.fprs q (by simpa [e] using hq)
    hi := fun hp => h.hi (by simpa using hp)
    lo := fun hp => h.lo (by simpa using hp)
    fpcond := fun hp => h.fpcond (by simpa using hp) }

theorem AgreeOn.setHiLo (hi lo : Word) :
    AgreeOn (fun p => on p ∨ p ∈ [.hi, .lo]) (s.setHiLo hi lo) (s'.setHiLo hi lo) :=
  { h with
    gprs := fun r hr => h.gprs r (by simpa using hr)
    fprs := fun n hn => h.fprs n (by simpa using hn)
    hi := fun _ => rfl
    lo := fun _ => rfl
    fpcond := fun hp => h.fpcond (by simpa using hp) }

theorem AgreeOn.setFpcond (b : Bool) :
    AgreeOn (fun p => on p ∨ p ∈ [.fpcond]) (s.setFpcond b) (s'.setFpcond b) :=
  { h with
    gprs := fun r hr => h.gprs r (by simpa using hr)
    fprs := fun n hn => h.fprs n (by simpa using hn)
    hi := fun hp => h.hi (by simpa using hp)
    lo := fun hp => h.lo (by simpa using hp)
    fpcond := fun _ => rfl }

theorem AgreeOn.write (w : Write) : AgreeOn (fun p => on p ∨ p ∈ w.pieces) (w.apply s) (w.apply s') := by
  have hold : AgreeOn (fun p => on p ∨ p ∈ ([] : List Piece)) s s' := h.mono (by simp)
  cases w with
  | gpr r v => exact h.setReg r v
  | fpr n v => exact h.setFpr n v
  | hiLo hi lo => exact h.setHiLo hi lo
  | fpcond b => exact h.setFpcond b
  | byte a b => exact { hold with mem := congrArg (·.put a.toNat b) h.mem }
  | link a => exact { hold with llbit := rfl, lladdr := rfl }
  | unlink => exact { hold with llbit := rfl }
  | draws n => exact { hold with draws := congrArg (· + n) h.draws }

theorem AgreeOn.writes (ws : List Write) :
    AgreeOn (fun p => on p ∨ p ∈ ws.flatMap Write.pieces) (ws.foldl Write.apply s) (ws.foldl Write.apply s') := by
  induction ws generalizing on s s' with
  | nil => exact h.mono (by simp)
  | cons w ws ih => exact (ih (h.write w)).mono fun p hp => by simpa [or_assoc] using hp

theorem AgreeOn.flow (f : Flow) : AgreeOn on (f.apply s) (f.apply s') := by
  cases f with
  | sequential =>
    exact { h with
      pc := by simp only [Flow.apply, State.advance, h.oneSlot, h.pc, h.npc]
      npc := by simp only [Flow.apply, State.advance, h.oneSlot, h.npc]
      inDelaySlot := by simp only [Flow.apply, State.advance, h.oneSlot, h.inDelaySlot] }
  | transfer taken target =>
    exact { h with
      pc := by simp only [Flow.apply, State.transfer, h.oneSlot, h.pc, h.npc]
      npc := by simp only [Flow.apply, State.transfer, h.oneSlot, h.npc]
      inDelaySlot := by simp only [Flow.apply, State.transfer, h.oneSlot, h.inDelaySlot] }

/-- The same effect on states that agree leaves them in agreement, also on the registers that it writes. -/
theorem AgreeOn.effect (e : Effect) :
    AgreeOn (fun p => on p ∨ p ∈ e.writes.flatMap Write.pieces) (e.apply s) (e.apply s') :=
  (h.writes e.writes).flow e.flow

end

/-! ### The parts that meanings are made of -/

section
variable {i : Instr} {s : State}

theorem hasEffect_next {e : State → Effect} (hallowed : (e s).AllowedFor i s)
    (hsame : ∀ s', SameSources i s s' → e s' = e s) :
    HasEffect i s fun u => .next ((e u).apply u) :=
  fun _ _ => ⟨e s, hallowed, fun s' h => congrArg (fun e : Effect => (.next (e.apply s') : Result)) (hsame s' h)⟩

theorem hasEffect_raise {f : State → Word → State → Fault} : HasEffect i s fun u => raise (f u) u :=
  fun _ h => absurd h raise_ne_next

theorem hasEffect_ite {c : State → Bool} {run₁ run₂ : State → Result}
    (hsame : ∀ s', SameSources i s s' → c s' = c s)
    (h₁ : c s = true → HasEffect i s run₁) (h₂ : HasEffect i s run₂) :
    HasEffect i s fun u => if c u then run₁ u else run₂ u := by
  intro t ht
  cases hc : c s with
  | true =>
    obtain ⟨e, he, hrun⟩ := h₁ hc t (by simpa [hc] using ht)
    exact ⟨e, he, fun s' h => by simpa [hsame s' h, hc] using hrun s' h⟩
  | false =>
    obtain ⟨e, he, hrun⟩ := h₂ t (by simpa [hc] using ht)
    exact ⟨e, he, fun s' h => by simpa [hsame s' h, hc] using hrun s' h⟩

theorem hasEffect_outsideDelaySlot {run : State → Result} (hrun : HasEffect i s run) :
    HasEffect i s fun u => outsideDelaySlot i u (run u) :=
  hasEffect_ite (fun _ h => by simp only [h.oneSlot, h.inDelaySlot]) (fun _ => hasEffect_raise) hrun

theorem hasEffect_requireEven {regs : List FReg} {run : State → Result} (hrun : HasEffect i s run) :
    HasEffect i s fun u => requireEven i regs u (run u) :=
  hasEffect_ite (fun _ _ => rfl) (fun _ => hrun) hasEffect_raise

theorem hasEffect_checked {k : AccessKind} {n : Nat} {a : State → Word} {run : State → Result}
    (hsame : ∀ s', SameSources i s s' → a s' = a s)
    (hrun : s.accessOk k n (a s) = true → HasEffect i s run) :
    HasEffect i s fun u => checked k n (a u) u (run u) :=
  hasEffect_ite (fun s' h => by rw [hsame s' h, h.accessOk]) hrun hasEffect_raise

theorem hasEffect_withValue {α : Type} {v : State → Option α} {a : State → Word} {run : α → State → Result}
    (hsame : ∀ s', SameSources i s s' → v s' = v s) (hrun : ∀ x, HasEffect i s (run x)) :
    HasEffect i s fun u => withValue (v u) (a u) u fun x => run x u := by
  intro t ht
  cases hv : v s with
  | some x =>
    obtain ⟨e, he, hsome⟩ := hrun x t (by simpa [withValue, hv] using ht)
    exact ⟨e, he, fun s' h => by simpa [withValue, hsame s' h, hv] using hsome s' h⟩
  | none => simp [withValue, hv] at ht

/-! ### Integer instructions -/

/-- An instruction that writes one general register (R23). -/
theorem hasEffect_setReg {rd : Reg} {v : State → Word} (hd : registerDests i = [.gpr rd])
    (hsame : ∀ s', SameSources i s s' → v s' = v s) :
    HasEffect i s fun u => .next (u.setReg rd (v u)).advance :=
  hasEffect_next (e := fun u => ⟨[.gpr rd (v u)], .sequential⟩)
    ⟨by simp [Write.pieces, hd], by simp [Write.Allowed], trivial⟩ fun s' h => by rw [hsame s' h]

/-- `x[rd] <- f(x[rs])`. -/
theorem hasEffect_unary {rd rs : Reg} (f : Word → Word) (hd : registerDests i = [.gpr rd])
    (hs : registerSources s i = [.gpr rs]) : HasEffect i s fun u => .next (u.setReg rd (f (u.reg rs))).advance :=
  hasEffect_setReg hd fun _ h => by rw [h.gprs rs (by simp [hs])]

/-- `x[rd] <- f(x[rs], x[rt])`. -/
theorem hasEffect_binary {rd rs rt : Reg} (f : Word → Word → Word) (hd : registerDests i = [.gpr rd])
    (hs : registerSources s i = [.gpr rs, .gpr rt]) :
    HasEffect i s fun u => .next (u.setReg rd (f (u.reg rs) (u.reg rt))).advance :=
  hasEffect_setReg hd fun _ h => by rw [h.gprs rs (by simp [hs]), h.gprs rt (by simp [hs])]

/-- An instruction that raises Overflow where the test on its operands says so (R301). -/
theorem hasEffect_unlessOverflow {c : State → Bool} {run : State → Result}
    (hsame : ∀ s', SameSources i s s' → c s' = c s) (hrun : HasEffect i s run) :
    HasEffect i s fun u => if c u then raise .overflow u else run u :=
  hasEffect_ite hsame (fun _ => hasEffect_raise) hrun

/-- An instruction that writes `hi` and `lo` (R29). -/
theorem hasEffect_setHiLo {hi lo : State → Word} (hd : registerDests i = [.hi, .lo])
    (hhi : ∀ s', SameSources i s s' → hi s' = hi s)
    (hlo : ∀ s', SameSources i s s' → lo s' = lo s) :
    HasEffect i s fun u => .next (u.setHiLo (hi u) (lo u)).advance :=
  hasEffect_next (e := fun u => ⟨[.hiLo (hi u) (lo u)], .sequential⟩)
    ⟨by simp [Write.pieces, hd], by simp [Write.Allowed], trivial⟩ fun s' h => by rw [hhi s' h, hlo s' h]

/-- A multiplication (R200). -/
theorem hasEffect_setProduct {rs rt : Reg} (f : Word → Word → DWord) (hd : registerDests i = [.hi, .lo])
    (hs : registerSources s i = [.gpr rs, .gpr rt]) :
    HasEffect i s fun u => .next (u.setProduct (f (u.reg rs) (u.reg rt))).advance :=
  have hsame : ∀ s', SameSources i s s' → f (s'.reg rs) (s'.reg rt) = f (s.reg rs) (s.reg rt) := fun _ h =>
    by rw [h.gprs rs (by simp [hs]), h.gprs rt (by simp [hs])]
  hasEffect_setHiLo hd (fun s' h => by rw [hsame s' h]) (fun s' h => by rw [hsame s' h])

/-- A division whose result the spec leaves open takes two draws (R203, R204; log 12). -/
theorem hasEffect_setHiLoOpen (hd : registerDests i = [.hi, .lo]) :
    HasEffect i s fun u => .next u.setHiLoOpen.advance :=
  hasEffect_next (e := fun u => ⟨[.hiLo (u.any32 1) (u.any32 0), .draws 2], .sequential⟩)
    ⟨by simp [Write.pieces, hd], by simp [Write.Allowed], trivial⟩
    fun s' h => by simp only [State.any32, h.draws]

/-- A division: open where the test on its operands says so, else remainder and quotient (R203, R204). -/
theorem hasEffect_divide {rs rt : Reg} (c : Word → Word → Bool) (rem quot : Word → Word → Word)
    (hd : registerDests i = [.hi, .lo]) (hs : registerSources s i = [.gpr rs, .gpr rt]) :
    HasEffect i s fun u => if c (u.reg rs) (u.reg rt) then .next u.setHiLoOpen.advance
      else .next (u.setHiLo (rem (u.reg rs) (u.reg rt)) (quot (u.reg rs) (u.reg rt))).advance := by
  have hrs : Piece.gpr rs ∈ registerSources s i := by simp [hs]
  have hrt : Piece.gpr rt ∈ registerSources s i := by simp [hs]
  exact hasEffect_ite (fun s' h => by rw [h.gprs rs hrs, h.gprs rt hrt]) (fun _ => hasEffect_setHiLoOpen hd)
    (hasEffect_setHiLo hd (fun s' h => by rw [h.gprs rs hrs, h.gprs rt hrt])
      (fun s' h => by rw [h.gprs rs hrs, h.gprs rt hrt]))

/-! ### Branches and jumps -/

theorem branchTarget_aligned {pc : Word} (imm : Imm) (h : pc.toNat % 4 = 0) : (branchTarget pc imm).toNat % 4 = 0 := by
  have hshift : (branchAddr imm).toNat % 4 = 0 := by
    simp only [branchAddr, BitVec.toNat_shiftLeft, Nat.shiftLeft_eq]
    omega
  simp only [branchTarget, BitVec.toNat_add, BitVec.toNat_ofNat]
  omega

theorem jumpTarget_aligned (pc : Word) (address : BitVec 26) : (jumpTarget pc address).toNat % 4 = 0 := by
  rw [jumpTarget, BitVec.toNat_append]
  simp [Nat.shiftLeft_eq]

/-- A branch or jump, in a delay slot or not (R151). -/
theorem hasEffect_transfer {taken : State → Bool} {target : State → Word} (hd : registerDests i = [])
    (htaken : ∀ s', SameSources i s s' → taken s' = taken s)
    (htarget : ∀ s', SameSources i s s' → target s' = target s)
    (hallowed : (Flow.transfer (taken s) (target s)).Allowed i s) :
    HasEffect i s fun u => outsideDelaySlot i u (.next (u.transfer (taken u) (target u))) :=
  hasEffect_outsideDelaySlot <| hasEffect_next (e := fun u => ⟨[], .transfer (taken u) (target u)⟩)
    ⟨by simp [hd], by simp, hallowed⟩ fun s' h => by rw [htaken s' h, htarget s' h]

/-- A branch (R152, R153, R237, R238). -/
theorem hasEffect_branch {taken : State → Bool} {imm : Imm} (hd : registerDests i = [])
    (htaken : ∀ s', SameSources i s s' → taken s' = taken s) :
    HasEffect i s fun u => outsideDelaySlot i u (.next (u.transfer (taken u) (branchTarget u.pc imm))) :=
  hasEffect_transfer hd htaken (fun _ h => by rw [h.pc]) fun _ hpc => branchTarget_aligned imm hpc

theorem jal_hasEffect (address : BitVec 26) (s : State) : HasEffect (.jal address) s (execJal address) :=
  hasEffect_outsideDelaySlot <| hasEffect_next
    (e := fun u => ⟨[.gpr 31#5 (u.pc + u.linkOffset)], .transfer true (jumpTarget u.pc address)⟩)
    ⟨rfl, by simp [Write.Allowed], fun _ _ => jumpTarget_aligned s.pc address⟩
    fun s' h => by simp only [State.linkOffset, h.oneSlot, h.pc]

/-! ### Loads -/

/-- A load: the writes depend on the address and on the value read (R170). -/
theorem hasEffect_load {α : Type} {n : Nat} {read : State → Word → Option α} {rs : Reg} {imm : Imm}
    (ws : Word → α → List Write) (hs : registerSources s i = [.gpr rs])
    (hread : ∀ a s', SameSources i s s' → read s' a = read s a)
    (hd : ∀ a v, (ws a v).flatMap Write.pieces = registerDests i)
    (hallowed : s.accessOk .load n (s.effAddr rs imm) = true → ∀ v, ∀ w ∈ ws (s.effAddr rs imm) v, w.Allowed i s) :
    HasEffect i s fun u => load n read (u.effAddr rs imm) u fun v => (ws (u.effAddr rs imm) v).foldl Write.apply u := by
  have haddr : ∀ s', SameSources i s s' → s'.effAddr rs imm = s.effAddr rs imm :=
    fun _ h => h.effAddr (by simp [hs]) imm
  exact hasEffect_checked haddr fun hok => hasEffect_withValue (fun s' h => by rw [haddr s' h, hread _ s' h]) fun v =>
    hasEffect_next (e := fun u => ⟨ws (u.effAddr rs imm) v, .sequential⟩) ⟨hd _ v, hallowed hok v, trivial⟩
      fun s' h => by rw [haddr s' h]

/-- A load of one general register: `x[rt] <- f(value)` (R171 to R175). -/
theorem hasEffect_loadReg {α : Type} {n : Nat} {read : State → Word → Option α} {rt rs : Reg} {imm : Imm} (f : α → Word)
    (hd : registerDests i = [.gpr rt]) (hs : registerSources s i = [.gpr rs])
    (hread : ∀ a s', SameSources i s s' → read s' a = read s a) :
    HasEffect i s fun u => load n read (u.effAddr rs imm) u fun v => u.setReg rt (f v) :=
  hasEffect_load (fun _ v => [.gpr rt (f v)]) hs hread (fun _ _ => by simp [Write.pieces, hd])
    fun _ _ => by simp [Write.Allowed]

theorem ldc1_hasEffect (ft : FReg) (imm : Imm) (rs : Reg) (s : State) :
    HasEffect (.ldc1 ft imm rs) s (execLdc1 ft imm rs) :=
  hasEffect_requireEven (regs := [ft]) <| hasEffect_load (n := 8) (read := State.wordPairAt) (rs := rs) (imm := imm)
    (fun _ v => [.fpr ft v.1, .fpr (ft + 1#5) v.2]) rfl (fun a _ h => h.wordPairAt a) (fun _ _ => rfl)
    fun _ _ => by simp [Write.Allowed]

/-! ### Stores -/

theorem Write.allowed_of_byteAt {A a : Word} {n : Nat} {b : Byte} (hacc : accessOf s i = some ⟨.store, n, A⟩)
    (hn : n ∣ 2 ^ 32) (hok : s.accessOk .store n A = true) {k : Nat} (hk : k < n) (ha : a = A + BitVec.ofNat 32 k) :
    (Write.byte a b).Allowed i s := by
  obtain ⟨haligned, hpermits⟩ := State.accessOk_iff.1 hok
  refine ⟨?_, ?_⟩
  · simp only [storesTo, hacc]
    exact ⟨k, hk, ha⟩
  · rw [ha, toNat_add_of_aligned hn haligned hk]
    exact hpermits k hk

theorem allowed_halfWrites {A : Word} (hacc : accessOf s i = some ⟨.store, 2, A⟩)
    (hok : s.accessOk .store 2 A = true) (o : ByteOrder) (v : Half) : ∀ w ∈ halfWrites o A v, w.Allowed i s := by
  simp only [halfWrites, List.forall_mem_cons, List.not_mem_nil, false_implies, implies_true, and_true]
  exact ⟨Write.allowed_of_byteAt hacc (by decide) hok (k := 0) (by decide) (by simp),
    Write.allowed_of_byteAt hacc (by decide) hok (k := 1) (by decide) rfl⟩

/-- The bytes of a word `j` above the address of a store of `n` bytes. -/
theorem allowed_wordWrites {A a : Word} {n j : Nat} (hacc : accessOf s i = some ⟨.store, n, A⟩)
    (hn : n ∣ 2 ^ 32) (hok : s.accessOk .store n A = true) (hj : j + 4 ≤ n) (ha : a = A + BitVec.ofNat 32 j)
    (o : ByteOrder) (v : Word) : ∀ w ∈ wordWrites o a v, w.Allowed i s := by
  have hbyte : ∀ k < 4, ∀ b, (Write.byte (a + BitVec.ofNat 32 k) b).Allowed i s := fun k hk b =>
    Write.allowed_of_byteAt hacc hn hok (k := j + k) (by omega) (by rw [ha, BitVec.ofNat_add, BitVec.add_assoc])
  simp only [wordWrites, List.forall_mem_cons, List.not_mem_nil, false_implies, implies_true, and_true]
  exact ⟨by simpa using hbyte 0 (by decide) _, hbyte 1 (by decide) _, hbyte 2 (by decide) _, hbyte 3 (by decide) _⟩

/-- A store: the writes depend on the address, and on data that is read only once the address has passed the checks
(R170). -/
theorem hasEffect_store {n : Nat} {rs : Reg} {imm : Imm} {data : List Piece} (ws : Word → State → List Write)
    (hs : registerSources s i = .gpr rs :: s.storeData n (s.effAddr rs imm) data)
    (hd : (ws (s.effAddr rs imm) s).flatMap Write.pieces = registerDests i)
    (hsame : ∀ s', AgreeOn (· ∈ data) s s' → ws (s.effAddr rs imm) s' = ws (s.effAddr rs imm) s)
    (hallowed : s.accessOk .store n (s.effAddr rs imm) = true → ∀ w ∈ ws (s.effAddr rs imm) s, w.Allowed i s) :
    HasEffect i s fun u => store n (u.effAddr rs imm) u ((ws (u.effAddr rs imm) u).foldl Write.apply u) := by
  have haddr : ∀ s', SameSources i s s' → s'.effAddr rs imm = s.effAddr rs imm :=
    fun _ h => h.effAddr (by simp [hs]) imm
  exact hasEffect_checked haddr fun hok =>
    hasEffect_next (e := fun u => ⟨ws (u.effAddr rs imm) u, .sequential⟩) ⟨hd, hallowed hok, trivial⟩ fun s' h => by
      have hdata : AgreeOn (· ∈ data) s s' := h.mono fun p hp => by simp [hs, State.mem_storeData, hok, hp]
      rw [haddr s' h, hsame s' hdata]

/-- A store of one word (R176, R241). -/
theorem hasEffect_storeWord {rs : Reg} {imm : Imm} {data : List Piece} {v : State → Word}
    (hs : registerSources s i = .gpr rs :: s.storeData 4 (s.effAddr rs imm) data)
    (hacc : accessOf s i = some ⟨.store, 4, s.effAddr rs imm⟩) (hd : registerDests i = [])
    (hsame : ∀ s', AgreeOn (· ∈ data) s s' → v s' = v s) :
    HasEffect i s fun u => store 4 (u.effAddr rs imm) u (u.setWord (u.effAddr rs imm) (v u)) :=
  hasEffect_store (fun a u => wordWrites u.params.byteOrder a (v u)) hs hd.symm
    (fun s' h => by rw [h.params, hsame s' h])
    fun hok => allowed_wordWrites hacc (by decide) hok (j := 0) (by decide) (by simp) _ _

theorem sh_hasEffect (rt : Reg) (imm : Imm) (rs : Reg) (s : State) : HasEffect (.sh rt imm rs) s (execSh rt imm rs) :=
  hasEffect_store (fun a u => halfWrites u.params.byteOrder a ((u.reg rt).setWidth 16)) rfl rfl
    (fun _ h => by rw [h.params, h.gprs rt (by simp)]) fun hok => allowed_halfWrites rfl hok _ _

theorem sb_hasEffect (rt : Reg) (imm : Imm) (rs : Reg) (s : State) : HasEffect (.sb rt imm rs) s (execSb rt imm rs) :=
  hasEffect_store (fun a u => [.byte a ((u.reg rt).setWidth 8)]) rfl rfl
    (fun _ h => by rw [h.gprs rt (by simp)]) fun hok => by
      simpa using Write.allowed_of_byteAt rfl (by decide) hok (k := 0) (by decide) (by simp)

theorem sdc1_hasEffect (ft : FReg) (imm : Imm) (rs : Reg) (s : State) :
    HasEffect (.sdc1 ft imm rs) s (execSdc1 ft imm rs) :=
  hasEffect_requireEven <| hasEffect_store
    (fun a u => wordWrites u.params.byteOrder a (u.fpr ft) ++
      wordWrites u.params.byteOrder (a + 4#32) (u.fpr (ft + 1#5))) rfl rfl
    (fun _ h => by rw [h.params, h.fprs ft (by simp [pairPieces]), h.fprs (ft + 1#5) (by simp [pairPieces])])
    fun hok => List.forall_mem_append.2
      ⟨allowed_wordWrites rfl (by decide) hok (j := 0) (by decide) (by simp) _ _,
        allowed_wordWrites rfl (by decide) hok (j := 4) (by decide) rfl _ _⟩

/-- The writes of an sc whose address passes the checks: its data where it succeeds, then the flag, the link and the
draw (R181; log 13). -/
def scWrites (rt : Reg) (a : Word) (s : State) : List Write :=
  (if s.scSucceeds a then wordWrites s.params.byteOrder a (s.reg rt) else []) ++
    [.gpr rt (boolWord (s.scSucceeds a)), .unlink, .draws (if s.params.scMayFailSpuriously then 1 else 0)]

theorem execSc_eq_store (rt : Reg) (imm : Imm) (rs : Reg) (s : State) : execSc rt imm rs s =
    store 4 (s.effAddr rs imm) s ((scWrites rt (s.effAddr rs imm) s).foldl Write.apply s) := by
  cases h : s.scSucceeds (s.effAddr rs imm) <;> simp only [execSc, scWrites, h] <;> rfl

theorem sc_hasEffect (rt : Reg) (imm : Imm) (rs : Reg) (s : State) :
    HasEffect (.sc rt imm rs) s (execSc rt imm rs) := by
  rw [funext (execSc_eq_store rt imm rs)]
  refine hasEffect_store (scWrites rt) rfl ?dests ?same ?allowed
  case dests => cases h : s.scSucceeds (s.effAddr rs imm) <;> simp only [scWrites, h] <;> rfl
  case same =>
    intro s' h
    simp only [scWrites, h.scSucceeds, h.params]
    cases hsc : s.scSucceeds (s.effAddr rs imm) with
    | true => rw [h.gprs rt (by simp [hsc])]
    | false => rfl
  case allowed =>
    intro hok
    refine List.forall_mem_append.2 ⟨?_, by simp [Write.Allowed]⟩
    cases hsc : s.scSucceeds (s.effAddr rs imm) with
    | true => exact allowed_wordWrites rfl (by decide) hok (j := 0) (by decide) (by simp) _ _
    | false => simp

/-! ### Floating point -/

/-- A single-precision operation (R222). -/
theorem hasEffect_singleArith {fd fs ft : FReg} (op : FpArith) (hd : registerDests i = [.fpr fd])
    (hs : registerSources s i = [.fpr fs, .fpr ft]) :
    HasEffect i s fun u => .next (singleArith op fd fs ft u).advance :=
  hasEffect_next (e := fun u => ⟨[.fpr fd (fpArithS u.params.fpNumerics op (u.fpr fs) (u.fpr ft))], .sequential⟩)
    ⟨by simp [Write.pieces, hd], by simp [Write.Allowed], trivial⟩
    fun _ h => by rw [h.params, h.fprs fs (by simp [hs]), h.fprs ft (by simp [hs])]

/-- A double-precision operation (R222, R243). -/
theorem hasEffect_doubleArith {fd fs ft : FReg} {regs : List FReg} (op : FpArith)
    (hd : registerDests i = [.fpr fd, .fpr (fd + 1#5)])
    (hs : registerSources s i = pairPieces fs ++ pairPieces ft) :
    HasEffect i s fun u => requireEven i regs u (.next (doubleArith op fd fs ft u).advance) :=
  hasEffect_requireEven <| hasEffect_next
    (e := fun u => ⟨doubleWrites u.params.fpPairOrder fd (fpArithD u.params.fpNumerics op (u.dbl fs) (u.dbl ft)),
      .sequential⟩)
    ⟨by simp [doubleWrites, Write.pieces, hd], by simp [doubleWrites, Write.Allowed], trivial⟩
    fun _ h => by rw [h.params, h.dbl (n := fs) (by simp +contextual [hs]), h.dbl (n := ft) (by simp +contextual [hs])]

theorem hasEffect_setFpcond {b : State → Bool} (hd : registerDests i = [.fpcond])
    (hsame : ∀ s', SameSources i s s' → b s' = b s) :
    HasEffect i s fun u => .next (u.setFpcond (b u)).advance :=
  hasEffect_next (e := fun u => ⟨[.fpcond (b u)], .sequential⟩)
    ⟨by simp [Write.pieces, hd], by simp [Write.Allowed], trivial⟩ fun s' h => by rw [hsame s' h]

/-- A single-precision compare (R244). -/
theorem hasEffect_singleCompare {fs ft : FReg} (c : FpCmp) (hd : registerDests i = [.fpcond])
    (hs : registerSources s i = [.fpr fs, .fpr ft]) :
    HasEffect i s fun u => .next (singleCompare c fs ft u).advance :=
  hasEffect_setFpcond hd fun _ h => by rw [h.params, h.fprs fs (by simp [hs]), h.fprs ft (by simp [hs])]

/-- A double-precision compare (R243, R244). -/
theorem hasEffect_doubleCompare {fs ft : FReg} {regs : List FReg} (c : FpCmp) (hd : registerDests i = [.fpcond])
    (hs : registerSources s i = pairPieces fs ++ pairPieces ft) :
    HasEffect i s fun u => requireEven i regs u (.next (doubleCompare c fs ft u).advance) :=
  hasEffect_requireEven <| hasEffect_setFpcond hd fun _ h => by
    rw [h.params, h.dbl (n := fs) (by simp +contextual [hs]), h.dbl (n := ft) (by simp +contextual [hs])]

end

/-! ### Every instruction -/

/-- The meaning of every instruction is an effect that its sources determine. -/
theorem exec_hasEffect (s : State) : ∀ i, HasEffect i s (exec i)
  | .add _ rs rt => hasEffect_unlessOverflow
      (fun _ h => by rw [h.gprs rs (by simp [registerSources]), h.gprs rt (by simp [registerSources])])
      (hasEffect_binary (· + ·) rfl rfl)
  | .addi _ rs imm => hasEffect_unlessOverflow (fun _ h => by rw [h.gprs rs (by simp [registerSources])])
      (hasEffect_unary (· + signExtImm imm) rfl rfl)
  | .sub _ rs rt => hasEffect_unlessOverflow
      (fun _ h => by rw [h.gprs rs (by simp [registerSources]), h.gprs rt (by simp [registerSources])])
      (hasEffect_binary (· - ·) rfl rfl)
  | .addiu _ _ imm => hasEffect_unary (· + signExtImm imm) rfl rfl
  | .addu .. => hasEffect_binary (· + ·) rfl rfl
  | .subu .. => hasEffect_binary (· - ·) rfl rfl
  | .slt .. => hasEffect_binary (fun a b => boolWord (lessSigned a b)) rfl rfl
  | .sltu .. => hasEffect_binary (fun a b => boolWord (lessUnsigned a b)) rfl rfl
  | .slti _ _ imm => hasEffect_unary (fun a => boolWord (lessSigned a (signExtImm imm))) rfl rfl
  | .sltiu _ _ imm => hasEffect_unary (fun a => boolWord (lessUnsigned a (signExtImm imm))) rfl rfl
  | .and .. => hasEffect_binary (· &&& ·) rfl rfl
  | .andi _ _ imm => hasEffect_unary (· &&& zeroExtImm imm) rfl rfl
  | .or .. => hasEffect_binary (· ||| ·) rfl rfl
  | .ori _ _ imm => hasEffect_unary (· ||| zeroExtImm imm) rfl rfl
  | .nor .. => hasEffect_binary (fun a b => ~~~(a ||| b)) rfl rfl
  | .xor .. => hasEffect_binary (· ^^^ ·) rfl rfl
  | .sll _ _ shamt => hasEffect_unary (· <<< shamt.toNat) rfl rfl
  | .srl _ _ shamt => hasEffect_unary (· >>> shamt.toNat) rfl rfl
  | .sra _ _ shamt => hasEffect_unary (·.sshiftRight shamt.toNat) rfl rfl
  | .lui .. => hasEffect_setReg rfl fun _ _ => rfl
  | .mfhi _ => hasEffect_setReg rfl fun _ h => h.hi (by simp [registerSources])
  | .mflo _ => hasEffect_setReg rfl fun _ h => h.lo (by simp [registerSources])
  | .mfc0 _ rd => hasEffect_setReg rfl fun _ h => h.cr rd
  | .mult .. => hasEffect_setProduct (fun a b => BitVec.ofInt 64 (a.toInt * b.toInt)) rfl rfl
  | .multu .. => hasEffect_setProduct (fun a b => BitVec.ofNat 64 (a.toNat * b.toNat)) rfl rfl
  | .div .. => hasEffect_divide divOpen (fun a b => BitVec.ofInt 32 (a.toInt.tmod b.toInt))
      (fun a b => BitVec.ofInt 32 (a.toInt.tdiv b.toInt)) rfl rfl
  | .divu .. => hasEffect_divide (fun _ b => b.toNat == 0) (fun a b => BitVec.ofNat 32 (a.toNat % b.toNat))
      (fun a b => BitVec.ofNat 32 (a.toNat / b.toNat)) rfl rfl
  | .beq rs rt _ => hasEffect_branch rfl
      fun _ h => by rw [h.gprs rs (by simp [registerSources]), h.gprs rt (by simp [registerSources])]
  | .bne rs rt _ => hasEffect_branch rfl
      fun _ h => by rw [h.gprs rs (by simp [registerSources]), h.gprs rt (by simp [registerSources])]
  | .bc1t _ => hasEffect_branch rfl fun _ h => h.fpcond (by simp [registerSources])
  | .bc1f _ => hasEffect_branch rfl fun _ h => by rw [h.fpcond (by simp [registerSources])]
  | .j address => hasEffect_transfer rfl (fun _ _ => rfl) (fun _ h => by rw [h.pc])
      fun _ _ => jumpTarget_aligned s.pc address
  | .jal address => jal_hasEffect address s
  | .jr rs => hasEffect_transfer rfl (fun _ _ => rfl) (fun _ h => h.gprs rs (by simp [registerSources]))
      fun hjr => absurd rfl (hjr rs)
  | .lw .. => hasEffect_loadReg id rfl rfl fun a _ h => h.wordAt a
  | .lbu .. => hasEffect_loadReg (·.setWidth 32) rfl rfl fun a _ h => h.byteAt a
  | .lb .. => hasEffect_loadReg (·.signExtend 32) rfl rfl fun a _ h => h.byteAt a
  | .lhu .. => hasEffect_loadReg (·.setWidth 32) rfl rfl fun a _ h => h.halfAt a
  | .lh .. => hasEffect_loadReg (·.signExtend 32) rfl rfl fun a _ h => h.halfAt a
  | .ll rt imm rs => hasEffect_load (fun a v => [.gpr rt v, .link a]) rfl (fun a _ h => h.wordAt a) (fun _ _ => rfl)
      fun hok _ => by simp [Write.Allowed, hok]
  | .lwc1 ft .. => hasEffect_load (fun _ v => [.fpr ft v]) rfl (fun a _ h => h.wordAt a) (fun _ _ => rfl)
      fun _ _ => by simp [Write.Allowed]
  | .ldc1 ft imm rs => ldc1_hasEffect ft imm rs s
  | .sw rt _ _ => hasEffect_storeWord (v := (·.reg rt)) rfl rfl rfl fun _ h => h.gprs rt (by simp)
  | .sh rt imm rs => sh_hasEffect rt imm rs s
  | .sb rt imm rs => sb_hasEffect rt imm rs s
  | .sc rt imm rs => sc_hasEffect rt imm rs s
  | .swc1 ft _ _ => hasEffect_storeWord (v := (·.fpr ft)) rfl rfl rfl fun _ h => h.fprs ft (by simp)
  | .sdc1 ft imm rs => sdc1_hasEffect ft imm rs s
  | .addS .. => hasEffect_singleArith .add rfl rfl
  | .subS .. => hasEffect_singleArith .sub rfl rfl
  | .mulS .. => hasEffect_singleArith .mul rfl rfl
  | .divS .. => hasEffect_singleArith .div rfl rfl
  | .addD .. => hasEffect_doubleArith .add rfl rfl
  | .subD .. => hasEffect_doubleArith .sub rfl rfl
  | .mulD .. => hasEffect_doubleArith .mul rfl rfl
  | .divD .. => hasEffect_doubleArith .div rfl rfl
  | .cEqS .. => hasEffect_singleCompare .eq rfl rfl
  | .cLtS .. => hasEffect_singleCompare .lt rfl rfl
  | .cLeS .. => hasEffect_singleCompare .le rfl rfl
  | .cEqD .. => hasEffect_doubleCompare .eq rfl rfl
  | .cLtD .. => hasEffect_doubleCompare .lt rfl rfl
  | .cLeD .. => hasEffect_doubleCompare .le rfl rfl

/-- An instruction that completes does so by an effect that is allowed for it. -/
theorem exec_eq_next {i : Instr} {s t : State} (h : exec i s = .next t) :
    ∃ e : Effect, e.AllowedFor i s ∧ t = e.apply s := by
  obtain ⟨e, hallowed, hrun⟩ := exec_hasEffect s i t h
  exact ⟨e, hallowed, Host.Outcome.next.inj (h.symm.trans (hrun s (.refl _ s)))⟩

/-- Settles O59: the effect is the same from both states (`exec_hasEffect`), and applied to both it keeps them in
agreement (`AgreeOn.effect`). -/
theorem sourcesAreAllThatIsRead : Obligations.SourcesAreAllThatIsRead := by
  intro i s s' t on hsources hagree hexec
  obtain ⟨e, hallowed, hrun⟩ := exec_hasEffect s i t hexec
  obtain rfl : t = e.apply s := Host.Outcome.next.inj (hexec.symm.trans (hrun s (.refl _ s)))
  refine ⟨e.apply s', hrun s' (hagree.mono hsources), ?_⟩
  rw [← hallowed.pieces]
  exact hagree.effect e

end Sys2Proof.Machine

/-! Who writes what (10_state.md): each frame statement is read off the effect of an instruction that completes. -/

namespace Sys2Proof.Machine

/-! ### What an effect leaves unchanged -/

/-- A reading of the state that none of the writes changes, and that does not look at the program counter, is the same
after the effect. -/
theorem Effect.apply_eq {β : Type} {e : Effect} (f : State → β) (hwrite : ∀ w ∈ e.writes, ∀ u, f (w.apply u) = f u)
    (s : State) (hflow : ∀ (flow : Flow) u, f (flow.apply u) = f u := by intro flow _; cases flow <;> rfl) :
    f (e.apply s) = f s :=
  (hflow e.flow _).trans <|
    List.foldlRecOn (motive := fun u => f u = f s) _ _ rfl fun u hu w hw => (hwrite w hw u).trans hu

@[simp] theorem Write.apply_map (w : Write) (u : State) : (w.apply u).map = u.map := by cases w <;> rfl
@[simp] theorem Write.apply_params (w : Write) (u : State) : (w.apply u).params = u.params := by cases w <;> rfl
@[simp] theorem Write.apply_cr (w : Write) (u : State) (n : BitVec 5) : (w.apply u).cr n = u.cr n := by
  cases w <;> rfl
@[simp] theorem Write.apply_pc (w : Write) (u : State) : (w.apply u).pc = u.pc := by cases w <;> rfl
@[simp] theorem Write.apply_npc (w : Write) (u : State) : (w.apply u).npc = u.npc := by cases w <;> rfl

/-! A register changes only by a write that has it among its pieces. -/

theorem Write.apply_reg {w : Write} {r : Reg} (h : .gpr r ∉ w.pieces) (u : State) : (w.apply u).reg r = u.reg r := by
  cases w with
  | gpr q v => exact u.reg_setReg_ne v (by simpa [Write.pieces] using h)
  | _ => rfl

theorem Write.apply_fpr {w : Write} {n : FReg} (h : .fpr n ∉ w.pieces) (u : State) : (w.apply u).fpr n = u.fpr n := by
  cases w with
  | fpr q v => exact u.fpr_setFpr_ne v (by simpa [Write.pieces] using h)
  | _ => rfl

theorem Write.apply_hi {w : Write} (h : .hi ∉ w.pieces) (u : State) : (w.apply u).hi = u.hi := by
  cases w with
  | hiLo => simp [Write.pieces] at h
  | _ => rfl

theorem Write.apply_lo {w : Write} (h : .lo ∉ w.pieces) (u : State) : (w.apply u).lo = u.lo := by
  cases w with
  | hiLo => simp [Write.pieces] at h
  | _ => rfl

theorem Write.apply_fpcond {w : Write} (h : .fpcond ∉ w.pieces) (u : State) : (w.apply u).fpcond = u.fpcond := by
  cases w with
  | fpcond => simp [Write.pieces] at h
  | _ => rfl

/-! The destinations of an instruction, by kind of register. -/

@[simp] theorem gpr_mem_registerDests {i : Instr} {r : Reg} : .gpr r ∈ registerDests i ↔ gprDest i = some r := by
  simp [registerDests]

@[simp] theorem fpr_mem_registerDests {i : Instr} {n : FReg} : .fpr n ∈ registerDests i ↔ n ∈ fprDests i := by
  simp [registerDests]

@[simp] theorem hi_mem_registerDests {i : Instr} : .hi ∈ registerDests i ↔ writesHiLo i = true := by
  simp [registerDests]

@[simp] theorem lo_mem_registerDests {i : Instr} : .lo ∈ registerDests i ↔ writesHiLo i = true := by
  simp [registerDests]

@[simp] theorem fpcond_mem_registerDests {i : Instr} : .fpcond ∈ registerDests i ↔ isCompare i = true := by
  simp [registerDests]

theorem Effect.AllowedFor.not_mem_pieces {e : Effect} {i : Instr} {s : State} (he : e.AllowedFor i s) {p : Piece}
    (hp : p ∉ registerDests i) {w : Write} (hw : w ∈ e.writes) : p ∉ w.pieces :=
  fun h => hp (he.pieces ▸ List.mem_flatMap.2 ⟨w, hw, h⟩)

/-! ### The writers of each kind of state -/

/-- Settles O22: no write of the instruction has the flag, or `hi` and `lo`, among its pieces. -/
theorem flagAndHiLoWriters : Obligations.FlagAndHiLoWriters := by
  intro i s t h
  obtain ⟨e, he, rfl⟩ := exec_eq_next h
  refine ⟨fun hi => ?_, fun hi => ⟨?_, ?_⟩⟩
  · exact e.apply_eq State.fpcond (fun _ hw => Write.apply_fpcond (he.not_mem_pieces (by simp [hi]) hw)) s
  · exact e.apply_eq State.hi (fun _ hw => Write.apply_hi (he.not_mem_pieces (by simp [hi]) hw)) s
  · exact e.apply_eq State.lo (fun _ hw => Write.apply_lo (he.not_mem_pieces (by simp [hi]) hw)) s

/-- Settles O23: no write of the instruction has the register among its pieces. -/
theorem gprWriters : Obligations.GprWriters := by
  intro i s t r h hr
  obtain ⟨e, he, rfl⟩ := exec_eq_next h
  exact e.apply_eq (·.reg r) (fun _ hw => Write.apply_reg (he.not_mem_pieces (by simpa using hr) hw)) s

/-- Settles O24: no write of the instruction has the register among its pieces. -/
theorem fprWriters : Obligations.FprWriters := by
  intro i s t n h hn
  obtain ⟨e, he, rfl⟩ := exec_eq_next h
  exact e.apply_eq (·.fpr n) (fun _ hw => Write.apply_fpr (he.not_mem_pieces (by simpa using hn) hw)) s

/-- A byte changes only by a write that the instruction may make to it. -/
theorem Write.Allowed.byteAt {w : Write} {i : Instr} {s : State} {a : Word} (hw : w.Allowed i s)
    (ha : ¬ storesTo s i a) (u : State) : (w.apply u).byteAt a = u.byteAt a := by
  cases w with
  | byte q b =>
    refine u.byteAt_setByte_ne b ?_
    rintro rfl
    exact ha hw.1
  | _ => rfl

/-- Settles O25: every byte that the instruction writes is one that it stores to. -/
theorem memoryWriters : Obligations.MemoryWriters := by
  intro i s t a h ha
  obtain ⟨e, he, rfl⟩ := exec_eq_next h
  exact e.apply_eq (·.byteAt a) (fun w hw => (he.writes w hw).byteAt ha) s

/-- The address of the link changes by ll alone (R34). -/
theorem Write.Allowed.lladdr {w : Write} {i : Instr} {s : State} (hw : w.Allowed i s)
    (hll : ∀ rt imm rs, i ≠ .ll rt imm rs) (u : State) : (w.apply u).lladdr = u.lladdr := by
  cases w with
  | link a =>
    obtain ⟨⟨rt, imm, rs, hi⟩, -⟩ := hw
    exact absurd hi (hll rt imm rs)
  | _ => rfl

/-- `llbit` changes by ll and sc alone (R34). -/
theorem Write.Allowed.llbit {w : Write} {i : Instr} {s : State} (hw : w.Allowed i s)
    (hll : ∀ rt imm rs, i ≠ .ll rt imm rs) (hsc : ∀ rt imm rs, i ≠ .sc rt imm rs) (u : State) :
    (w.apply u).llbit = u.llbit := by
  cases w with
  | link a =>
    obtain ⟨⟨rt, imm, rs, hi⟩, -⟩ := hw
    exact absurd hi (hll rt imm rs)
  | unlink =>
    obtain ⟨rt, imm, rs, hi⟩ := hw
    exact absurd hi (hsc rt imm rs)
  | _ => rfl

/-- Settles O26: a write that opens the link is ll's, and one that closes it sc's. -/
theorem linkWriters : Obligations.LinkWriters := by
  intro i s t h hll
  obtain ⟨e, he, rfl⟩ := exec_eq_next h
  refine ⟨?_, fun hsc => ?_⟩
  · exact e.apply_eq State.lladdr (fun w hw => (he.writes w hw).lladdr hll) s
  · exact e.apply_eq State.llbit (fun w hw => (he.writes w hw).llbit hll hsc) s

/-! ### What no step changes -/

/-- A step that goes on stays at `END_PC` or completes an instruction (R10, R335 (a)). -/
theorem step_eq_next {s t : State} (h : step s = .next t) : t = s ∨ ∃ i, exec i s = .next t := by
  rcases step_cases s with
    ⟨-, e⟩ | ⟨-, ⟨-, e⟩ | ⟨-, -, e⟩ | ⟨w, -, -, -, e⟩ | ⟨w, i, p, -, -, -, -, e⟩ | ⟨w, i, -, -, -, -, e⟩⟩ <;>
    rw [e] at h
  case inl => exact .inl (Host.Outcome.next.inj h).symm
  case inr.inr.inr.inr.inr => exact .inr ⟨i, h⟩
  all_goals exact absurd h nofun

/-- Settles O20: no write touches the map, the parameters or a control register. -/
theorem launchIsFixed : Obligations.LaunchIsFixed := by
  intro s t h
  rcases step_eq_next h with rfl | ⟨i, hexec⟩
  · exact ⟨rfl, rfl, fun _ => rfl⟩
  obtain ⟨e, -, rfl⟩ := exec_eq_next hexec
  refine ⟨?_, ?_, fun n => ?_⟩
  · exact e.apply_eq State.map (fun w _ => w.apply_map) s
  · exact e.apply_eq State.params (fun w _ => w.apply_params) s
  · exact e.apply_eq (·.cr n) (fun w _ u => w.apply_cr u n) s

/-! ### The program counter -/

/-- Both program counters stay aligned when the target of a branch or jump is aligned, under either setting of
`BRANCH_DELAY` (R28, R150, R151). -/
theorem Flow.apply_aligned {flow : Flow} {u : State}
    (htarget : ∀ taken target, flow = .transfer taken target → target.toNat % 4 = 0)
    (hpc : u.pc.toNat % 4 = 0) (hnpc : u.npc.toNat % 4 = 0) :
    (flow.apply u).pc.toNat % 4 = 0 ∧ (flow.apply u).npc.toNat % 4 = 0 := by
  cases flow with
  | sequential => cases h : u.oneSlot <;> simp [Flow.apply, State.advance, h, hpc, hnpc]
  | transfer taken target =>
    replace htarget := htarget taken target rfl
    cases h : u.oneSlot <;> cases taken <;> simp [Flow.apply, State.transfer, h, hpc, hnpc, htarget]

/-- Settles O21: the writes leave `pc` and `npc`, and only jr's target may be misaligned (`Flow.Allowed`). -/
theorem onlyJrMisaligns : Obligations.OnlyJrMisaligns := by
  intro i s t h hjr hpc hnpc
  obtain ⟨e, he, rfl⟩ := exec_eq_next h
  have hkept : (e.writes.foldl Write.apply s).pc = s.pc ∧ (e.writes.foldl Write.apply s).npc = s.npc :=
    List.foldlRecOn (motive := fun u : State => u.pc = s.pc ∧ u.npc = s.npc) _ _ ⟨rfl, rfl⟩
      fun u hu w _ => by simpa using hu
  refine Flow.apply_aligned (fun taken target hflow => ?_) (hkept.1 ▸ hpc) (hkept.2 ▸ hnpc)
  have hallowed := he.flow
  rw [hflow] at hallowed
  exact hallowed hjr hpc

/-! ### The invariant -/

theorem MemMap.mapped_of_permits_store {m : MemMap} {a : Nat} (h : m.permits .store a = true) : m.mapped a = true := by
  simp only [MemMap.permits, Bool.and_eq_true] at h
  exact h.1

/-- A write that the instruction may make keeps the invariant, on the map of the state it started in. -/
theorem Inv.write {w : Write} {i : Instr} {s u : State} (hw : w.Allowed i s) (hmap : u.map = s.map) (h : Inv u) :
    Inv (w.apply u) := by
  cases w with
  | gpr r v => exact ⟨h.canonical, h.mapped, (u.setReg_zeroCell r v).trans h.zero, h.link, h.slot⟩
  | byte a b =>
    refine ⟨State.wf_setByte a b h.canonical, fun c hc => ?_, h.zero, h.link, h.slot⟩
    rcases State.mem_setByte hc with ha | hc
    · rw [ha, Write.apply_map, hmap]
      exact MemMap.mapped_of_permits_store hw.2
    · exact h.mapped c hc
  | link a =>
    refine ⟨h.canonical, h.mapped, h.zero, fun _ => ?_, h.slot⟩
    obtain ⟨haligned, hpermits⟩ := State.accessOk_iff.1 hw.2
    exact ⟨haligned, hmap ▸ hpermits 0 (by decide)⟩
  | unlink => exact ⟨h.canonical, h.mapped, h.zero, nofun, h.slot⟩
  | fpr | hiLo | fpcond | draws => exact ⟨h.canonical, h.mapped, h.zero, h.link, h.slot⟩

/-- Where there are no delay slots, the next instruction stands in none (R151). -/
theorem Inv.flow {u : State} (h : Inv u) (flow : Flow) : Inv (flow.apply u) := by
  cases flow with
  | sequential =>
    exact ⟨h.canonical, h.mapped, h.zero, h.link, fun hnone => by
      simpa [Flow.apply, State.advance, State.oneSlot, show u.params.branchDelay = .none from hnone]
        using h.slot hnone⟩
  | transfer taken target =>
    exact ⟨h.canonical, h.mapped, h.zero, h.link, fun hnone => by
      simpa [Flow.apply, State.transfer, State.oneSlot, show u.params.branchDelay = .none from hnone]
        using h.slot hnone⟩

/-- An effect that is allowed keeps the invariant. -/
theorem Inv.effect {e : Effect} {i : Instr} {s : State} (he : e.AllowedFor i s) (h : Inv s) : Inv (e.apply s) := by
  have hwrites : (e.writes.foldl Write.apply s).map = s.map ∧ Inv (e.writes.foldl Write.apply s) :=
    List.foldlRecOn (motive := fun u => u.map = s.map ∧ Inv u) _ _ ⟨rfl, h⟩ fun u ⟨hmap, hu⟩ w hw =>
      ⟨(w.apply_map u).trans hmap, hu.write (he.writes w hw) hmap⟩
  exact hwrites.2.flow e.flow

/-- Settles O17: a step stays, or completes an instruction whose effect keeps the invariant write by write. -/
theorem stepKeepsInv : Obligations.StepKeepsInv := by
  intro s t hinv h
  rcases step_eq_next h with rfl | ⟨i, hexec⟩
  · exact hinv
  · obtain ⟨e, he, rfl⟩ := exec_eq_next hexec
    exact hinv.effect he

/-- Settles O18: memory is empty, no pair is open and there are no delay slots. -/
theorem resetInv : Obligations.ResetInv where
  canonical := State.reset_wf
  mapped := nofun
  zero := rfl
  link := nofun
  slot := fun _ => rfl

/-! ### Reset -/

/-- Of the registers of R332 and the bytes of memory, reset gives a value to `x[0]` alone (R37). -/
theorem State.reset_hasValue (p : Piece) : State.reset.hasValue p = true ↔ p = .gpr 0#5 := by
  cases p <;> simp [State.hasValue, State.reset, Written.nothing, Memory.valueAt]

/-- Settles O9: the fields of `State.reset` one by one, and the record of what has a value. -/
theorem resetValues : Obligations.ResetValues :=
  ⟨rfl, rfl, rfl, rfl, fun n => by simp [State.cr, State.reset], fun _ => rfl, State.reset_hasValue⟩

end Sys2Proof.Machine

/-! Reads of registers before the meaning (R332; log 5), and the check of an address before its data (R170). -/

namespace Sys2Proof.Machine

/-! ### A step that would read a register without a value -/

/-- Of all that a step can do (`step_cases`), a source without a value leaves only UninitialisedRead (R332). -/
theorem step_eq_uninitialisedRead {s : State} {w : Word} {i : Instr} {p : Piece} (hpc : s.pc ≠ s.map.endPc)
    (hfetch : s.accessOk .fetch 4 s.pc = true) (hword : s.wordAt s.pc = some w) (hdec : decodeWord w = .ok i)
    (hread : s.valuelessSource i = some p) : step s = .fault (.uninitialisedRead p s.pc s) := by
  rcases step_cases s with
    ⟨hend, -⟩ | ⟨-, ⟨hbad, -⟩ | ⟨-, hnone, -⟩ | ⟨w', -, hw', hres, -⟩ | ⟨w', i', q, -, hw', hd', hq, hrun⟩ |
      ⟨w', i', -, hw', hd', hnone, -⟩⟩
  case inl => exact absurd hend hpc
  case inr.inl => simp [hfetch] at hbad
  case inr.inr.inl => simp [hword] at hnone
  all_goals obtain rfl : w = w' := Option.some.inj (hword.symm.trans hw')
  case inr.inr.inr.inl => exact absurd hdec (hres i)
  all_goals obtain rfl : i = i' := Except.ok.inj (hdec.symm.trans hd')
  case inr.inr.inr.inr.inl =>
    obtain rfl : p = q := Option.some.inj (hread.symm.trans hq)
    exact hrun
  case inr.inr.inr.inr.inr => simp [hread] at hnone

/-! ### A load or store that is not permitted -/

/-- A well-formed load or store begins with the checks of its access (R54, R61, R66, R170). -/
theorem exec_eq_checked {s : State} : ∀ {i : Instr} {a : Access}, i.wellFormed = true → accessOf s i = some a →
    ∃ body, exec i s = checked a.kind a.size a.addr s body
  | .lw .., _, _, rfl | .lbu .., _, _, rfl | .lb .., _, _, rfl | .lhu .., _, _, rfl | .lh .., _, _, rfl
  | .ll .., _, _, rfl | .lwc1 .., _, _, rfl | .sw .., _, _, rfl | .sb .., _, _, rfl | .sh .., _, _, rfl
  | .sc .., _, _, rfl | .swc1 .., _, _, rfl => ⟨_, rfl⟩
  | .ldc1 .., _, heven, rfl | .sdc1 .., _, heven, rfl => ⟨_, if_pos (by simpa [Instr.wellFormed] using heven)⟩

theorem accessOf_kind_ne_fetch {s : State} : ∀ {i : Instr} {a : Access}, accessOf s i = some a → a.kind ≠ .fetch
  | .lw .., _, rfl | .lbu .., _, rfl | .lb .., _, rfl | .lhu .., _, rfl | .lh .., _, rfl | .ll .., _, rfl
  | .lwc1 .., _, rfl | .ldc1 .., _, rfl | .sw .., _, rfl | .sb .., _, rfl | .sh .., _, rfl | .sc .., _, rfl
  | .swc1 .., _, rfl | .sdc1 .., _, rfl => nofun

/-- An access that is not permitted raises AddressError (R55, R305). -/
theorem exec_eq_addressError {s : State} {i : Instr} {a : Access} (hform : i.wellFormed = true)
    (hacc : accessOf s i = some a) (hbad : s.accessOk a.kind a.size a.addr = false) :
    exec i s = .fault (.addressError a.kind a.addr s.pc (afterException s)) := by
  obtain ⟨body, hexec⟩ := exec_eq_checked hform hacc
  rw [hexec, checked, hbad]
  rfl

/-- A load reads its base alone, and so does a store whose address fails its checks (R55, R170, R242). -/
theorem registerSources_of_not_accessOk {s : State} : ∀ {i : Instr} {rs : Reg} {a : Access}, baseOf i = some rs →
    accessOf s i = some a → s.accessOk a.kind a.size a.addr = false → registerSources s i = [.gpr rs]
  | .lw .., _, _, rfl, rfl, _ | .lbu .., _, _, rfl, rfl, _ | .lb .., _, _, rfl, rfl, _ | .lhu .., _, _, rfl, rfl, _
  | .lh .., _, _, rfl, rfl, _ | .ll .., _, _, rfl, rfl, _ | .lwc1 .., _, _, rfl, rfl, _
  | .ldc1 .., _, _, rfl, rfl, _ => rfl
  | .sw .., _, _, rfl, rfl, hbad | .sb .., _, _, rfl, rfl, hbad | .sh .., _, _, rfl, rfl, hbad
  | .sc .., _, _, rfl, rfl, hbad | .swc1 .., _, _, rfl, rfl, hbad | .sdc1 .., _, _, rfl, rfl, hbad => by
    simp [registerSources, State.storeData, hbad]

/-- Settles O58: the first source without a value is the one that `valuelessSource` finds, and where the access fails
its checks the base is the only source, so that the meaning runs and raises AddressError. -/
theorem stepReadsRegisters : Obligations.StepReadsRegisters := by
  refine ⟨?_, ?_⟩
  · intro s w i p before after hpc hfetch hword hdec hfault hform hsources hbefore hp
    exact step_eq_uninitialisedRead hpc hfetch hword hdec
      (State.valuelessSource_eq_some.2 ⟨hfault, hform, hp, before, after, hsources, hbefore⟩)
  · intro s w i rs a hpc hfetch hword hdec hform hbase hvalue hacc hpermitted
    have hbad : s.accessOk a.kind a.size a.addr = false := by
      simpa [Access.permitted_iff (accessOf_kind_ne_fetch hacc)] using hpermitted
    have hreads : ReadsValues s i := fun _ => .inr (by
      simpa [registerSources_of_not_accessOk hbase hacc hbad] using hvalue)
    rw [stepRunsDecoded s w i hpc hfetch hword hdec hreads]
    exact exec_eq_addressError hform hacc hbad

/-! ### mfc0 -/

/-- A row of the opcode table decodes every word that it accepts (R99). -/
theorem decodesBy_of_mem {r : Row} (hr : r ∈ opcodeTable) : DecodesBy r.pattern r.mask r.build :=
  fun _ hw => decodeWord_of_accepts hr (by simp [Row.accepts, hw])

/-- The write of a general register, and on to the next instruction. -/
theorem wroteReg_setReg_advance (s : State) (r : Reg) (v : Word) : WroteReg r v s (s.setReg r v).advance where
  value := s.reg_setReg_same r v
  frame :=
    { gprs := fun _ hq => s.reg_setReg_ne v (by simpa using hq)
      fprs := fun _ _ => rfl
      hiLo := fun _ => ⟨rfl, rfl⟩
      fpcond := fun _ => rfl
      link := fun _ => ⟨rfl, rfl⟩
      control := fun _ => rfl
      bytes := fun _ _ => rfl }
  sequential := sequential_advance rfl rfl rfl

/-- Settles O55: mfc0 is the last row of the table, and its meaning one write of a register. -/
theorem moveFromControl : Obligations.MoveFromControl :=
  ⟨decodesBy_of_mem (r := ⟨"mfc0", 0x40000000#32, 0xffe007ff#32, fun w => .mfc0 (fRt w) (fRd w)⟩)
      (List.mem_of_getElem? (i := 61) rfl),
    fun rt rd s => ⟨_, rfl, wroteReg_setReg_advance s rt (s.cr rd)⟩⟩

end Sys2Proof.Machine

/-! The text region over a run, and the faults of a step that does not reach an instruction (20_memory.md). -/

namespace Sys2Proof.Machine

/-! ### The text region is never written (R66) -/

/-- A write that an instruction may make stores to no byte of the text region (R66). -/
theorem Write.Allowed.byteAt_of_isText {w : Write} {i : Instr} {s : State} {a : Word} (hw : w.Allowed i s)
    (ha : s.map.isText a.toNat = true) (u : State) : (w.apply u).byteAt a = u.byteAt a := by
  cases w with
  | byte q b =>
    refine u.byteAt_setByte_ne b ?_
    rintro rfl
    have hpermits := hw.2
    simp [MemMap.permits, ha] at hpermits
  | _ => rfl

/-- A step that goes on leaves the bytes of the text region as they were (R66). -/
theorem step_byteAt_of_isText {s t : State} {a : Word} (h : step s = .next t) (ha : s.map.isText a.toNat = true) :
    t.byteAt a = s.byteAt a := by
  rcases step_eq_next h with rfl | ⟨i, hexec⟩
  · rfl
  · obtain ⟨e, he, rfl⟩ := exec_eq_next hexec
    exact e.apply_eq (·.byteAt a) (fun w hw => (he.writes w hw).byteAt_of_isText ha) s

/-! ### Runs -/

@[simp] theorem runsTo_zero {s t : State} : RunsTo 0 s t ↔ t = s := by
  refine ⟨fun h => (Host.Outcome.next.inj h).symm, ?_⟩
  rintro rfl
  rfl

/-- A run of `n + 1` steps is a step and a run of `n` steps. -/
theorem runsTo_succ {n : Nat} {s t : State} : RunsTo (n + 1) s t ↔ ∃ u, step s = .next u ∧ RunsTo n u t := by
  simp only [RunsTo, Host.Core.run, Sys2Proof.core]
  cases step s <;> simp

/-- Settles O19, by induction on the number of steps: each leaves the map, and the bytes of the text region with it. -/
theorem textIsImmutable : Obligations.TextIsImmutable := by
  intro n
  induction n with
  | zero =>
    intro s t hrun a _
    rw [runsTo_zero.1 hrun]
  | succ n ih =>
    intro s t hrun a ha
    obtain ⟨u, hstep, hrest⟩ := runsTo_succ.1 hrun
    have hmap : u.map = s.map := (launchIsFixed s u hstep).1
    calc t.byteAt a = u.byteAt a := ih u t hrest a (hmap ▸ ha)
      _ = s.byteAt a := step_byteAt_of_isText hstep ha

/-! ### A step that reaches no instruction -/

/-- A fetch that fails its checks raises AddressError (R56, R61, R305, R335 (b)). -/
theorem step_eq_addressError {s : State} (hpc : s.pc ≠ s.map.endPc) (hfetch : s.accessOk .fetch 4 s.pc = false) :
    step s = raise (.addressError .fetch s.pc) s := by
  rcases step_cases s with ⟨hend, -⟩ | ⟨-, ⟨-, hstep⟩ | ⟨hok, -⟩ | ⟨-, hok, -⟩ | ⟨-, -, -, hok, -⟩ | ⟨-, -, hok, -⟩⟩
  case inl => exact absurd hend hpc
  case inr.inl => exact hstep
  all_goals simp [hfetch] at hok

/-- A word that is fetched and encodes no instruction raises ReservedInstruction (R100, R304 (a)). -/
theorem step_eq_reservedInstruction {s : State} {w : Word} (hpc : s.pc ≠ s.map.endPc)
    (hfetch : s.accessOk .fetch 4 s.pc = true) (hword : s.wordAt s.pc = some w) (hres : ∀ i, decodeWord w ≠ .ok i) :
    step s = raise (.reservedInstruction w) s := by
  rcases step_cases s with
    ⟨hend, -⟩ | ⟨-, ⟨hbad, -⟩ | ⟨-, hnone, -⟩ | ⟨w', -, hw', -, hstep⟩ | ⟨w', i, -, -, hw', hdec, -⟩ |
      ⟨w', i, -, hw', hdec, -⟩⟩
  case inl => exact absurd hend hpc
  case inr.inl => simp [hfetch] at hbad
  case inr.inr.inl => simp [hword] at hnone
  all_goals obtain rfl : w = w' := Option.some.inj (hword.symm.trans hw')
  case inr.inr.inr.inl => exact hstep
  all_goals exact absurd hdec (hres i)

/-- A fetch fails its checks where `pc` is misaligned or one of its bytes is no text (R54, R335 (b)). -/
theorem State.accessOk_fetch_eq_false {s : State} : s.accessOk .fetch 4 s.pc = false ↔
    s.pc.toNat % 4 ≠ 0 ∨ ∃ k, k < 4 ∧ s.map.isText (s.pc.toNat + k) = false := by
  rw [← Bool.not_eq_true, State.accessOk_iff, not_and_or]
  simp [MemMap.permits]

/-- Settles O6: the two cases of `step_cases` in which the fetch or the decoder raises an exception. -/
theorem stepFaults : Obligations.StepFaults := by
  intro s hpc
  refine ⟨fun hbad => ?_, fun w haligned htext hword hres => ?_⟩
  · exact step_eq_addressError hpc (State.accessOk_fetch_eq_false.2 hbad)
  · exact step_eq_reservedInstruction hpc (State.accessOk_iff.2 ⟨haligned, htext⟩) hword hres

/-! ### Effective addresses (R68, R170) -/

/-- Settles O36: both the sign extension and the sum are those of integers, modulo 2^32. -/
theorem effectiveAddress : Obligations.EffectiveAddress := by
  intro s rs imm
  calc s.effAddr rs imm = s.reg rs + BitVec.ofInt 32 imm.toInt := rfl
    _ = BitVec.ofInt 32 ((s.reg rs).toInt + imm.toInt) := by rw [BitVec.ofInt_add, BitVec.ofInt_toInt]

end Sys2Proof.Machine

/-! The launch (R331): what an accepted launch has checked, and the state that it starts in. -/

namespace Sys2Proof.Machine

/-! ### Words placed one after the other -/

/-- A word store keeps a word that shares no byte with it: the words lie `d` bytes apart, either way around the address
space (R52, R68). -/
theorem State.wordAt_setWord_ne (s : State) (a v : Word) {d : Nat} (hd : 4 ≤ d) (hd' : d + 4 ≤ 2 ^ 32) :
    (s.setWord (a + BitVec.ofNat 32 d) v).wordAt a = s.wordAt a := by
  have hbyte : ∀ j, j < 4 → (s.setWord (a + BitVec.ofNat 32 d) v).byteAt (a + BitVec.ofNat 32 j) =
      s.byteAt (a + BitVec.ofNat 32 j) := by
    intro j hj
    refine s.byteAt_setWord_ne v fun k hk => ?_
    bv_omega
  have h0 := hbyte 0 (by decide)
  simp only [BitVec.add_zero] at h0
  simp only [State.wordAt, h0, hbyte 1 (by decide), hbyte 2 (by decide), hbyte 3 (by decide), State.setWord_params]

theorem placeWords_cons (s : State) (a w : Word) (ws : List Word) :
    placeWords s a (w :: ws) = placeWords (s.setWord a w) (a + 4#32) ws := rfl

/-- What holds before words are placed, and is kept by the store of each at its address, holds after. -/
theorem placeWords_induction {motive : State → Prop} {s : State} {a : Word} {ws : List Word} (hstart : motive s)
    (hword : ∀ (k : Nat) (hk : k < ws.length) (u : State), motive u →
      motive (u.setWord (a + BitVec.ofNat 32 (4 * k)) ws[k])) : motive (placeWords s a ws) := by
  induction ws generalizing s a with
  | nil => exact hstart
  | cons w ws ih =>
    rw [placeWords_cons]
    have hfirst : motive (s.setWord (a + 0#32) w) := hword 0 (by simp) s hstart
    refine ih (BitVec.add_zero a ▸ hfirst) fun k hk u hu => ?_
    have hnext := hword (k + 1) (by simpa using hk) u hu
    rwa [Nat.mul_succ, Nat.add_comm, BitVec.ofNat_add, ← BitVec.add_assoc] at hnext

/-- Every word that was placed reads back, where they do not reach around the address space (R331 (a)). -/
theorem wordAt_placeWords (s : State) (a : Word) (ws : List Word) (hfits : 4 * ws.length ≤ 2 ^ 32) {k : Nat}
    (hk : k < ws.length) : (placeWords s a ws).wordAt (a + BitVec.ofNat 32 (4 * k)) = some ws[k] := by
  induction ws generalizing s a k with
  | nil => simp at hk
  | cons w ws ih =>
    simp only [List.length_cons] at hfits hk
    rw [placeWords_cons]
    cases k with
    | zero =>
      rw [Nat.mul_zero, BitVec.add_zero]
      refine placeWords_induction (motive := fun u => u.wordAt a = some w) (s.wordAt_setWord a w) fun j hj u hu => ?_
      rwa [BitVec.add_assoc, ← BitVec.ofNat_add, State.wordAt_setWord_ne _ _ _ (by omega) (by omega)]
    | succ k =>
      have hrest := ih (s.setWord a w) (a + 4#32) (by omega) (k := k) (by omega)
      rwa [BitVec.add_assoc, ← BitVec.ofNat_add, Nat.add_comm, ← Nat.mul_succ] at hrest

/-! ### Registers with a value (R332; log 5) -/

/-- Writes of general registers give a value to those that are written, and to no other register. -/
theorem hasValue_foldl_setReg (l : List (Reg × Word)) (s : State) (p : Piece) :
    (l.foldl (fun s q => s.setReg q.1 q.2) s).hasValue p = true ↔
      p ∈ l.map (fun q => .gpr q.1) ∨ s.hasValue p = true := by
  induction l generalizing s with
  | nil => simp
  | cons q l ih => simp [ih, State.hasValue_setReg, or_left_comm, or_assoc]

/-- Writes of floating-point registers give a value to those that are written, and to no other register. -/
theorem hasValue_foldl_setFpr (l : List (FReg × Word)) (s : State) (p : Piece) :
    (l.foldl (fun s q => s.setFpr q.1 q.2) s).hasValue p = true ↔
      p ∈ l.map (fun q => .fpr q.1) ∨ s.hasValue p = true := by
  induction l generalizing s with
  | nil => simp
  | cons q l ih => simp [ih, State.hasValue_setFpr, or_left_comm, or_assoc]

/-! ### The state of a launch -/

/-- The state of a launch before its general and floating-point registers and its program are put in: the first part of
`Launch.state` (`Launch.state_eq`). -/
def Launch.bare (l : Launch) : State := { State.reset with
  pc := l.entryPc
  npc := l.entryPc + 4#32
  hi := l.hi.getD State.reset.hi
  lo := l.lo.getD State.reset.lo
  fpcond := l.fpcond.getD State.reset.fpcond
  map := l.map
  params := l.params
  written := { State.reset.written with hi := l.hi.isSome, lo := l.lo.isSome, fpcond := l.fpcond.isSome }
  mem := l.bytes.foldl (fun m c => m.put c.1 c.2) [] }

/-- The state of a launch before its program is put in. -/
def Launch.withRegisters (l : Launch) : State :=
  l.fprs.foldl (fun s p => s.setFpr p.1 p.2) (l.gprs.foldl (fun s p => s.setReg p.1 p.2) l.bare)

theorem Launch.state_eq (l : Launch) : l.state = placeWords l.withRegisters l.textBase l.program := rfl

/-- What holds of the bare state, and is kept by each write of the launch, holds of its state. -/
theorem Launch.state_induction {motive : State → Prop} (l : Launch) (hbare : motive l.bare)
    (hreg : ∀ u r v, motive u → motive (u.setReg r v)) (hfpr : ∀ u n v, motive u → motive (u.setFpr n v))
    (hword : ∀ (k : Nat) (hk : k < l.program.length) (u : State), motive u →
      motive (u.setWord (l.textBase + BitVec.ofNat 32 (4 * k)) l.program[k])) : motive l.state :=
  placeWords_induction
    (List.foldlRecOn _ _ (List.foldlRecOn _ _ hbare fun u hu p _ => hreg u p.1 p.2 hu)
      fun u hu p _ => hfpr u p.1 p.2 hu)
    hword

/-- A reading of the state that none of the launch's writes changes is that of the bare state. -/
theorem Launch.state_apply_eq {β : Type} (f : State → β) (l : Launch)
    (hreg : ∀ u r v, f (u.setReg r v) = f u := by intros; rfl)
    (hfpr : ∀ u n v, f (u.setFpr n v) = f u := by intros; rfl)
    (hword : ∀ u a v, f (u.setWord a v) = f u := by intros; rfl) : f l.state = f l.bare :=
  l.state_induction (motive := fun u => f u = f l.bare) rfl (fun u r v hu => (hreg u r v).trans hu)
    (fun u n v hu => (hfpr u n v).trans hu) fun _ _ u hu => (hword u _ _).trans hu

@[simp] theorem Launch.state_pc (l : Launch) : l.state.pc = l.entryPc := l.state_apply_eq State.pc
@[simp] theorem Launch.state_npc (l : Launch) : l.state.npc = l.entryPc + 4#32 := l.state_apply_eq State.npc
@[simp] theorem Launch.state_map (l : Launch) : l.state.map = l.map := l.state_apply_eq State.map
@[simp] theorem Launch.state_params (l : Launch) : l.state.params = l.params := l.state_apply_eq State.params
@[simp] theorem Launch.state_llbit (l : Launch) : l.state.llbit = false := l.state_apply_eq State.llbit
@[simp] theorem Launch.state_hi (l : Launch) : l.state.hi = l.hi.getD State.reset.hi := l.state_apply_eq State.hi
@[simp] theorem Launch.state_lo (l : Launch) : l.state.lo = l.lo.getD State.reset.lo := l.state_apply_eq State.lo
@[simp] theorem Launch.state_fpcond (l : Launch) : l.state.fpcond = l.fpcond.getD State.reset.fpcond :=
  l.state_apply_eq State.fpcond

/-- The program gives no register a value. -/
theorem Launch.hasValue_state {l : Launch} {p : Piece} (hp : ∀ a, p ≠ .memory a) : l.state.hasValue p = true ↔
    p ∈ l.fprs.map (fun q => .fpr q.1) ∨ p ∈ l.gprs.map (fun q => .gpr q.1) ∨ l.bare.hasValue p = true := by
  have hwritten : l.state.written = l.withRegisters.written :=
    placeWords_induction (motive := fun u => u.written = l.withRegisters.written) rfl fun _ _ _ hu => hu
  rw [State.hasValue_congr hwritten hp, Launch.withRegisters, hasValue_foldl_setFpr, hasValue_foldl_setReg]

@[simp] theorem Launch.hasValue_state_gpr {l : Launch} {r : Reg} :
    l.state.hasValue (.gpr r) = true ↔ r = 0#5 ∨ r ∈ l.gprs.map (·.1) := by
  rw [Launch.hasValue_state (by simp)]
  simp [State.hasValue, Launch.bare, State.reset, Written.nothing, or_comm]

@[simp] theorem Launch.hasValue_state_fpr {l : Launch} {n : FReg} :
    l.state.hasValue (.fpr n) = true ↔ n ∈ l.fprs.map (·.1) := by
  rw [Launch.hasValue_state (by simp)]
  simp [State.hasValue, Launch.bare, State.reset, Written.nothing]

@[simp] theorem Launch.hasValue_state_hi {l : Launch} : l.state.hasValue .hi = true ↔ l.hi.isSome := by
  rw [Launch.hasValue_state (by simp)]
  simp [State.hasValue, Launch.bare]

@[simp] theorem Launch.hasValue_state_lo {l : Launch} : l.state.hasValue .lo = true ↔ l.lo.isSome := by
  rw [Launch.hasValue_state (by simp)]
  simp [State.hasValue, Launch.bare]

@[simp] theorem Launch.hasValue_state_fpcond {l : Launch} : l.state.hasValue .fpcond = true ↔ l.fpcond.isSome := by
  rw [Launch.hasValue_state (by simp)]
  simp [State.hasValue, Launch.bare]

/-! ### What an accepted launch has checked (R60, R61, R331; log 20) -/

/-- Of the checks of a launch, those that its state depends on: an aligned entry in the text, regions inside the address
space, and initial bytes in data regions. -/
structure Launch.Sound (l : Launch) : Prop where
  entry_aligned : l.entryPc.toNat % 4 = 0
  entry_isText : l.map.isText l.entryPc.toNat = true
  text_fits : l.textBase.toNat + 4 * l.program.length ≤ 2 ^ 32
  data_fits : ∀ r ∈ l.data, r.base + r.size ≤ 2 ^ 32
  bytes_mapped : ∀ c ∈ l.bytes, ∃ r ∈ l.data, r.contains c.1 = true

theorem Launch.sound_of_check {l : Launch} (h : l.check = none) : l.Sound := by
  unfold Launch.check at h
  split_ifs at h with haligned hentry _ hfits _ hbytes
  simp only [List.all_cons, Bool.not_eq_true', Bool.not_eq_false, Bool.and_eq_true, decide_eq_true_eq, List.all_eq_true,
    List.any_eq_true] at haligned hentry hfits hbytes
  obtain ⟨htext, hdata⟩ := hfits
  exact ⟨not_not.1 haligned, hentry, htext, hdata, hbytes⟩

/-- A launch is accepted only when it passes its checks, and then starts in its state (R331). -/
theorem Launch.start_eq_ok {l : Launch} {s : State} (h : l.start = .ok s) : l.Sound ∧ s = l.state := by
  unfold Launch.start at h
  split at h
  case h_1 hcheck => exact ⟨Launch.sound_of_check hcheck, (Except.ok.inj h).symm⟩
  case h_2 => exact absurd h nofun

/-- The bytes of the program lie one after the other in the text region. -/
theorem Launch.isText_program (l : Launch) {k : Nat} (hk : k < 4 * l.program.length) :
    l.map.isText (l.textBase.toNat + k) = true := by
  simp [MemMap.isText, Launch.map, Launch.text, Region.contains, hk]

namespace Launch.Sound
variable {l : Launch} (h : l.Sound)
include h

theorem byte_lt {c : Host.Cell} (hc : c ∈ l.bytes) : c.1 < 2 ^ 32 := by
  obtain ⟨r, hr, hcontains⟩ := h.bytes_mapped c hc
  have hfits := h.data_fits r hr
  simp only [Region.contains, Bool.and_eq_true, decide_eq_true_eq] at hcontains
  omega

theorem byte_mapped {c : Host.Cell} (hc : c ∈ l.bytes) : l.map.mapped c.1 = true := by
  obtain ⟨r, hr, hcontains⟩ := h.bytes_mapped c hc
  simp only [MemMap.mapped, Bool.or_eq_true, List.any_eq_true]
  exact .inr ⟨r, hr, hcontains⟩

/-- The address of a byte of the program's word `k`, which does not wrap around. -/
theorem toNat_program {k j : Nat} (hk : k < l.program.length) (hj : j < 4) :
    (l.textBase + BitVec.ofNat 32 (4 * k) + BitVec.ofNat 32 j).toNat = l.textBase.toNat + (4 * k + j) := by
  have hfits := h.text_fits
  bv_omega

end Launch.Sound

/-! ### The invariant at the start -/

theorem Inv.setReg {s : State} (h : Inv s) (r : Reg) (v : Word) : Inv (s.setReg r v) :=
  ⟨h.canonical, h.mapped, (s.setReg_zeroCell r v).trans h.zero, h.link, h.slot⟩

theorem Inv.setFpr {s : State} (h : Inv s) (n : FReg) (v : Word) : Inv (s.setFpr n v) :=
  ⟨h.canonical, h.mapped, h.zero, h.link, h.slot⟩

/-- A word stored at mapped addresses, be they text or data, keeps the invariant. -/
theorem Inv.setWord {s : State} (h : Inv s) {a : Word} (v : Word)
    (hmapped : ∀ k, k < 4 → s.map.mapped (a + BitVec.ofNat 32 k).toNat = true) : Inv (s.setWord a v) := by
  refine ⟨State.wf_setWord a v h.canonical, fun c hc => ?_, h.zero, h.link, h.slot⟩
  rcases State.mem_setWord hc with ⟨k, hk, hck⟩ | hc
  · rw [hck]
    exact hmapped k hk
  · exact h.mapped c hc

/-- Bytes put into an empty memory leave it in canonical form, with a value at their addresses only (R50). -/
theorem Memory.foldl_put (cells : List Host.Cell) (hlt : ∀ c ∈ cells, c.1 < 2 ^ 32) :
    let m : Memory := cells.foldl (fun m c => Memory.put m c.1 c.2) []
    m.wf ∧ ∀ c ∈ m, c ∈ cells :=
  List.foldlRecOn (motive := fun m : Memory => m.wf ∧ ∀ c ∈ m, c ∈ cells) _ _ ⟨⟨.nil, nofun⟩, nofun⟩
    fun m ⟨hwf, hmem⟩ d hd => ⟨Memory.wf_put d.2 hwf (hlt d hd), fun c hc => by
      rcases Memory.mem_put hc with rfl | hc
      · exact hd
      · exact hmem c hc⟩

theorem Launch.Sound.inv_bare {l : Launch} (h : l.Sound) : Inv l.bare := by
  obtain ⟨hwf, hmem⟩ := Memory.foldl_put l.bytes fun _ hc => h.byte_lt hc
  exact ⟨hwf, fun c hc => h.byte_mapped (hmem c hc), rfl, nofun, fun _ => rfl⟩

/-- The state that an accepted launch starts in has the invariant. -/
theorem Launch.Sound.inv_state {l : Launch} (h : l.Sound) : Inv l.state := by
  refine (l.state_induction (motive := fun u => u.map = l.map ∧ Inv u) ⟨rfl, h.inv_bare⟩
    (fun u r v ⟨hmap, hu⟩ => ⟨hmap, hu.setReg r v⟩) (fun u n v ⟨hmap, hu⟩ => ⟨hmap, hu.setFpr n v⟩)
    fun k hk u ⟨hmap, hu⟩ => ⟨hmap, hu.setWord _ fun j hj => ?_⟩).2
  rw [hmap, h.toNat_program hk hj, MemMap.mapped, l.isText_program (by omega), Bool.true_or]

/-- Settles O10: each reading of the launch's state is that of the bare state, or of the list that supplies it. -/
theorem launchStarts : Obligations.LaunchStarts := by
  intro l s hstart
  obtain ⟨h, rfl⟩ := Launch.start_eq_ok hstart
  have hfits : 4 * l.program.length ≤ 2 ^ 32 := by have := h.text_fits; omega
  refine ⟨l.state_pc, by simp, by simpa using h.entry_aligned, by simpa using h.entry_isText, by simp [Launch.map],
    l.state_llbit, l.state_params, h.inv_state, fun r => Launch.hasValue_state_gpr,
    fun n => Launch.hasValue_state_fpr, Launch.hasValue_state_hi, fun v hv => by simp [hv], Launch.hasValue_state_lo,
    fun v hv => by simp [hv], Launch.hasValue_state_fpcond, fun b hb => by simp [hb], fun k hk => ⟨?_, ?_⟩⟩
  · rw [Launch.state_eq]
    exact wordAt_placeWords _ _ _ hfits hk
  · simpa using l.isText_program (k := 4 * k) (by omega)

end Sys2Proof.Machine

/-! The encoder and the decoder undo each other (30_encoding.md), and a word whose selecting fields no row
lists is reserved. -/

namespace Sys2Proof

/-! ### Decoding what was encoded -/

/-- The bytes of a word, and any bytes after them, decode as the word does, in either byte order (R52, R53, R80). -/
theorem decodeBytes_wordBytes {w : Word} {i : Instr} (h : decodeWord w = .ok i) (o : ByteOrder) (rest : List Byte) :
    decodeBytes o (wordBytes o w ++ rest) = .ok (i, rest) := by
  simp only [wordBytes, List.cons_append, List.nil_append, decodeBytes, Machine.joinWord_laneByte, h]

/-- Settles O1: the word is of the row of its instruction (`decodeWord_encode`), and its bytes joined are the word. -/
theorem decodeOfEncode : Obligations.DecodeOfEncode :=
  fun i => ⟨decodeWord_encode i, decodeBytes_wordBytes (decodeWord_encode i)⟩

/-- Settles O3: each word is the one that the encoder writes for the instruction of the listing. -/
theorem listingWordsDecode : Obligations.ListingWordsDecode :=
  ⟨decodeWord_encode (.add 9 10 11), decodeWord_encode (.addi 9 10 3), decodeWord_encode (.sub 9 10 11),
    decodeWord_encode (.or 9 10 11), decodeWord_encode (.xor 9 10 11), decodeWord_encode (.jr 17),
    decodeWord_encode (.jal 0x0100006)⟩

/-! ### The fields that a row fixes -/

/-- A field that the mask covers is the pattern's in every word of the row (R99). -/
theorem Row.field_eq_of_accepts {r : Row} {w : Word} {n : Nat} {f : Word → BitVec n}
    (hf : ∀ a b, f (a &&& b) = f a &&& f b) (hmask : f r.mask = BitVec.allOnes n) (hacc : r.accepts w = true) :
    f w = f r.pattern := by
  have hw : w &&& r.mask = r.pattern := by simpa [Row.accepts] using hacc
  rw [← hw, hf, hmask, BitVec.and_allOnes]

/-- A field of the words of a row: any value where the mask leaves it free, else the pattern's. -/
def Row.fieldOf {n : Nat} (r : Row) (f : Word → BitVec n) (w : Word) : BitVec n :=
  if f r.mask = 0 then f w else f r.pattern

/-- The mask covers the field wholly or not at all. -/
abbrev Row.Whole {n : Nat} (r : Row) (f : Word → BitVec n) : Prop := f r.mask = 0 ∨ f r.mask = BitVec.allOnes n

theorem Row.fieldOf_eq {r : Row} {w : Word} {n : Nat} {f : Word → BitVec n} (hf : ∀ a b, f (a &&& b) = f a &&& f b)
    (hmask : r.Whole f) (hacc : r.accepts w = true) : r.fieldOf f w = f w := by
  rw [Row.fieldOf]
  split
  · rfl
  · next hne => exact (Row.field_eq_of_accepts hf (hmask.resolve_left hne) hacc).symm

/-! ### Encoding what was decoded -/

/-- Encoding what the row builds from a word of its own gives the word back. -/
def Row.Inverts (r : Row) : Prop := ∀ w, r.accepts w = true → encode (r.build w) = w

/-- A row of the R or FR format whose operands are the fields that its mask leaves free (R81, R84). -/
theorem Row.inverts_encR {r : Row}
    (hbuild : ∀ w, encode (r.build w) = encR (r.fieldOf fOpcode w) (r.fieldOf fRs w) (r.fieldOf fRt w) (r.fieldOf fRd w)
      (r.fieldOf fShamt w) (r.fieldOf fFunct w))
    (hmask : r.Whole fOpcode ∧ r.Whole fRs ∧ r.Whole fRt ∧ r.Whole fRd ∧ r.Whole fShamt ∧ r.Whole fFunct := by decide) :
    r.Inverts := by
  intro w hacc
  obtain ⟨hop, hrs, hrt, hrd, hshamt, hfunct⟩ := hmask
  rw [hbuild, fieldOf_eq fOpcode_and hop hacc, fieldOf_eq fRs_and hrs hacc, fieldOf_eq fRt_and hrt hacc,
    fieldOf_eq fRd_and hrd hacc, fieldOf_eq fShamt_and hshamt hacc, fieldOf_eq fFunct_and hfunct hacc, encR_fields]

/-- A row of the I or FI format whose operands are the fields that its mask leaves free (R82, R85). -/
theorem Row.inverts_encI {r : Row}
    (hbuild : ∀ w, encode (r.build w) =
      encI (r.fieldOf fOpcode w) (r.fieldOf fRs w) (r.fieldOf fRt w) (r.fieldOf fImm w))
    (hmask : r.Whole fOpcode ∧ r.Whole fRs ∧ r.Whole fRt ∧ r.Whole fImm := by decide) : r.Inverts := by
  intro w hacc
  obtain ⟨hop, hrs, hrt, himm⟩ := hmask
  rw [hbuild, fieldOf_eq fOpcode_and hop hacc, fieldOf_eq fRs_and hrs hacc, fieldOf_eq fRt_and hrt hacc,
    fieldOf_eq fImm_and himm hacc, encI_fields]

/-- A row of the J format (R83). -/
theorem Row.inverts_encJ {r : Row}
    (hbuild : ∀ w, encode (r.build w) = encJ (r.fieldOf fOpcode w) (r.fieldOf fAddress w))
    (hmask : r.Whole fOpcode ∧ r.Whole fAddress := by decide) : r.Inverts := by
  intro w hacc
  obtain ⟨hop, haddress⟩ := hmask
  rw [hbuild, fieldOf_eq fOpcode_and hop hacc, fieldOf_eq fAddress_and haddress hacc, encJ_fields]

/-! The rows of R99, each by its format. -/

section
open Row

theorem arithmeticRows_invert : ∀ r ∈ arithmeticRows, r.Inverts := by
  simp only [arithmeticRows, List.forall_mem_cons]
  exact ⟨inverts_encR fun _ => rfl, inverts_encI fun _ => rfl, inverts_encI fun _ => rfl, inverts_encR fun _ => rfl,
    inverts_encR fun _ => rfl, inverts_encR fun _ => rfl, inverts_encR fun _ => rfl, inverts_encR fun _ => rfl,
    inverts_encI fun _ => rfl, inverts_encI fun _ => rfl, nofun⟩

theorem logicRows_invert : ∀ r ∈ logicRows, r.Inverts := by
  simp only [logicRows, List.forall_mem_cons]
  exact ⟨inverts_encR fun _ => rfl, inverts_encI fun _ => rfl, inverts_encR fun _ => rfl, inverts_encI fun _ => rfl,
    inverts_encR fun _ => rfl, inverts_encR fun _ => rfl, inverts_encR fun _ => rfl, inverts_encR fun _ => rfl,
    inverts_encR fun _ => rfl, nofun⟩

theorem branchRows_invert : ∀ r ∈ branchRows, r.Inverts := by
  simp only [branchRows, List.forall_mem_cons]
  exact ⟨inverts_encI fun _ => rfl, inverts_encI fun _ => rfl, inverts_encJ fun _ => rfl, inverts_encJ fun _ => rfl,
    inverts_encR fun _ => rfl, nofun⟩

theorem memoryRows_invert : ∀ r ∈ memoryRows, r.Inverts := by
  intro r hr
  fin_cases hr <;> exact inverts_encI fun _ => rfl

theorem multiplyRows_invert : ∀ r ∈ multiplyRows, r.Inverts := by
  intro r hr
  fin_cases hr <;> exact inverts_encR fun _ => rfl

theorem floatRows_invert : ∀ r ∈ floatRows, r.Inverts := by
  intro r hr
  fin_cases hr <;> exact inverts_encR fun _ => rfl

theorem floatBranchRows_invert : ∀ r ∈ floatBranchRows, r.Inverts := by
  simp only [floatBranchRows, List.forall_mem_cons]
  exact ⟨inverts_encI fun _ => rfl, inverts_encI fun _ => rfl, inverts_encI fun _ => rfl, inverts_encI fun _ => rfl,
    inverts_encI fun _ => rfl, inverts_encI fun _ => rfl, inverts_encR fun _ => rfl, nofun⟩

end

theorem opcodeTable_inverts : ∀ r ∈ opcodeTable, r.Inverts := by
  simp only [opcodeTable, List.forall_mem_append]
  exact ⟨⟨⟨⟨⟨⟨arithmeticRows_invert, logicRows_invert⟩, branchRows_invert⟩, memoryRows_invert⟩, multiplyRows_invert⟩,
    floatRows_invert⟩, floatBranchRows_invert⟩

/-- Settles O2: the word is of some row, and every row inverts the encoder. -/
theorem encodeOfDecode : Obligations.EncodeOfDecode := by
  intro w i hdec
  obtain ⟨r, hr, hacc, rfl⟩ := decodeWord_ok hdec
  exact opcodeTable_inverts r hr w hacc

/-! ### What the rows select by (R94 to R97) -/

/-- The mask covers the field, and the pattern holds one of the values there. -/
abbrev Row.Fixes {n : Nat} (r : Row) (f : Word → BitVec n) (values : List (BitVec n)) : Prop :=
  f r.mask = BitVec.allOnes n ∧ f r.pattern ∈ values

theorem Row.Fixes.mem {r : Row} {w : Word} {n : Nat} {f : Word → BitVec n} {values : List (BitVec n)}
    (h : r.Fixes f values) (hf : ∀ a b, f (a &&& b) = f a &&& f b) (hacc : r.accepts w = true) : f w ∈ values := by
  obtain ⟨hmask, hpattern⟩ := h
  rwa [Row.field_eq_of_accepts hf hmask hacc]

/-- A row fixes the opcode, and each field that its opcode and fmt select an instruction by, to a value that R94 to R97
list. -/
structure Row.Selects (r : Row) : Prop where
  opcode : r.Fixes fOpcode [0x00, 0x02, 0x03, 0x04, 0x05, 0x08, 0x09, 0x0a, 0x0b, 0x0c, 0x0d, 0x0f, 0x10, 0x11, 0x20,
    0x21, 0x23, 0x24, 0x25, 0x28, 0x29, 0x2b, 0x30, 0x31, 0x35, 0x38, 0x39, 0x3d]
  funct : fOpcode r.pattern = 0x00 → r.Fixes fFunct [0x00, 0x02, 0x03, 0x08, 0x10, 0x12, 0x18, 0x19, 0x1a, 0x1b, 0x20,
    0x21, 0x22, 0x23, 0x24, 0x25, 0x26, 0x27, 0x2a, 0x2b]
  control : fOpcode r.pattern = 0x10 → r.Fixes fRs [0x00]
  fmt : fOpcode r.pattern = 0x11 → r.Fixes fRs [0x08, 0x10, 0x11]
  float : fOpcode r.pattern = 0x11 → fRs r.pattern ∈ ([0x10, 0x11] : List (BitVec 5)) →
    r.Fixes fFunct [0x00, 0x01, 0x02, 0x03, 0x32, 0x3c, 0x3e]
  branch : fOpcode r.pattern = 0x11 → fRs r.pattern = 0x08 → r.Fixes fRt [0x00, 0x01]

/-- Each clause is a fact of the 62 masks and patterns of R99. -/
theorem opcodeTable_selects {r : Row} (hr : r ∈ opcodeTable) : r.Selects := by
  constructor <;> revert r <;> decide

/-- Settles O4: a row that accepted the word would fix the field that is unlisted to a value that is listed. -/
theorem unlistedEncodingsAreReserved : Obligations.UnlistedEncodingsAreReserved := by
  intro w hunlisted
  refine decodeWord_of_no_row fun r hr => Bool.eq_false_iff.2 fun hacc => ?_
  have hrow := opcodeTable_selects hr
  have hop : fOpcode w = fOpcode r.pattern := Row.field_eq_of_accepts fOpcode_and hrow.opcode.1 hacc
  rcases hunlisted with h | ⟨ho, h⟩ | ⟨ho, h⟩ | ⟨ho, h⟩ | ⟨ho, hfmt, h⟩ | ⟨ho, hft, h⟩
  case inl => exact h (hrow.opcode.mem fOpcode_and hacc)
  all_goals rw [hop] at ho
  case inr.inl => exact h ((hrow.funct ho).mem fFunct_and hacc)
  case inr.inr.inl => exact h (List.mem_singleton.1 ((hrow.control ho).mem fRs_and hacc))
  case inr.inr.inr.inl => exact h ((hrow.fmt ho).mem fRs_and hacc)
  all_goals have hrs : fRs w = fRs r.pattern := Row.field_eq_of_accepts fRs_and (hrow.fmt ho).1 hacc
  case inr.inr.inr.inr.inl => exact h ((hrow.float ho (hrs ▸ hfmt)).mem fFunct_and hacc)
  case inr.inr.inr.inr.inr => exact h ((hrow.branch ho (hrs ▸ hft)).mem fRt_and hacc)

end Sys2Proof

/-! Branches and jumps (42_branch_jump.md) under either setting of BRANCH_DELAY: where they go, what they leave, and the
instruction in the delay slot. -/

namespace Sys2Proof.Machine

/-! ### Targets (R90, R91) -/

/-- The target of a branch is four times the immediate away from the next instruction, as a signed number (R90). -/
theorem branchTarget_eq (pc : Word) (imm : Imm) :
    branchTarget pc imm = pc + 4#32 + BitVec.ofInt 32 (4 * imm.toInt) := by
  have hshift : signExtImm imm <<< 2 = BitVec.ofInt 32 imm.toInt * 4#32 := BitVec.shiftLeft_eq_mul_twoPow _ _
  rw [branchTarget, branchAddr, hshift, Int.mul_comm, BitVec.ofInt_mul]
  rfl

/-- The target of j and jal lies in the 256 MB region of the next instruction (R91). -/
theorem jumpTarget_eq (pc : Word) (address : BitVec 26) :
    jumpTarget pc address = BitVec.ofNat 32 ((pc + 4#32).toNat / 2 ^ 28 * 2 ^ 28 + 4 * address.toNat) := by
  have hpc := (pc + 4#32).isLt
  have haddress := address.isLt
  apply BitVec.eq_of_toNat_eq
  rw [jumpTarget, BitVec.toNat_append, BitVec.toNat_append, ← Nat.shiftLeft_add_eq_or_of_lt (by simp),
    ← Nat.shiftLeft_add_eq_or_of_lt haddress]
  simp only [BitVec.extractLsb'_toNat, Nat.shiftLeft_eq, Nat.shiftRight_eq_div_pow, BitVec.toNat_ofNat]
  omega

/-! ### Every branch and jump -/

/-- The state that a branch or jump transfers from: jal has written its link (R156). -/
def linked (s : State) : Instr → State
  | .jal _ => s.setReg 31#5 (s.pc + s.linkOffset)
  | _ => s

/-- The state after a branch or jump. -/
def afterTransfer (s : State) (i : Instr) : State := (linked s i).transfer (takes s i) (targetOf s i)

theorem linked_keeps (s : State) (i : Instr) :
    (linked s i).pc = s.pc ∧ (linked s i).npc = s.npc ∧ (linked s i).params = s.params := by
  cases i <;> exact ⟨rfl, rfl, rfl⟩

/-- The meaning of every branch and jump: outside a delay slot it transfers, to the target or in sequence (R150, R151). -/
theorem exec_of_isTransfer {i : Instr} (hi : isTransfer i = true) (s : State) :
    exec i s = outsideDelaySlot i s (.next (afterTransfer s i)) := by
  cases i
  case beq => simp [exec, execBeq, afterTransfer, linked, takes, targetOf, branchTarget_eq, beq_eq_decide]
  case bne => simp [exec, execBne, afterTransfer, linked, takes, targetOf, branchTarget_eq, bne, beq_eq_decide]
  case bc1t => simp [exec, execBc1t, afterTransfer, linked, takes, targetOf, branchTarget_eq]
  case bc1f => simp [exec, execBc1f, afterTransfer, linked, takes, targetOf, branchTarget_eq]
  case j => simp [exec, execJ, afterTransfer, linked, takes, targetOf, isTransfer, jumpTarget_eq]
  case jal => simp [exec, execJal, afterTransfer, linked, takes, targetOf, isTransfer, jumpTarget_eq]
  case jr => rfl
  all_goals exact absurd hi Bool.false_ne_true

/-- A branch or jump that completes stood in no delay slot. -/
theorem exec_transfer_eq_next {i : Instr} {s t : State} (hi : isTransfer i = true) (h : exec i s = .next t) :
    NotInSlot s ∧ t = afterTransfer s i := by
  rw [exec_of_isTransfer hi] at h
  obtain ⟨hslot, hnext⟩ := outsideDelaySlot_eq_next h
  exact ⟨hslot, (Host.Outcome.next.inj hnext).symm⟩

/-- Nothing changes but the register of the link. -/
theorem frame_linked (s : State) (i : Instr) : Frame { gprs := (gprDest i).toList } s (linked s i) := by
  cases i
  case jal => exact { (wroteReg_setReg_advance s 31#5 (s.pc + s.linkOffset)).frame with }
  all_goals
    exact ⟨fun _ _ => rfl, fun _ _ => rfl, fun _ => ⟨rfl, rfl⟩, fun _ => rfl, fun _ => ⟨rfl, rfl⟩, fun _ => rfl,
      fun _ _ => rfl⟩

/-- Outside a delay slot a branch or jump completes: it goes where it says, and changes nothing but its link. -/
theorem exec_transfer {i : Instr} {s : State} (hi : isTransfer i = true) (hslot : NotInSlot s) :
    exec i s = .next (afterTransfer s i) ∧ Frame { gprs := (gprDest i).toList } s (afterTransfer s i) ∧
      Transfers (takes s i) (targetOf s i) s (afterTransfer s i) := by
  obtain ⟨hpc, hnpc, hparams⟩ := linked_keeps s i
  refine ⟨?_, { frame_linked s i with }, transfers_transfer _ _ hpc hnpc hparams⟩
  rcases outsideDelaySlot_cases i s (.next (afterTransfer s i)) with ⟨-, h⟩ | ⟨hin, -⟩
  · rw [exec_of_isTransfer hi, h]
  · exact absurd hslot hin

/-- The link of jal is the address of the instruction after it, or under `one_slot` after its delay slot (R156). -/
theorem reg_link (s : State) (address : BitVec 26) :
    (afterTransfer s (.jal address)).reg 31#5 = s.pc + s.linkOffset := s.reg_setReg_same 31#5 _

/-- Settles O33: the four rows of the table, and `exec_transfer` of each branch. -/
theorem branches : Obligations.Branches := by
  refine ⟨?_, ?_, ?_, ?_, fun rs rt imm s hslot => ⟨?_, ?_, ?_, ?_⟩⟩
  · exact decodesBy_of_mem (r := ⟨"beq", _, _, _⟩) (List.mem_of_getElem? (i := 19) rfl)
  · exact decodesBy_of_mem (r := ⟨"bne", _, _, _⟩) (List.mem_of_getElem? (i := 20) rfl)
  · exact decodesBy_of_mem (r := ⟨"bc1t", _, _, _⟩) (List.mem_of_getElem? (i := 55) rfl)
  · exact decodesBy_of_mem (r := ⟨"bc1f", _, _, _⟩) (List.mem_of_getElem? (i := 56) rfl)
  · exact ⟨_, exec_transfer (i := .beq rs rt imm) rfl hslot⟩
  · exact ⟨_, exec_transfer (i := .bne rs rt imm) rfl hslot⟩
  · exact ⟨_, exec_transfer (i := .bc1t imm) rfl hslot⟩
  · exact ⟨_, exec_transfer (i := .bc1f imm) rfl hslot⟩

/-- Settles O34: the three rows of the table, `exec_transfer` of each jump, and the link of jal. -/
theorem jumps : Obligations.Jumps := by
  refine ⟨?_, ?_, ?_, fun address rs s hslot => ⟨?_, ?_, ?_⟩⟩
  · exact decodesBy_of_mem (r := ⟨"j", _, _, _⟩) (List.mem_of_getElem? (i := 21) rfl)
  · exact decodesBy_of_mem (r := ⟨"jal", _, _, _⟩) (List.mem_of_getElem? (i := 22) rfl)
  · exact decodesBy_of_mem (r := ⟨"jr", _, _, _⟩) (List.mem_of_getElem? (i := 23) rfl)
  · exact ⟨_, exec_transfer (i := .j address) rfl hslot⟩
  · obtain ⟨hexec, hframe, htransfers⟩ := exec_transfer (i := .jal address) rfl hslot
    refine ⟨_, hexec, hframe, htransfers, fun hnone => ?_, fun honeSlot => ?_⟩
    · simp [reg_link, State.linkOffset, State.oneSlot, hnone]
    · simp [reg_link, State.linkOffset, State.oneSlot, honeSlot]
  · exact ⟨_, exec_transfer (i := .jr rs) rfl hslot⟩

/-! ### Every other instruction goes on in sequence (R28, R151) -/

/-- Where the run completes it ends with `advance`, from the program counters and parameters of `s`. -/
def GoesOn (s : State) (run : Result) : Prop :=
  ∀ t, run = .next t → ∃ u : State, u.pc = s.pc ∧ u.npc = s.npc ∧ u.params = s.params ∧ t = u.advance

section
variable {s : State}

theorem goesOn_next {u : State} (hpc : u.pc = s.pc := by rfl) (hnpc : u.npc = s.npc := by rfl)
    (hparams : u.params = s.params := by rfl) : GoesOn s (.next u.advance) :=
  fun _ h => ⟨u, hpc, hnpc, hparams, (Host.Outcome.next.inj h).symm⟩

theorem goesOn_raise {e : Word → State → Fault} : GoesOn s (raise e s) := fun _ h => absurd h raise_ne_next

theorem goesOn_ite {c : Bool} {run₁ run₂ : Result} (h₁ : GoesOn s run₁) (h₂ : GoesOn s run₂) :
    GoesOn s (if c then run₁ else run₂) := by
  cases c
  · exact h₂
  · exact h₁

theorem goesOn_requireEven {i : Instr} {regs : List FReg} {run : Result} (h : GoesOn s run) :
    GoesOn s (requireEven i regs s run) := goesOn_ite h goesOn_raise

theorem goesOn_load {α : Type} {n : Nat} {read : State → Word → Option α} {a : Word} {f : α → State}
    (hpc : ∀ v, (f v).pc = s.pc := by intro _; rfl) (hnpc : ∀ v, (f v).npc = s.npc := by intro _; rfl)
    (hparams : ∀ v, (f v).params = s.params := by intro _; rfl) : GoesOn s (load n read a s f) := by
  intro t h
  obtain ⟨v, -, -, rfl⟩ := load_eq_next h
  exact ⟨f v, hpc v, hnpc v, hparams v, rfl⟩

theorem goesOn_store {n : Nat} {a : Word} {written : State} (hpc : written.pc = s.pc := by simp)
    (hnpc : written.npc = s.npc := by simp) (hparams : written.params = s.params := by simp) :
    GoesOn s (store n a s written) := goesOn_ite (goesOn_next hpc hnpc hparams) goesOn_raise

end

/-- Every instruction but a branch or jump goes on in sequence. -/
theorem exec_goesOn {i : Instr} (hi : isTransfer i = false) (s : State) : GoesOn s (exec i s) := by
  cases i
  case beq | bne | j | jal | jr | bc1t | bc1f => exact Bool.noConfusion hi
  case add | addi | sub => exact goesOn_ite goesOn_raise goesOn_next
  case div | divu => exact goesOn_ite goesOn_next goesOn_next
  case lw | lbu | lb | lhu | lh | ll | lwc1 => exact goesOn_load
  case sw | sb | sh | swc1 => exact goesOn_store
  case sc =>
    exact goesOn_store (by simp [apply_ite State.pc]) (by simp [apply_ite State.npc]) (by simp [apply_ite State.params])
  case ldc1 => exact goesOn_requireEven goesOn_load
  case sdc1 => exact goesOn_requireEven goesOn_store
  case addD | subD | mulD | divD | cEqD | cLtD | cLeD => exact goesOn_requireEven goesOn_next
  all_goals exact goesOn_next

/-! ### The delay slot (R151) -/

/-- Under `one_slot` a branch or jump goes on to its slot, and after it to the target if taken. -/
theorem afterTransfer_of_oneSlot {s : State} (hslots : s.params.branchDelay = .oneSlot) (i : Instr) :
    (afterTransfer s i).inDelaySlot = true ∧ (afterTransfer s i).params = s.params ∧ (afterTransfer s i).pc = s.npc ∧
      (afterTransfer s i).npc = if takes s i then targetOf s i else s.npc + 4#32 := by
  obtain ⟨-, hnpc, hparams⟩ := linked_keeps s i
  simp [afterTransfer, State.transfer, State.oneSlot, hnpc, hparams, hslots]

/-- Under `one_slot` going on in sequence ends the slot. -/
theorem advance_of_oneSlot {s : State} (hslots : s.params.branchDelay = .oneSlot) :
    s.advance.inDelaySlot = false ∧ s.advance.pc = s.npc ∧ s.advance.npc = s.npc + 4#32 := by
  simp [State.advance, State.oneSlot, hslots]

/-- Settles O35: a transfer ends by `afterTransfer` and every other instruction by `advance` (`exec_goesOn`); in the slot
a transfer would not complete. -/
theorem delaySlot : Obligations.DelaySlot := by
  refine ⟨fun i s t hslots hexec => ?_, fun i₀ i s t u hslots hi₀ ht hu => ?_⟩
  · cases hi : isTransfer i with
    | true =>
      obtain ⟨-, rfl⟩ := exec_transfer_eq_next hi hexec
      obtain ⟨hin, -⟩ := afterTransfer_of_oneSlot hslots i
      exact hin
    | false =>
      obtain ⟨v, -, -, hparams, rfl⟩ := exec_goesOn hi s t hexec
      obtain ⟨hout, -⟩ := advance_of_oneSlot (hparams ▸ hslots)
      exact hout
  · obtain ⟨-, rfl⟩ := exec_transfer_eq_next hi₀ ht
    obtain ⟨hin, hparams, hpc, hnpc⟩ := afterTransfer_of_oneSlot hslots i₀
    have hslots' : (afterTransfer s i₀).params.branchDelay = .oneSlot := hparams ▸ hslots
    have hi : isTransfer i = false := Bool.eq_false_iff.2 fun htransfer => by
      obtain ⟨hnotIn, -⟩ := exec_transfer_eq_next htransfer hu
      simp [NotInSlot, hin, hslots'] at hnotIn
    obtain ⟨v, -, hvnpc, hvparams, rfl⟩ := exec_goesOn hi _ u hu
    obtain ⟨hout, hvpc, hnext⟩ := advance_of_oneSlot (hvparams ▸ hslots')
    rw [hvnpc, hnpc] at hvpc hnext
    exact ⟨hpc, hi, hout, hvpc, hnext.trans (hvpc ▸ rfl)⟩

end Sys2Proof.Machine

/-! Integer arithmetic and compare (40_arithmetic_compare.md): the exact result or Overflow, the result modulo 2^32, and
the comparisons. -/

namespace Sys2Proof.Machine

/-! ### The conditions of R110 -/

/-- The condition for a sum is the library's test for signed overflow. -/
theorem ovfAdd_eq_saddOverflow (a b : Word) : ovfAdd a b = a.saddOverflow b := (BitVec.saddOverflow_eq a b).symm

/-- The condition for a difference is that test too, which the library writes once per sign of the first operand. -/
theorem ovfSub_eq_ssubOverflow (a b : Word) : ovfSub a b = a.ssubOverflow b := by
  rw [ovfSub, BitVec.ssubOverflow_eq]
  cases a.msb <;> simp

theorem ovfAdd_iff (a b : Word) : ovfAdd a b = true ↔ ¬ Fits32 (a.toInt + b.toInt) := by
  simp only [ovfAdd_eq_saddOverflow, BitVec.saddOverflow, Fits32, Bool.or_eq_true, decide_eq_true_eq]
  omega

theorem ovfSub_iff (a b : Word) : ovfSub a b = true ↔ ¬ Fits32 (a.toInt - b.toInt) := by
  simp only [ovfSub_eq_ssubOverflow, BitVec.ssubOverflow, Fits32, Bool.or_eq_true, decide_eq_true_eq]
  omega

/-- Settles O27: each condition is the library's test for signed overflow. -/
theorem overflowConditions : Obligations.OverflowConditions := fun a b => ⟨ovfAdd_iff a b, ovfSub_iff a b⟩

/-! ### Results as numbers -/

theorem toInt_signExtImm (imm : Imm) : (signExtImm imm).toInt = imm.toInt :=
  BitVec.toInt_signExtend_of_le (by decide)

theorem add_eq_ofInt (a b : Word) : a + b = BitVec.ofInt 32 (a.toInt + b.toInt) := by
  rw [BitVec.ofInt_add, BitVec.ofInt_toInt, BitVec.ofInt_toInt]

theorem sub_eq_ofInt (a b : Word) : a - b = BitVec.ofInt 32 (a.toInt - b.toInt) := by
  apply BitVec.eq_of_toInt_eq
  rw [BitVec.toInt_sub, BitVec.toInt_ofInt]

theorem add_eq_ofNat (a b : Word) : a + b = BitVec.ofNat 32 (a.toNat + b.toNat) := by
  rw [BitVec.ofNat_add, BitVec.ofNat_toNat, BitVec.ofNat_toNat, BitVec.setWidth_eq, BitVec.setWidth_eq]

theorem boolWord_lessSigned (a b : Word) : boolWord (lessSigned a b) = if a.toInt < b.toInt then 1#32 else 0#32 := by
  simp only [boolWord, lessSigned, decide_eq_true_eq]

theorem boolWord_lessUnsigned (a b : Word) :
    boolWord (lessUnsigned a b) = if a.toNat < b.toNat then 1#32 else 0#32 := by
  simp only [boolWord, lessUnsigned, decide_eq_true_eq]

/-! ### Instructions that write one register -/

/-- The run completes with `x[r]` written, the value in the form that the claim gives it. -/
theorem exists_wroteReg {s : State} {r : Reg} {v w : Word} (h : v = w) :
    ∃ t, (.next (s.setReg r v).advance : Result) = .next t ∧ WroteReg r w s t :=
  ⟨_, rfl, h ▸ wroteReg_setReg_advance s r v⟩

/-- The run writes `x[r]` with the result `z` if that is a signed 32-bit number, and otherwise raises Overflow. -/
structure ExactOrOverflow (r : Reg) (z : Int) (s : State) (run : Result) : Prop where
  result : Fits32 z → ∃ t, run = .next t ∧ WroteReg r (BitVec.ofInt 32 z) s t
  overflow : ¬ Fits32 z → run = .fault (.overflow s.pc (afterException s))

/-- A test that says that the exact result does not fit, before the write of the result modulo 2^32. -/
theorem exactOrOverflow_of_iff {r : Reg} {z : Int} {s : State} {c : Bool} {v : Word} (hc : c = true ↔ ¬ Fits32 z)
    (hv : v = BitVec.ofInt 32 z) :
    ExactOrOverflow r z s (if c then raise .overflow s else .next (s.setReg r v).advance) where
  result hfits := by
    rw [if_neg (mt hc.1 (not_not_intro hfits))]
    exact exists_wroteReg hv
  overflow hnot := if_pos (hc.2 hnot)

theorem exec_add_exactOrOverflow (rd rs rt : Reg) (s : State) :
    ExactOrOverflow rd ((s.reg rs).toInt + (s.reg rt).toInt) s (exec (.add rd rs rt) s) :=
  exactOrOverflow_of_iff (ovfAdd_iff _ _) (add_eq_ofInt _ _)

theorem exec_addi_exactOrOverflow (rt rs : Reg) (imm : Imm) (s : State) :
    ExactOrOverflow rt ((s.reg rs).toInt + imm.toInt) s (exec (.addi rt rs imm) s) :=
  exactOrOverflow_of_iff (toInt_signExtImm imm ▸ ovfAdd_iff (s.reg rs) (signExtImm imm)) (effectiveAddress s rs imm)

theorem exec_sub_exactOrOverflow (rd rs rt : Reg) (s : State) :
    ExactOrOverflow rd ((s.reg rs).toInt - (s.reg rt).toInt) s (exec (.sub rd rs rt) s) :=
  exactOrOverflow_of_iff (ovfSub_iff _ _) (sub_eq_ofInt _ _)

/-- Settles O28: the three rows of the table, and what each instruction does with its exact result. -/
theorem addAddiSub : Obligations.AddAddiSub := by
  refine ⟨?_, ?_, ?_, fun rd rs rt imm s => ?_⟩
  · exact decodesBy_of_mem (r := ⟨"add", _, _, _⟩) (List.mem_of_getElem? (i := 0) rfl)
  · exact decodesBy_of_mem (r := ⟨"addi", _, _, _⟩) (List.mem_of_getElem? (i := 1) rfl)
  · exact decodesBy_of_mem (r := ⟨"sub", _, _, _⟩) (List.mem_of_getElem? (i := 4) rfl)
  · have hadd := exec_add_exactOrOverflow rd rs rt s
    have haddi := exec_addi_exactOrOverflow rt rs imm s
    have hsub := exec_sub_exactOrOverflow rd rs rt s
    exact ⟨hadd.result, hadd.overflow, haddi.result, haddi.overflow, hsub.result, hsub.overflow⟩

/-- Settles O29: the three rows of the table, and each result modulo 2^32; addiu's is that of an effective address. -/
theorem adduAddiuSubu : Obligations.AdduAddiuSubu := by
  refine ⟨?_, ?_, ?_, fun rd rs rt imm s => ⟨?_, ?_, ?_⟩⟩
  · exact decodesBy_of_mem (r := ⟨"addu", _, _, _⟩) (List.mem_of_getElem? (i := 3) rfl)
  · exact decodesBy_of_mem (r := ⟨"addiu", _, _, _⟩) (List.mem_of_getElem? (i := 2) rfl)
  · exact decodesBy_of_mem (r := ⟨"subu", _, _, _⟩) (List.mem_of_getElem? (i := 5) rfl)
  · exact exists_wroteReg (add_eq_ofNat _ _)
  · exact exists_wroteReg (effectiveAddress s rs imm)
  · exact exists_wroteReg (sub_eq_ofInt _ _)

/-- Settles O30: the four rows of the table, and each comparison of the operands as numbers. -/
theorem setLessThan : Obligations.SetLessThan := by
  refine ⟨?_, ?_, ?_, ?_, fun rd rs rt imm s => ⟨?_, ?_, ?_, ?_⟩⟩
  · exact decodesBy_of_mem (r := ⟨"slt", _, _, _⟩) (List.mem_of_getElem? (i := 6) rfl)
  · exact decodesBy_of_mem (r := ⟨"sltu", _, _, _⟩) (List.mem_of_getElem? (i := 7) rfl)
  · exact decodesBy_of_mem (r := ⟨"slti", _, _, _⟩) (List.mem_of_getElem? (i := 8) rfl)
  · exact decodesBy_of_mem (r := ⟨"sltiu", _, _, _⟩) (List.mem_of_getElem? (i := 9) rfl)
  · exact exists_wroteReg (boolWord_lessSigned _ _)
  · exact exists_wroteReg (boolWord_lessUnsigned _ _)
  · exact exists_wroteReg (toInt_signExtImm imm ▸ boolWord_lessSigned (s.reg rs) (signExtImm imm))
  · exact exists_wroteReg (boolWord_lessUnsigned (s.reg rs) (signExtImm imm))

end Sys2Proof.Machine

/-! Logic and shift (41_logical_shift.md), and lui (R179): each bit of a logic result, and each shift as arithmetic. -/

namespace Sys2Proof.Machine

/-! ### The logic results, bit by bit -/

theorem getLsbD_zeroExtImm (imm : Imm) {k : Nat} (hk : k < 32) :
    (zeroExtImm imm).getLsbD k = (decide (k < 16) && imm.getLsbD k) := by
  rw [zeroExtImm, BitVec.getLsbD_setWidth, decide_eq_true hk, Bool.true_and]
  by_cases hlow : k < 16
  · rw [decide_eq_true hlow, Bool.true_and]
  · rw [decide_eq_false hlow, Bool.false_and, BitVec.getLsbD_of_ge imm k (Nat.le_of_not_lt hlow)]

theorem getLsbD_and_zeroExtImm (a : Word) (imm : Imm) {k : Nat} (hk : k < 32) :
    (a &&& zeroExtImm imm).getLsbD k = (decide (k < 16) && (a.getLsbD k && imm.getLsbD k)) := by
  rw [BitVec.getLsbD_and, getLsbD_zeroExtImm imm hk, Bool.and_left_comm]

theorem getLsbD_or_zeroExtImm (a : Word) (imm : Imm) {k : Nat} (hk : k < 32) :
    (a ||| zeroExtImm imm).getLsbD k = (a.getLsbD k || (decide (k < 16) && imm.getLsbD k)) := by
  rw [BitVec.getLsbD_or, getLsbD_zeroExtImm imm hk]

theorem getLsbD_nor (a b : Word) {k : Nat} (hk : k < 32) :
    (~~~(a ||| b)).getLsbD k = (!a.getLsbD k && !b.getLsbD k) := by
  rw [BitVec.getLsbD_not, decide_eq_true hk, Bool.true_and, BitVec.getLsbD_or, Bool.not_or]

theorem getLsbD_xor_eq_bne (a b : Word) (k : Nat) : (a ^^^ b).getLsbD k = (a.getLsbD k != b.getLsbD k) := by
  rw [BitVec.getLsbD_xor, Bool.bne_eq_xor]

/-! ### lui and the shifts as arithmetic -/

theorem upperImm_eq_ofNat (imm : Imm) : upperImm imm = BitVec.ofNat 32 (imm.toNat * 65536) := by
  apply BitVec.eq_of_toNat_eq
  have himm := imm.isLt
  rw [upperImm, BitVec.toNat_append, BitVec.toNat_ofNat, BitVec.toNat_ofNat, Nat.zero_mod, Nat.or_zero,
    Nat.shiftLeft_eq]
  omega

theorem shiftLeft_eq_ofNat (a : Word) (n : Nat) : a <<< n = BitVec.ofNat 32 (a.toNat * 2 ^ n) := by
  rw [← Nat.shiftLeft_eq, ← BitVec.shiftLeft_eq, BitVec.shiftLeft]

theorem ushiftRight_eq_ofNat (a : Word) (n : Nat) : a >>> n = BitVec.ofNat 32 (a.toNat / 2 ^ n) := by
  rw [← Nat.shiftRight_eq_div_pow, ← BitVec.toNat_ushiftRight, BitVec.ofNat_toNat, BitVec.setWidth_eq]

/-- `/` rounds down here, its divisor being positive: the floor of R138. -/
theorem sshiftRight_eq_ofInt (a : Word) (n : Nat) : a.sshiftRight n = BitVec.ofInt 32 (a.toInt / 2 ^ n) := by
  rw [BitVec.sshiftRight_eq, Int.shiftRight_eq_div_pow, Int.natCast_pow, Int.cast_ofNat_Int]

/-! ### The instructions -/

/-- The run completes with `x[r]` written, the value given by its bits. -/
theorem exists_wroteReg_bits {s : State} {r : Reg} {v : Word} {b : Nat → Bool}
    (h : ∀ k, k < 32 → v.getLsbD k = b k) :
    ∃ t w, (.next (s.setReg r v).advance : Result) = .next t ∧ WroteReg r w s t ∧
      ∀ k, k < 32 → w.getLsbD k = b k :=
  ⟨_, v, rfl, wroteReg_setReg_advance s r v, h⟩

/-- Settles O31: the seven rows of the table, each logic result bit by bit, and lui's as a number. -/
theorem logicAndLui : Obligations.LogicAndLui := by
  refine ⟨?_, ?_, ?_, ?_, ?_, ?_, ?_, fun rd rs rt imm s => ⟨?_, ?_, ?_, ?_, ?_, ?_, ?_⟩⟩
  · exact decodesBy_of_mem (r := ⟨"and", _, _, _⟩) (List.mem_of_getElem? (i := 10) rfl)
  · exact decodesBy_of_mem (r := ⟨"andi", _, _, _⟩) (List.mem_of_getElem? (i := 11) rfl)
  · exact decodesBy_of_mem (r := ⟨"or", _, _, _⟩) (List.mem_of_getElem? (i := 12) rfl)
  · exact decodesBy_of_mem (r := ⟨"ori", _, _, _⟩) (List.mem_of_getElem? (i := 13) rfl)
  · exact decodesBy_of_mem (r := ⟨"nor", _, _, _⟩) (List.mem_of_getElem? (i := 14) rfl)
  · exact decodesBy_of_mem (r := ⟨"xor", _, _, _⟩) (List.mem_of_getElem? (i := 15) rfl)
  · exact decodesBy_of_mem (r := ⟨"lui", _, _, _⟩) (List.mem_of_getElem? (i := 32) rfl)
  · exact exists_wroteReg_bits fun _ _ => BitVec.getLsbD_and
  · exact exists_wroteReg_bits fun _ hk => getLsbD_and_zeroExtImm _ imm hk
  · exact exists_wroteReg_bits fun _ _ => BitVec.getLsbD_or
  · exact exists_wroteReg_bits fun _ hk => getLsbD_or_zeroExtImm _ imm hk
  · exact exists_wroteReg_bits fun _ hk => getLsbD_nor _ _ hk
  · exact exists_wroteReg_bits fun k _ => getLsbD_xor_eq_bne _ _ k
  · exact exists_wroteReg (upperImm_eq_ofNat imm)

/-- Settles O32: the three rows of the table, and each shift as a product or a quotient. -/
theorem shifts : Obligations.Shifts := by
  refine ⟨?_, ?_, ?_, fun rd rt shamt s => ⟨?_, ?_, ?_⟩⟩
  · exact decodesBy_of_mem (r := ⟨"sll", _, _, _⟩) (List.mem_of_getElem? (i := 16) rfl)
  · exact decodesBy_of_mem (r := ⟨"srl", _, _, _⟩) (List.mem_of_getElem? (i := 17) rfl)
  · exact decodesBy_of_mem (r := ⟨"sra", _, _, _⟩) (List.mem_of_getElem? (i := 18) rfl)
  · exact exists_wroteReg (shiftLeft_eq_ofNat _ _)
  · exact exists_wroteReg (ushiftRight_eq_ofNat _ _)
  · exact exists_wroteReg (sshiftRight_eq_ofInt _ _)

end Sys2Proof.Machine

/-! ReservedInstruction from an instruction's own meaning (R151, R243, R304 (b), (c)): the test of the form comes first,
and nothing after it raises that exception. -/

namespace Sys2Proof.Machine

/-! ### A reserved form raises ReservedInstruction -/

/-- An odd register for a double is refused before anything else (R243, R304 (b), R307). -/
theorem exec_of_illFormed {s : State} : ∀ {i : Instr}, i.wellFormed = false →
    exec i s = raise (.reservedInstruction (encode i)) s
  | .addD .., h | .subD .., h | .mulD .., h | .divD .., h | .cEqD .., h | .cLtD .., h | .cLeD .., h | .ldc1 .., h
  | .sdc1 .., h => if_neg (by simpa [Instr.wellFormed, ← Bool.and_assoc] using h)

/-- A branch or jump in a delay slot is refused (R151, R304 (c)). -/
theorem exec_of_transfer_inSlot {i : Instr} {s : State} (hi : isTransfer i = true) (hslot : ¬ NotInSlot s) :
    exec i s = raise (.reservedInstruction (encode i)) s := by
  rw [exec_of_isTransfer hi]
  rcases outsideDelaySlot_cases i s (.next (afterTransfer s i)) with ⟨hout, -⟩ | ⟨-, h⟩
  · exact absurd hout hslot
  · exact h

/-- The exception carries the instruction's own word, and nothing of the instruction happens (R303, R304; log 23). -/
theorem exec_of_reservedForm {i : Instr} {s : State} (h : ReservedForm s i) :
    exec i s = .fault (.reservedInstruction (encode i) s.pc (afterException s)) := by
  rcases h with hodd | ⟨hi, hslot⟩
  · exact exec_of_illFormed hodd
  · exact exec_of_transfer_inSlot hi hslot

/-! ### Every other form does not -/

/-- The run does not raise ReservedInstruction. -/
def Unreserved (run : Result) : Prop := ∀ w p t, run ≠ .fault (.reservedInstruction w p t)

section
variable {s : State}

theorem unreserved_next {t : State} : Unreserved (.next t) := fun _ _ _ h => nomatch h

theorem unreserved_overflow : Unreserved (raise .overflow s) := fun _ _ _ h => nomatch h

theorem unreserved_addressError {k : AccessKind} {a : Word} : Unreserved (raise (.addressError k a) s) :=
  fun _ _ _ h => nomatch h

theorem unreserved_uninitialisedRead {p : Piece} {pc : Word} : Unreserved (.fault (.uninitialisedRead p pc s)) :=
  fun _ _ _ h => nomatch h

theorem unreserved_ite {c : Bool} {run₁ run₂ : Result} (h₁ : Unreserved run₁) (h₂ : Unreserved run₂) :
    Unreserved (if c then run₁ else run₂) := by
  cases c
  · exact h₂
  · exact h₁

/-- A double whose registers are all even passes its test. -/
theorem unreserved_requireEven {i : Instr} {regs : List FReg} {run : Result} (heven : regs.all evenFReg = true)
    (h : Unreserved run) : Unreserved (requireEven i regs s run) := by
  rwa [requireEven, if_pos heven]

/-- A load completes, or ends in AddressError or UninitialisedRead (R170, R332). -/
theorem unreserved_load {α : Type} {n : Nat} {read : State → Word → Option α} {a : Word} {f : α → State} :
    Unreserved (load n read a s f) := by
  rcases load_cases n read a s f with ⟨v, -, -, e⟩ | ⟨-, e⟩ | ⟨-, -, e⟩ <;> rw [e]
  · exact unreserved_next
  · exact unreserved_addressError
  · exact unreserved_uninitialisedRead

/-- A store completes, or ends in AddressError (R170). -/
theorem unreserved_store {n : Nat} {a : Word} {written : State} : Unreserved (store n a s written) :=
  unreserved_ite unreserved_next unreserved_addressError

end

/-- The test of the form is the only part of a meaning that raises ReservedInstruction. -/
theorem exec_unreserved {i : Instr} {s : State} (h : ¬ ReservedForm s i) : Unreserved (exec i s) := by
  simp only [ReservedForm, not_or, Bool.not_eq_false, not_and, not_not] at h
  obtain ⟨heven, hslot⟩ := h
  cases i
  case beq | bne | j | jal | jr | bc1t | bc1f =>
    rw [(exec_transfer rfl (hslot rfl)).1]
    exact unreserved_next
  case addD | subD | mulD | divD | cEqD | cLtD | cLeD =>
    exact unreserved_requireEven (by simpa [Instr.wellFormed, and_assoc] using heven) unreserved_next
  case ldc1 => exact unreserved_requireEven (by simpa [Instr.wellFormed] using heven) unreserved_load
  case sdc1 => exact unreserved_requireEven (by simpa [Instr.wellFormed] using heven) unreserved_store
  case add | addi | sub => exact unreserved_ite unreserved_overflow unreserved_next
  case div | divu => exact unreserved_ite unreserved_next unreserved_next
  case lw | lbu | lb | lhu | lh | ll | lwc1 => exact unreserved_load
  case sw | sb | sh | sc | swc1 => exact unreserved_store
  all_goals exact unreserved_next

/-- Settles O14: a reserved form raises the exception with the word, `pc` and state that it fixes, and no other form
raises it. -/
theorem reservedInstructionRaisers : Obligations.ReservedInstructionRaisers := by
  intro i s w p t
  constructor
  · intro hexec
    have hform : ReservedForm s i := by_contra fun h => exec_unreserved h w p t hexec
    rw [exec_of_reservedForm hform] at hexec
    cases hexec
    exact ⟨hform, rfl, rfl, rfl⟩
  · rintro ⟨hform, rfl, rfl, rfl⟩
    exact exec_of_reservedForm hform

end Sys2Proof.Machine

/-! Loads and stores of general registers, ll and sc (43_load_store.md): the value read or the bytes stored, in either
byte order, and AddressError where the access is not permitted. -/

namespace Sys2Proof.Machine

/-! ### What any instruction that completes leaves unchanged -/

/-- The bytes an instruction stores: the address of the first, and how many. -/
def storedBy (s : State) (i : Instr) : Option (Word × Nat) :=
  match accessOf s i with
  | some ⟨.store, n, a⟩ => some (a, n)
  | _ => none

/-- The instruction writes the link (R34). -/
def writesLink : Instr → Bool
  | .ll _ _ _ | .sc _ _ _ => true
  | _ => false

/-- All that an instruction writes, collected from the writers of each kind of state. -/
def touchedBy (s : State) (i : Instr) : Touched where
  gprs := (gprDest i).toList
  fprs := fprDests i
  hiLo := writesHiLo i
  fpcond := isCompare i
  link := writesLink i
  stored := storedBy s i

theorem storesAt_touchedBy {s : State} {i : Instr} {a : Word} : (touchedBy s i).storesAt a ↔ storesTo s i a := by
  simp only [touchedBy, storedBy, Touched.storesAt, storesTo]
  rcases accessOf s i with _ | ⟨k, n, b⟩
  · rfl
  · cases k <;> rfl

/-- An instruction that completes changes nothing but what it writes. -/
theorem exec_frame {i : Instr} {s t : State} (h : exec i s = .next t) : Frame (touchedBy s i) s t where
  gprs r hr := gprWriters i s t r h (by simpa [touchedBy] using hr)
  fprs n hn := fprWriters i s t n h hn
  hiLo := (flagAndHiLoWriters i s t h).2
  fpcond := (flagAndHiLoWriters i s t h).1
  link hlink := by
    obtain ⟨haddr, hbit⟩ := linkWriters i s t h (by rintro rt imm rs rfl; exact Bool.noConfusion hlink)
    exact ⟨hbit (by rintro rt imm rs rfl; exact Bool.noConfusion hlink), haddr⟩
  control n := by
    obtain ⟨e, -, rfl⟩ := exec_eq_next h
    exact e.apply_eq (·.cr n) (fun w _ u => w.apply_cr u n) s
  bytes a ha := memoryWriters i s t a h (mt storesAt_touchedBy.2 ha)

/-- An instruction that is no branch or jump and completes goes on in sequence (R28, R151). -/
theorem exec_sequential {i : Instr} {s t : State} (hi : isTransfer i = false) (h : exec i s = .next t) :
    Sequential s t := by
  obtain ⟨u, hpc, hnpc, hparams, rfl⟩ := exec_goesOn hi s t h
  exact sequential_advance hpc hnpc hparams

/-! ### Permitted accesses, and others -/

theorem load_of_permitted {α : Type} {n : Nat} {read : State → Word → Option α} {a : Word} {s : State} {f : α → State}
    {v : α} (hok : Access.Permitted ⟨.load, n, a⟩ s) (hread : read s a = some v) :
    load n read a s f = .next (f v).advance := by
  rw [load, hread]
  exact if_pos ((Access.permitted_iff (a := ⟨.load, n, a⟩) nofun).1 hok)

theorem store_of_permitted {n : Nat} {a : Word} {s written : State} (hok : Access.Permitted ⟨.store, n, a⟩ s) :
    store n a s written = .next written.advance :=
  if_pos ((Access.permitted_iff (a := ⟨.store, n, a⟩) nofun).1 hok)

/-- An access that is not permitted raises AddressError, with its kind and address (R55, R305). -/
theorem exec_of_not_permitted {s : State} {i : Instr} {a : Access} (hform : i.wellFormed = true)
    (hacc : accessOf s i = some a) (hbad : ¬ a.Permitted s) :
    exec i s = .fault (.addressError a.kind a.addr s.pc (afterException s)) :=
  exec_eq_addressError hform hacc (by simpa [Access.permitted_iff (accessOf_kind_ne_fetch hacc)] using hbad)

/-- Where a store is permitted so is the load of any aligned part of it (R54, R61, R66). -/
theorem Access.Permitted.load_part {s : State} {a : Word} {n m k : Nat} (h : Access.Permitted ⟨.store, n, a⟩ s)
    (hn : n ∣ 2 ^ 32) (hmn : m ∣ n) (hmk : m ∣ k) (hm : 0 < m) (hk : k + m ≤ n) :
    Access.Permitted ⟨.load, m, a + BitVec.ofNat 32 k⟩ s := by
  obtain ⟨haligned, hbytes⟩ := h
  have haddr : (a + BitVec.ofNat 32 k).toNat = a.toNat + k := toNat_add_of_aligned hn haligned (by omega)
  refine ⟨?_, fun j hj => ⟨?_, nofun⟩⟩
  · rw [haddr]
    exact Nat.mod_eq_zero_of_dvd (Nat.dvd_add (hmn.trans (Nat.dvd_of_mod_eq_zero haligned)) hmk)
  · obtain ⟨hmapped, -⟩ := hbytes (k + j) (Nat.lt_of_lt_of_le (Nat.add_lt_add_left hj k) hk)
    simpa only [haddr, Nat.add_assoc] using hmapped

/-! ### Loads -/

/-- A permitted load of a value that can be read completes with `x[rt]` written, in the form that the claim gives. -/
theorem exists_wroteReg_load {α : Type} {n : Nat} {read : State → Word → Option α} {a : Word} {s : State} {rt : Reg}
    {f : α → Word} {v : α} {w : Word} (hok : Access.Permitted ⟨.load, n, a⟩ s) (hread : read s a = some v)
    (hw : f v = w) : ∃ t, load n read a s (fun v => s.setReg rt (f v)) = .next t ∧ WroteReg rt w s t := by
  rw [load_of_permitted hok hread]
  exact exists_wroteReg hw

/-- Settles O37: the word read is its four bytes joined (`State.wordAt_eq_some`), the order being the machine's. -/
theorem loadWord : Obligations.LoadWord := by
  refine ⟨?_, fun rt rs imm s => ⟨fun hok b0 b1 b2 b3 h0 h1 h2 h3 => ?_, exec_of_not_permitted rfl rfl⟩⟩
  · exact decodesBy_of_mem (r := ⟨"lw", _, _, _⟩) (List.mem_of_getElem? (i := 24) rfl)
  · obtain ⟨t, hexec, hwrote⟩ := exists_wroteReg_load (rt := rt) (f := id) hok
      (State.wordAt_eq_some.2 ⟨b0, b1, b2, b3, h0, h1, h2, h3, rfl⟩) rfl
    refine ⟨t, hexec, fun horder => ?_, fun horder => ?_⟩ <;>
    · rw [horder] at hwrote
      exact hwrote

/-- Settles O38: the rows of the table, and the two extensions of the byte read as numbers. -/
theorem loadBytes : Obligations.LoadBytes := by
  refine ⟨?_, ?_, fun rt rs imm s => ⟨fun hok b hb => ⟨?_, ?_⟩, fun hbad => ⟨?_, ?_⟩⟩⟩
  · exact decodesBy_of_mem (r := ⟨"lbu", _, _, _⟩) (List.mem_of_getElem? (i := 25) rfl)
  · exact decodesBy_of_mem (r := ⟨"lb", _, _, _⟩) (List.mem_of_getElem? (i := 26) rfl)
  · exact exists_wroteReg_load hok hb (BitVec.ofNat_toNat 32 b).symm
  · exact exists_wroteReg_load hok hb rfl
  · exact exec_of_not_permitted rfl rfl hbad
  · exact exec_of_not_permitted rfl rfl hbad

/-- Settles O39: the halfword read is its two bytes joined (`State.halfAt_eq_some`), and then extended as a number. -/
theorem loadHalfwords : Obligations.LoadHalfwords := by
  refine ⟨?_, ?_, fun rt rs imm s => ⟨fun hok b0 b1 h0 h1 => ?_, fun hbad => ⟨?_, ?_⟩⟩⟩
  · exact decodesBy_of_mem (r := ⟨"lhu", _, _, _⟩) (List.mem_of_getElem? (i := 27) rfl)
  · exact decodesBy_of_mem (r := ⟨"lh", _, _, _⟩) (List.mem_of_getElem? (i := 28) rfl)
  · have hread := State.halfAt_eq_some.2 ⟨b0, b1, h0, h1, rfl⟩
    refine ⟨joinHalf s.params.byteOrder b0 b1, fun horder => by rw [horder]; rfl, fun horder => by rw [horder]; rfl,
      ?_, ?_⟩
    · exact exists_wroteReg_load hok hread (BitVec.ofNat_toNat 32 _).symm
    · exact exists_wroteReg_load hok hread rfl
  · exact exec_of_not_permitted rfl rfl hbad
  · exact exec_of_not_permitted rfl rfl hbad

/-- Settles O42: a load of a word, then the pair is opened; the rest is the frame of an instruction that completes. -/
theorem loadLinked : Obligations.LoadLinked := by
  refine ⟨?_, fun rt rs imm s => ⟨fun hok v hv => ?_, exec_of_not_permitted rfl rfl⟩⟩
  · exact decodesBy_of_mem (r := ⟨"ll", _, _, _⟩) (List.mem_of_getElem? (i := 33) rfl)
  · have hexec : exec (.ll rt imm rs) s = .next ((s.setReg rt v).setLink (s.effAddr rs imm)).advance :=
      load_of_permitted hok hv
    exact ⟨_, hexec, s.reg_setReg_same rt v, rfl, rfl, exec_frame hexec, exec_sequential rfl hexec⟩

/-! ### Stores -/

/-- The byte at each place of a stored value is a slice of it (R52). -/
theorem laneByte_eq_extractLsb' (o : ByteOrder) (n : Nat) {m : Nat} (v : BitVec m) (k : Nat) :
    laneByte o n v k = v.extractLsb' (8 * laneIndex o n k) 8 := by
  cases o <;> rfl

theorem laneIndex_lt {o : ByteOrder} {n k : Nat} (hk : k < n) : laneIndex o n k < n := by
  cases o <;> simp only [laneIndex] <;> omega

/-- Settles O40: the stored bytes are slices of the register; the rest is the frame of an instruction that completes. -/
theorem stores : Obligations.Stores := by
  refine ⟨?_, ?_, ?_, fun rt rs imm s => ⟨fun hok => ?_, exec_of_not_permitted rfl rfl, fun hok => ?_,
    exec_of_not_permitted rfl rfl, fun hok => ?_, exec_of_not_permitted rfl rfl⟩⟩
  · exact decodesBy_of_mem (r := ⟨"sw", _, _, _⟩) (List.mem_of_getElem? (i := 29) rfl)
  · exact decodesBy_of_mem (r := ⟨"sb", _, _, _⟩) (List.mem_of_getElem? (i := 30) rfl)
  · exact decodesBy_of_mem (r := ⟨"sh", _, _, _⟩) (List.mem_of_getElem? (i := 31) rfl)
  · have hexec : exec (.sw rt imm rs) s = .next (s.setWord (s.effAddr rs imm) (s.reg rt)).advance :=
      store_of_permitted hok
    refine ⟨_, hexec, fun k hk => ?_, exec_frame hexec, exec_sequential rfl hexec⟩
    rw [State.advance_byteAt, State.byteAt_setWord _ _ _ hk, laneByte_eq_extractLsb']
  · have hexec : exec (.sb rt imm rs) s = .next (s.setByte (s.effAddr rs imm) ((s.reg rt).setWidth 8)).advance :=
      store_of_permitted hok
    refine ⟨_, hexec, fun k hk => ?_, exec_frame hexec, exec_sequential rfl hexec⟩
    obtain rfl : k = 0 := by omega
    rw [State.advance_byteAt, BitVec.add_zero, State.byteAt_setByte_same, BitVec.setWidth_eq_extractLsb' (by decide)]
  · have hexec : exec (.sh rt imm rs) s = .next (s.setHalf (s.effAddr rs imm) ((s.reg rt).setWidth 16)).advance :=
      store_of_permitted hok
    refine ⟨_, hexec, fun k hk => ?_, exec_frame hexec, exec_sequential rfl hexec⟩
    have hlane : laneIndex s.params.byteOrder 2 k < 2 := laneIndex_lt hk
    rw [State.advance_byteAt, State.byteAt_setHalf _ _ _ hk, laneByte_eq_extractLsb',
      BitVec.extractLsb'_setWidth_of_le (by omega)]

/-! ### A word stored, then loaded (R182) -/

/-- Under the little byte order the bytes of a stored word read back one by one (R182 (b)). -/
theorem State.byteAt_setWord_little {s : State} (horder : s.params.byteOrder = .little) (a v : Word) {k : Nat}
    (hk : k < 4) : (s.setWord a v).byteAt (a + BitVec.ofNat 32 k) = some (v.extractLsb' (8 * k) 8) := by
  rw [s.byteAt_setWord a v hk, horder]
  rfl

/-- Under the little byte order so do its halves, and any two bytes next to each other (R182 (b)). -/
theorem State.halfAt_setWord_little {s : State} (horder : s.params.byteOrder = .little) (a v : Word) {k : Nat}
    (hk : k + 1 < 4) : (s.setWord a v).halfAt (a + BitVec.ofNat 32 k) = some (v.extractLsb' (8 * k) 16) := by
  have hnext : a + BitVec.ofNat 32 k + 1#32 = a + BitVec.ofNat 32 (k + 1) := by
    rw [BitVec.add_assoc, BitVec.ofNat_add]
  refine State.halfAt_eq_some.2 ⟨_, _, s.byteAt_setWord_little horder a v (Nat.lt_of_succ_lt hk),
    hnext ▸ s.byteAt_setWord_little horder a v hk, ?_⟩
  rw [State.setWord_params, horder]
  exact (BitVec.extractLsb'_append_extractLsb'_eq_extractLsb' (Nat.mul_succ 8 k)).symm

@[simp] theorem State.advance_halfAt (s : State) (q : Word) : s.advance.halfAt q = s.halfAt q := rfl
@[simp] theorem State.advance_wordAt (s : State) (q : Word) : s.advance.wordAt q = s.wordAt q := rfl

/-- Whether an access is permitted depends on the map alone. -/
theorem Access.Permitted.congr {c : Access} {s t : State} (h : c.Permitted s) (hmap : t.map = s.map) : c.Permitted t := by
  unfold Access.Permitted
  rwa [hmap]

/-- A permitted load through any register and immediate that give its address leaves the value in `x[rd]`. -/
theorem exists_reg_load {α : Type} {n : Nat} {read : State → Word → Option α} {a b : Word} {s : State} {rd : Reg}
    {f : α → Word} {v : α} (haddr : b = a) (hok : Access.Permitted ⟨.load, n, a⟩ s) (hread : read s a = some v) :
    ∃ u, load n read b s (fun v => s.setReg rd (f v)) = .next u ∧ u.reg rd = afterWrite rd (f v) := by
  subst haddr
  exact (exists_wroteReg_load hok hread rfl).imp fun _ ⟨hexec, hwrote⟩ => ⟨hexec, hwrote.value⟩

/-- Settles O41: the load of any part of the word is permitted where its store was, and reads what was stored; the store
leaves `x[rs]`, so that the addresses are as they were. -/
theorem storeThenLoad : Obligations.StoreThenLoad := by
  intro rt rs rd imm s hok
  have hpart : ∀ m k, m ∣ 4 → m ∣ k → 0 < m → k + m ≤ 4 →
      Access.Permitted ⟨.load, m, s.effAddr rs imm + BitVec.ofNat 32 k⟩
        (s.setWord (s.effAddr rs imm) (s.reg rt)).advance :=
    fun m k hm hmk hpos hk => (hok.load_part (by decide) hm hmk hpos hk).congr (by simp)
  refine ⟨_, store_of_permitted hok, ?_, fun horder k imm' hk haddr => ⟨?_, fun heven => ?_⟩⟩
  · have hword := hpart 4 0 (by decide) (by decide) (by decide) (by decide)
    rw [BitVec.add_zero] at hword
    exact exists_reg_load (f := id) rfl hword ((State.advance_wordAt _ _).trans (s.wordAt_setWord _ _))
  · exact exists_reg_load haddr (hpart 1 k (by decide) (Nat.one_dvd k) (by decide) hk)
      ((State.advance_byteAt _ _).trans (s.byteAt_setWord_little horder _ _ hk))
  · have hhalf : k + 2 ≤ 4 := by omega
    exact exists_reg_load haddr (hpart 2 k (by decide) (Nat.dvd_of_mod_eq_zero heven) (by decide) hhalf)
      ((State.advance_halfAt _ _).trans (s.halfAt_setWord_little horder _ _ hhalf))

/-! ### sc (R181) -/

/-- The state in which an sc ends whose address passes the checks: its data stored where it succeeds, then the flag, the
link and the draw (R181; log 13). -/
def afterSc (rt : Reg) (a : Word) (ok : Bool) (s : State) : State :=
  ((((if ok then s.setWord a (s.reg rt) else s).setReg rt (boolWord ok)).clearLink).drew
    (if s.params.scMayFailSpuriously then 1 else 0)).advance

section
variable (rt : Reg) (a : Word) (ok : Bool) (s : State)

theorem afterSc_reg : (afterSc rt a ok s).reg rt = afterWrite rt (if ok then 1#32 else 0#32) :=
  State.reg_setReg_same _ rt (boolWord ok)

theorem afterSc_lladdr : (afterSc rt a ok s).lladdr = s.lladdr := by
  cases ok <;> rfl

end

theorem State.scSucceeds_eq_false {s : State} {a : Word} (h : s.llbit = false ∨ s.lladdr ≠ a) :
    s.scSucceeds a = false := by
  rcases h with h | h <;> simp [State.scSucceeds, h]

theorem State.scSucceeds_eq_true {s : State} {a : Word} (hbit : s.llbit = true) (haddr : s.lladdr = a)
    (hsure : s.params.scMayFailSpuriously = false) : s.scSucceeds a = true := by
  simp [State.scSucceeds, State.scSpurious, hbit, haddr, hsure]

/-- Settles O43: the outcome is `State.scSucceeds`; where it fails memory is untouched, so that the frame names no store. -/
theorem storeConditional : Obligations.StoreConditional := by
  refine ⟨?_, fun rt rs imm s => ⟨fun hok => ?_, exec_of_not_permitted rfl rfl⟩⟩
  · exact decodesBy_of_mem (r := ⟨"sc", _, _, _⟩) (List.mem_of_getElem? (i := 34) rfl)
  set a := s.effAddr rs imm
  have hexec : exec (.sc rt imm rs) s = .next (afterSc rt a (s.scSucceeds a) s) := store_of_permitted hok
  have hframe := exec_frame hexec
  refine ⟨_, s.scSucceeds a, hexec, State.scSucceeds_eq_false, State.scSucceeds_eq_true, afterSc_reg .., rfl,
    afterSc_lladdr .., exec_sequential rfl hexec, fun hsuccess => ⟨fun k hk => ?_, hframe⟩, fun hfailure => ?_⟩
  · rw [hsuccess, ← laneByte_eq_extractLsb']
    exact s.byteAt_setWord a (s.reg rt) hk
  · refine { hframe with bytes := fun b _ => ?_ }
    rw [hfailure]
    rfl

end Sys2Proof.Machine

/-! Multiply and divide, and the moves from hi and lo (44_multiply_divide.md): exact products, truncated quotients with
their remainders, and free values where a division is open. -/

namespace Sys2Proof.Machine

/-! ### Instructions that write hi and lo -/

/-- The write of `hi` and `lo`, with the draws that an open division takes, and on to the next instruction. -/
theorem wroteHiLo_setHiLo_drew_advance (s : State) (hi lo : Word) (n : Nat) :
    WroteHiLo hi lo s ((s.setHiLo hi lo).drew n).advance where
  hi_value := rfl
  lo_value := rfl
  frame :=
    { gprs := fun _ _ => rfl
      fprs := fun _ _ => rfl
      hiLo := nofun
      fpcond := fun _ => rfl
      link := fun _ => ⟨rfl, rfl⟩
      control := fun _ => rfl
      bytes := fun _ _ => rfl }
  sequential := sequential_advance rfl rfl rfl

/-- A multiplication completes with its product in `hi` and `lo`, which a reading `f` of the product gives as `z`. -/
theorem exists_wroteHiLo_product {α : Type} {s : State} {p : DWord} {f : DWord → α} {z : α} (h : f p = z) :
    ∃ (t : State) (hi lo : Word), (.next (s.setProduct p).advance : Result) = .next t ∧ WroteHiLo hi lo s t ∧
      f (hi ++ lo) = z := by
  have happend : p.extractLsb' 32 32 ++ p.extractLsb' 0 32 = p :=
    (BitVec.extractLsb'_append_extractLsb'_eq_extractLsb' rfl).trans BitVec.extractLsb'_eq_self
  exact ⟨_, _, _, rfl, wroteHiLo_setHiLo_drew_advance s _ _ 0, (congrArg f happend).trans h⟩

/-- A division completes either way: what holds of any values where it is open, and of remainder and quotient where it is
not, holds of what it leaves in `hi` and `lo`. -/
theorem exists_wroteHiLo_divide {s : State} {c : Bool} {rem quot : Word} {P : Word → Word → Prop}
    (hopen : c = true → ∀ hi lo, P hi lo) (hclosed : ¬ c = true → P rem quot) :
    ∃ (t : State) (hi lo : Word),
      (if c then .next s.setHiLoOpen.advance else .next (s.setHiLo rem quot).advance : Result) = .next t ∧
        WroteHiLo hi lo s t ∧ P hi lo := by
  split
  · next hc => exact ⟨_, _, _, rfl, wroteHiLo_setHiLo_drew_advance s _ _ 2, hopen hc _ _⟩
  · next hc => exact ⟨_, _, _, rfl, wroteHiLo_setHiLo_drew_advance s _ _ 0, hclosed hc⟩

/-! ### Products as numbers: 64 bits hold each of them -/

theorem toInt_product (a b : Word) : (BitVec.ofInt 64 (a.toInt * b.toInt)).toInt = a.toInt * b.toInt :=
  BitVec.toInt_ofInt_eq_self (by decide) (le_trans (by decide) BitVec.le_toInt_mul_toInt)
    (lt_of_le_of_lt BitVec.toInt_mul_toInt_le (by decide))

theorem toNat_product (a b : Word) : (BitVec.ofNat 64 (a.toNat * b.toNat)).toNat = a.toNat * b.toNat := by
  have hlt : a.toNat * b.toNat < 2 ^ 32 * 2 ^ 32 := Nat.mul_lt_mul'' a.isLt b.isLt
  rw [BitVec.toNat_ofNat]
  exact Nat.mod_eq_of_lt hlt

/-! ### Quotients and remainders as numbers -/

theorem divOpen_iff {a b : Word} : divOpen a b = true ↔ b.toInt = 0 ∨ a.toInt = -2 ^ 31 ∧ b.toInt = -1 := by
  simp [divOpen]

/-- The quotient is the library's signed division, which wraps around at -2^31 by -1 alone. -/
theorem toInt_quotient {a b : Word} (h : ¬ (a.toInt = -2 ^ 31 ∧ b.toInt = -1)) :
    (BitVec.ofInt 32 (a.toInt.tdiv b.toInt)).toInt = a.toInt.tdiv b.toInt := by
  have hne : a ≠ BitVec.intMin 32 ∨ b ≠ -1#32 := by
    by_contra! heq
    obtain ⟨rfl, rfl⟩ := heq
    exact h (by decide)
  rw [BitVec.toInt_ofInt, ← BitVec.toInt_sdiv, BitVec.toInt_sdiv_of_ne_or_ne a b hne]

theorem toInt_remainder (a b : Word) : (BitVec.ofInt 32 (a.toInt.tmod b.toInt)).toInt = a.toInt.tmod b.toInt := by
  rw [← BitVec.toInt_srem, BitVec.ofInt_toInt]

/-- A remainder that is not zero has the sign of the dividend (R207). -/
theorem tmod_eq_zero_or_neg_iff (a b : Int) : a.tmod b = 0 ∨ (a.tmod b < 0 ↔ a < 0) := by
  by_cases hdvd : b ∣ a
  · exact .inl (Int.tmod_eq_zero_of_dvd hdvd)
  · have hsign : (a.tmod b).sign = a.sign := by rw [Int.sign_tmod, if_neg hdvd]
    exact .inr (by rw [← Int.sign_eq_neg_one_iff_neg, hsign, Int.sign_eq_neg_one_iff_neg])

theorem natAbs_tmod_lt (a : Int) {b : Int} (hb : b ≠ 0) : (a.tmod b).natAbs < b.natAbs := by
  rw [Int.natAbs_tmod]
  exact Nat.mod_lt _ (Int.natAbs_pos.2 hb)

theorem toNat_quotient (a b : Word) : (BitVec.ofNat 32 (a.toNat / b.toNat)).toNat = a.toNat / b.toNat := by
  rw [← BitVec.toNat_udiv, BitVec.ofNat_toNat, BitVec.setWidth_eq]

theorem toNat_remainder (a b : Word) : (BitVec.ofNat 32 (a.toNat % b.toNat)).toNat = a.toNat % b.toNat := by
  rw [← BitVec.toNat_umod, BitVec.ofNat_toNat, BitVec.setWidth_eq]

/-! ### The instructions -/

/-- Settles O44: the two rows of the table, and the product whose halves are put together again. -/
theorem multiply : Obligations.Multiply := by
  refine ⟨?_, ?_, fun rs rt s => ⟨?_, ?_⟩⟩
  · exact decodesBy_of_mem (r := ⟨"mult", _, _, _⟩) (List.mem_of_getElem? (i := 35) rfl)
  · exact decodesBy_of_mem (r := ⟨"multu", _, _, _⟩) (List.mem_of_getElem? (i := 36) rfl)
  · exact exists_wroteHiLo_product (toInt_product _ _)
  · exact exists_wroteHiLo_product (toNat_product _ _)

/-- Settles O45: the claim excludes exactly the divisions that are open (`divOpen_iff`), and of any other it holds by the
library's facts about the truncated quotient. -/
theorem divideSigned : Obligations.DivideSigned := by
  refine ⟨?_, fun rs rt s => exists_wroteHiLo_divide (fun hopen hi lo hzero hcorner => ?_)
    fun _ hzero hcorner => ⟨?_, ?_, ?_⟩⟩
  · exact decodesBy_of_mem (r := ⟨"div", _, _, _⟩) (List.mem_of_getElem? (i := 37) rfl)
  · exact absurd (divOpen_iff.1 hopen) (not_or_intro hzero hcorner)
  · rw [toInt_quotient hcorner, toInt_remainder, Int.tdiv_mul_add_tmod]
  · rw [toInt_remainder]
    exact natAbs_tmod_lt _ hzero
  · rw [toInt_remainder]
    exact tmod_eq_zero_or_neg_iff _ _

/-- Settles O46: a division by zero is the one that is open. -/
theorem divideUnsigned : Obligations.DivideUnsigned := by
  refine ⟨?_, fun rs rt s => exists_wroteHiLo_divide (fun hopen hi lo hzero => ?_)
    fun _ _ => ⟨toNat_quotient _ _, toNat_remainder _ _⟩⟩
  · exact decodesBy_of_mem (r := ⟨"divu", _, _, _⟩) (List.mem_of_getElem? (i := 38) rfl)
  · exact absurd (eq_of_beq hopen) hzero

/-- Settles O47: the two rows of the table, and one write of a register each. -/
theorem moveFromHiLo : Obligations.MoveFromHiLo := by
  refine ⟨?_, ?_, fun rd s => ⟨?_, ?_⟩⟩
  · exact decodesBy_of_mem (r := ⟨"mfhi", _, _, _⟩) (List.mem_of_getElem? (i := 39) rfl)
  · exact decodesBy_of_mem (r := ⟨"mflo", _, _, _⟩) (List.mem_of_getElem? (i := 40) rfl)
  · exact exists_wroteReg rfl
  · exact exists_wroteReg rfl

end Sys2Proof.Machine

/-! Floating point (45_floating_point.md): each operation on registers and pairs of registers with FP_NUMERICS left as the
parameter it is, the copies between registers and memory, and comparisons with a NaN under IEEE 754 (log 14). -/

namespace Sys2Proof.Machine

/-! ### Pairs of registers (R243) -/

theorem evenFReg_iff {n : FReg} : evenFReg n = true ↔ n.toNat % 2 = 0 := by
  rw [evenFReg, Bool.not_eq_true', BitVec.getLsbD, Nat.testBit_zero, decide_eq_false_iff_not]
  exact Nat.mod_two_ne_one

theorem evenFReg_eq_false_iff {n : FReg} : evenFReg n = false ↔ n.toNat % 2 = 1 := by
  rw [← Bool.not_eq_true, evenFReg_iff]
  exact Nat.mod_two_ne_zero

/-- A double whose registers are all even passes the test of its form. -/
theorem requireEven_of_even {i : Instr} {regs : List FReg} {s : State} {body : Result}
    (heven : ∀ n ∈ regs, n.toNat % 2 = 0) : requireEven i regs s body = body :=
  if_pos (List.all_eq_true.2 fun n hn => evenFReg_iff.2 (heven n hn))

theorem State.dbl_of_firstIsHigh {s : State} (horder : s.params.fpPairOrder = .firstIsHigh) (n : FReg) :
    s.dbl n = s.fpr n ++ s.fpr (n + 1#5) := by
  rw [State.dbl, horder]

theorem State.dbl_of_firstIsLow {s : State} (horder : s.params.fpPairOrder = .firstIsLow) (n : FReg) :
    s.dbl n = s.fpr (n + 1#5) ++ s.fpr n := by
  rw [State.dbl, horder]

/-- Two words read as values when each does (R57, R240). -/
theorem State.wordPairAt_of_wordAt {s : State} {a w0 w1 : Word} (h0 : s.wordAt a = some w0)
    (h1 : s.wordAt (a + 4#32) = some w1) : s.wordPairAt a = some (w0, w1) := by
  rw [State.wordPairAt, h0, h1]

/-! ### Instructions that write a floating-point register, a pair, or the condition

The value is that of the write; the rest is the frame of an instruction that completes. -/

section
variable {i : Instr} {s : State} {n : FReg}

theorem exists_wroteFpr {v : Word} (htouched : touchedBy s i = { fprs := [n] })
    (hexec : exec i s = .next (s.setFpr n v).advance) : ∃ t, exec i s = .next t ∧ WroteFpr n v s t :=
  ⟨_, hexec, s.fpr_setFpr_same n v, htouched ▸ exec_frame hexec, sequential_advance rfl rfl rfl⟩

theorem exists_wrotePair {v0 v1 : Word} (htouched : touchedBy s i = { fprs := [n, n + 1#5] })
    (hexec : exec i s = .next ((s.setFpr n v0).setFpr (n + 1#5) v1).advance) :
    ∃ t, exec i s = .next t ∧ WrotePair n v0 v1 s t := by
  refine ⟨_, hexec, ?_, State.fpr_setFpr_same _ _ v1, htouched ▸ exec_frame hexec, sequential_advance rfl rfl rfl⟩
  exact (State.fpr_setFpr_ne _ v1 (freg_ne_next n)).trans (s.fpr_setFpr_same n v0)

theorem exists_wroteDouble {v : DWord} (htouched : touchedBy s i = { fprs := [n, n + 1#5] })
    (hexec : exec i s = .next (s.setDbl n v).advance) : ∃ t, exec i s = .next t ∧ WroteDouble n v s t :=
  ⟨_, hexec, s.dbl_setDbl n v, htouched ▸ exec_frame hexec, sequential_advance rfl rfl rfl⟩

theorem exists_wroteFlag {b : Bool} (htouched : touchedBy s i = { fpcond := true })
    (hexec : exec i s = .next (s.setFpcond b).advance) : ∃ t, exec i s = .next t ∧ WroteFlag b s t :=
  ⟨_, hexec, rfl, htouched ▸ exec_frame hexec, sequential_advance rfl rfl rfl⟩

end

/-! ### Arithmetic -/

/-- Settles O48: the four rows of the table, and one write of a register each. -/
theorem singleArithmetic : Obligations.SingleArithmetic := by
  refine ⟨?_, ?_, ?_, ?_, fun fd fs ft s => ⟨?_, ?_, ?_, ?_⟩⟩
  · exact decodesBy_of_mem (r := ⟨"add.s", _, _, _⟩) (List.mem_of_getElem? (i := 41) rfl)
  · exact decodesBy_of_mem (r := ⟨"sub.s", _, _, _⟩) (List.mem_of_getElem? (i := 43) rfl)
  · exact decodesBy_of_mem (r := ⟨"mul.s", _, _, _⟩) (List.mem_of_getElem? (i := 45) rfl)
  · exact decodesBy_of_mem (r := ⟨"div.s", _, _, _⟩) (List.mem_of_getElem? (i := 47) rfl)
  · exact exists_wroteFpr rfl rfl
  · exact exists_wroteFpr rfl rfl
  · exact exists_wroteFpr rfl rfl
  · exact exists_wroteFpr rfl rfl

/-- Settles O49: the four rows of the table; even registers pass the test of the form, so that the pair is written, and an
odd one makes the form reserved. -/
theorem doubleArithmetic : Obligations.DoubleArithmetic := by
  refine ⟨?_, ?_, ?_, ?_, fun s n => ⟨fun h => s.dbl_of_firstIsHigh h n, fun h => s.dbl_of_firstIsLow h n⟩,
    fun fd fs ft s => ⟨fun hd hs ht => ?_, fun hodd => ?_⟩⟩
  · exact decodesBy_of_mem (r := ⟨"add.d", _, _, _⟩) (List.mem_of_getElem? (i := 42) rfl)
  · exact decodesBy_of_mem (r := ⟨"sub.d", _, _, _⟩) (List.mem_of_getElem? (i := 44) rfl)
  · exact decodesBy_of_mem (r := ⟨"mul.d", _, _, _⟩) (List.mem_of_getElem? (i := 46) rfl)
  · exact decodesBy_of_mem (r := ⟨"div.d", _, _, _⟩) (List.mem_of_getElem? (i := 48) rfl)
  · have heven : ∀ n ∈ [fd, fs, ft], n.toNat % 2 = 0 := by simp [hd, hs, ht]
    exact ⟨exists_wroteDouble rfl (requireEven_of_even heven), exists_wroteDouble rfl (requireEven_of_even heven),
      exists_wroteDouble rfl (requireEven_of_even heven), exists_wroteDouble rfl (requireEven_of_even heven)⟩
  · have hform : (evenFReg fd && evenFReg fs && evenFReg ft) = false := by
      simpa only [Bool.and_eq_false_iff, evenFReg_eq_false_iff, or_assoc] using hodd
    exact ⟨exec_of_reservedForm (.inl hform), exec_of_reservedForm (.inl hform), exec_of_reservedForm (.inl hform),
      exec_of_reservedForm (.inl hform)⟩

/-! ### Compares -/

/-- Settles O50: the three rows of the table, and one write of the condition each. -/
theorem singleCompares : Obligations.SingleCompares := by
  refine ⟨?_, ?_, ?_, fun fs ft s => ⟨?_, ?_, ?_⟩⟩
  · exact decodesBy_of_mem (r := ⟨"c.eq.s", _, _, _⟩) (List.mem_of_getElem? (i := 49) rfl)
  · exact decodesBy_of_mem (r := ⟨"c.lt.s", _, _, _⟩) (List.mem_of_getElem? (i := 50) rfl)
  · exact decodesBy_of_mem (r := ⟨"c.le.s", _, _, _⟩) (List.mem_of_getElem? (i := 51) rfl)
  · exact exists_wroteFlag rfl rfl
  · exact exists_wroteFlag rfl rfl
  · exact exists_wroteFlag rfl rfl

/-- Settles O51: the three rows of the table; even registers pass the test of the form, so that the condition is written,
and an odd one makes the form reserved. -/
theorem doubleCompares : Obligations.DoubleCompares := by
  refine ⟨?_, ?_, ?_, fun fs ft s => ⟨fun hs ht => ?_, fun hodd => ?_⟩⟩
  · exact decodesBy_of_mem (r := ⟨"c.eq.d", _, _, _⟩) (List.mem_of_getElem? (i := 52) rfl)
  · exact decodesBy_of_mem (r := ⟨"c.lt.d", _, _, _⟩) (List.mem_of_getElem? (i := 53) rfl)
  · exact decodesBy_of_mem (r := ⟨"c.le.d", _, _, _⟩) (List.mem_of_getElem? (i := 54) rfl)
  · have heven : ∀ n ∈ [fs, ft], n.toNat % 2 = 0 := by simp [hs, ht]
    exact ⟨exists_wroteFlag rfl (requireEven_of_even heven), exists_wroteFlag rfl (requireEven_of_even heven),
      exists_wroteFlag rfl (requireEven_of_even heven)⟩
  · have hform : (evenFReg fs && evenFReg ft) = false := by
      simpa only [Bool.and_eq_false_iff, evenFReg_eq_false_iff] using hodd
    exact ⟨exec_of_reservedForm (.inl hform), exec_of_reservedForm (.inl hform), exec_of_reservedForm (.inl hform)⟩

/-! ### Comparisons with a NaN under IEEE 754 (R222; log 14) -/

/-- The pattern is a NaN's: its exponent field is all ones and its fraction field is not zero. -/
def Ieee.Format.IsNaN (F : Ieee.Format) {n : Nat} (a : BitVec n) : Prop :=
  a.extractLsb' F.fracBits F.expBits = BitVec.allOnes F.expBits ∧ a.extractLsb' 0 F.fracBits ≠ 0#F.fracBits

theorem Ieee.Format.IsNaN.unpack_eq {F : Ieee.Format} {n : Nat} {a : BitVec n} (h : F.IsNaN a) :
    F.unpack a.toNat = .nan := by
  obtain ⟨hexp, hfrac⟩ := h
  have hexp' : a.toNat / 2 ^ F.fracBits % 2 ^ F.expBits = 2 ^ F.expBits - 1 := by
    rw [← Nat.shiftRight_eq_div_pow, ← BitVec.extractLsb'_toNat, hexp, BitVec.toNat_allOnes]
  have hfrac' : a.toNat % 2 ^ F.fracBits ≠ 0 := by
    rw [← Nat.shiftRight_zero (n := a.toNat), ← BitVec.extractLsb'_toNat]
    exact fun hzero => hfrac (BitVec.eq_of_toNat_eq (hzero.trans BitVec.toNat_zero.symm))
  rw [Ieee.Format.unpack, if_pos hexp', if_neg hfrac']

/-- A comparison with a NaN is false, in either format. -/
theorem Ieee.Format.compare_of_isNaN {F : Ieee.Format} {n : Nat} (c : FpCmp) {a b : BitVec n}
    (h : F.IsNaN a ∨ F.IsNaN b) : F.compare c a.toNat b.toNat = false :=
  if_pos (h.imp IsNaN.unpack_eq IsNaN.unpack_eq)

/-- Settles O52: the fields of the claim are those of the two formats. -/
theorem nanComparesFalse : Obligations.NanComparesFalse :=
  ⟨fun c _ _ h => Ieee.binary32.compare_of_isNaN c h, fun c _ _ h => Ieee.binary64.compare_of_isNaN c h⟩

/-! ### Loads and stores -/

/-- Settles O53: a load writes one register with the word read, and the stored bytes are slices of the register. -/
theorem loadStoreSingle : Obligations.LoadStoreSingle := by
  refine ⟨?_, ?_, fun ft rs imm s => ⟨fun hok v hv => ?_, exec_of_not_permitted rfl rfl, fun hok => ?_,
    exec_of_not_permitted rfl rfl⟩⟩
  · exact decodesBy_of_mem (r := ⟨"lwc1", _, _, _⟩) (List.mem_of_getElem? (i := 57) rfl)
  · exact decodesBy_of_mem (r := ⟨"swc1", _, _, _⟩) (List.mem_of_getElem? (i := 59) rfl)
  · exact exists_wroteFpr rfl (load_of_permitted hok hv)
  · have hexec : exec (.swc1 ft imm rs) s = .next (s.setWord (s.effAddr rs imm) (s.fpr ft)).advance :=
      store_of_permitted hok
    refine ⟨_, hexec, fun k hk => ?_, exec_frame hexec, exec_sequential rfl hexec⟩
    rw [State.advance_byteAt, State.byteAt_setWord _ _ _ hk, laneByte_eq_extractLsb']

/-- The state in which an sdc1 ends whose form and address pass their tests (R242). -/
def afterSdc1 (ft : FReg) (a : Word) (s : State) : State :=
  ((s.setWord a (s.fpr ft)).setWord (a + 4#32) (s.fpr (ft + 1#5))).advance

/-- The store of the second word leaves the first, which shares no byte with it. -/
theorem afterSdc1_wordAt_first (ft : FReg) (a : Word) (s : State) : (afterSdc1 ft a s).wordAt a = some (s.fpr ft) := by
  rw [afterSdc1, State.advance_wordAt, State.wordAt_setWord_ne _ a _ (d := 4) (by decide) (by decide),
    State.wordAt_setWord]

theorem afterSdc1_wordAt_second (ft : FReg) (a : Word) (s : State) :
    (afterSdc1 ft a s).wordAt (a + 4#32) = some (s.fpr (ft + 1#5)) := by
  rw [afterSdc1, State.advance_wordAt, State.wordAt_setWord]

/-- Settles O54: an odd register makes the form reserved; an even one passes its test, and then the access is checked as a
whole before its two words are read or stored. -/
theorem loadStoreDouble : Obligations.LoadStoreDouble := by
  refine ⟨?_, ?_, fun ft rs imm s => ⟨fun heven hok w0 w1 h0 h1 => ?_, fun heven => ?_, fun heven hok => ?_,
    fun heven => ?_, fun hodd => ?_⟩⟩
  · exact decodesBy_of_mem (r := ⟨"ldc1", _, _, _⟩) (List.mem_of_getElem? (i := 58) rfl)
  · exact decodesBy_of_mem (r := ⟨"sdc1", _, _, _⟩) (List.mem_of_getElem? (i := 60) rfl)
  · have hload := load_of_permitted (f := fun v => (s.setFpr ft v.1).setFpr (ft + 1#5) v.2) hok
      (s.wordPairAt_of_wordAt h0 h1)
    exact exists_wrotePair rfl ((requireEven_of_even (by simpa using heven)).trans hload)
  · exact exec_of_not_permitted (evenFReg_iff.2 heven) rfl
  · have hexec : exec (.sdc1 ft imm rs) s = .next (afterSdc1 ft (s.effAddr rs imm) s) :=
      (requireEven_of_even (by simpa using heven)).trans (store_of_permitted hok)
    exact ⟨_, hexec, afterSdc1_wordAt_first .., afterSdc1_wordAt_second .., exec_frame hexec, exec_sequential rfl hexec⟩
  · exact exec_of_not_permitted (evenFReg_iff.2 heven) rfl
  · have hform : evenFReg ft = false := evenFReg_eq_false_iff.2 hodd
    exact ⟨exec_of_reservedForm (.inl hform), exec_of_reservedForm (.inl hform)⟩

end Sys2Proof.Machine

/-! What the assembler makes of pseudo-instructions (47_pseudoinstructions.md): the effect of each expansion, from
the effects of its machine instructions. -/

namespace Sys2Proof.Machine

/-! ### Two instructions, one after the other -/

/-- Everything that `w` names is named by `w'` too. The proofs by default serve where both are written
out field by field. -/
structure Touched.Within (w w' : Touched) : Prop where
  gprs : w.gprs ⊆ w'.gprs := by simp
  fprs : w.fprs ⊆ w'.fprs := by simp
  hiLo : w'.hiLo = false → w.hiLo = false := by simp
  fpcond : w'.fpcond = false → w.fpcond = false := by simp
  link : w'.link = false → w.link = false := by simp
  stored : ∀ a, w.storesAt a → w'.storesAt a := by simp [Touched.storesAt]

theorem Frame.mono {w w' : Touched} {s t : State} (h : Frame w s t) (hw : w.Within w') : Frame w' s t where
  gprs r hr := h.gprs r (mt (@hw.gprs r) hr)
  fprs n hn := h.fprs n (mt (@hw.fprs n) hn)
  hiLo hout := h.hiLo (hw.hiLo hout)
  fpcond hout := h.fpcond (hw.fpcond hout)
  link hout := h.link (hw.link hout)
  control := h.control
  bytes a ha := h.bytes a (mt (hw.stored a) ha)

theorem Frame.trans {w : Touched} {s t u : State} (h : Frame w s t) (h' : Frame w t u) : Frame w s u where
  gprs r hr := (h'.gprs r hr).trans (h.gprs r hr)
  fprs n hn := (h'.fprs n hn).trans (h.fprs n hn)
  hiLo hout := ⟨(h'.hiLo hout).1.trans (h.hiLo hout).1, (h'.hiLo hout).2.trans (h.hiLo hout).2⟩
  fpcond hout := (h'.fpcond hout).trans (h.fpcond hout)
  link hout := ⟨(h'.link hout).1.trans (h.link hout).1, (h'.link hout).2.trans (h.link hout).2⟩
  control n := (h'.control n).trans (h.control n)
  bytes a ha := (h'.bytes a ha).trans (h.bytes a ha)

/-! ### The program counter without delay slots (R28, R150) -/

theorem Sequential.pc_eq {s t : State} (h : Sequential s t) (hnone : s.params.branchDelay = .none) :
    t.pc = s.pc + 4#32 := by
  simpa [Sequential, hnone] using h

theorem Transfers.pc_eq {taken : Bool} {target : Word} {s t : State} (h : Transfers taken target s t)
    (hnone : s.params.branchDelay = .none) : t.pc = if taken then target else s.pc + 4#32 := by
  simpa [Transfers, hnone] using h

/-! ### Labels (R106, R279) -/

namespace Assembler

theorem toInt_of_signedImm {v : Int} {imm : Imm} (h : signedImm v = some imm) : imm.toInt = v := by
  obtain ⟨⟨hlow, hhigh⟩, himm⟩ := Option.ite_none_right_eq_some.1 h
  rw [← Option.some.inj himm]
  exact BitVec.toInt_ofInt_eq_self (by decide) hlow (Int.lt_add_one_of_le hhigh)

/-- The field that the assembler puts into a branch leads to the label, across the end of the address space too
(R90, R279; log 25). -/
theorem branchTarget_of_branchField {pc label : Word} {imm : Imm} (h : branchField pc label = some imm) :
    branchTarget pc imm = label := by
  obtain ⟨hwhole, hfield⟩ := Option.ite_none_right_eq_some.1 h
  calc branchTarget pc imm
      = pc + 4#32 + BitVec.ofInt 32 (4 * imm.toInt) := branchTarget_eq pc imm
    _ = pc + 4#32 + BitVec.ofInt 32 (label - (pc + 4#32)).toInt := by
        rw [toInt_of_signedImm hfield, Int.mul_ediv_cancel' (Int.dvd_of_emod_eq_zero hwhole)]
    _ = label := by rw [BitVec.ofInt_toInt, BitVec.add_comm, BitVec.sub_add_cancel]

theorem compareBranch_eq_some {compare i j : Instr} {branch : Imm → Instr} {pc label : Word}
    (h : compareBranch compare branch pc label = some [i, j]) :
    i = compare ∧ ∃ imm, branchField (pc + 4#32) label = some imm ∧ j = branch imm := by
  obtain ⟨imm, hfield, hlist⟩ := Option.map_eq_some_iff.1 h
  obtain ⟨rfl, rfl⟩ : compare = i ∧ branch imm = j := by simpa using hlist
  exact ⟨rfl, imm, hfield, rfl⟩

/-! ### A comparison into `$at`, then a branch on `$at` (R271 to R274) -/

/-- Without delay slots, the branch goes to its target exactly when `$at` passes the test, and changes nothing else. -/
def BranchesWhen (branch : Imm → Instr) (test : Word → Bool) : Prop :=
  ∀ (imm : Imm) (s : State), s.params.branchDelay = .none →
    ∃ t, exec (branch imm) s = .next t ∧ Frame {} s t ∧
      t.pc = if test (s.reg at_) then branchTarget s.pc imm else s.pc + 4#32

theorem branchesWhen_bne : BranchesWhen (.bne at_ 0#5) (· ≠ 0#32) := by
  intro imm s hnone
  obtain ⟨hexec, hframe, htransfers⟩ := exec_transfer (i := .bne at_ 0#5 imm) rfl (.inl hnone)
  exact ⟨_, hexec, hframe, branchTarget_eq s.pc imm ▸ htransfers.pc_eq hnone⟩

theorem branchesWhen_beq : BranchesWhen (.beq at_ 0#5) (· = 0#32) := by
  intro imm s hnone
  obtain ⟨hexec, hframe, htransfers⟩ := exec_transfer (i := .beq at_ 0#5 imm) rfl (.inl hnone)
  exact ⟨_, hexec, hframe, branchTarget_eq s.pc imm ▸ htransfers.pc_eq hnone⟩

/-- The two words run one after the other: to the label exactly when the comparison passes the test of the branch. -/
theorem compareBranch_runs {branch : Imm → Instr} {test : Word → Bool} (hbranch : BranchesWhen branch test)
    {ra rb : Reg} {label : Word} {s : State} {i j : Instr} {taken : Bool} (hnone : s.params.branchDelay = .none)
    (hwords : compareBranch (.slt at_ ra rb) branch s.pc label = some [i, j])
    (htaken : test (boolWord (lessSigned (s.reg ra) (s.reg rb))) = taken) :
    ∃ t u, exec i s = .next t ∧ exec j t = .next u ∧ u.pc = (if taken then label else s.pc + 8#32) ∧
      Frame { gprs := [at_] } s u := by
  obtain ⟨rfl, imm, hfield, rfl⟩ := compareBranch_eq_some hwords
  have hslt := wroteReg_setReg_advance s at_ (boolWord (lessSigned (s.reg ra) (s.reg rb)))
  set t := (s.setReg at_ (boolWord (lessSigned (s.reg ra) (s.reg rb)))).advance
  obtain ⟨u, hexec, hframe, hpc⟩ := hbranch imm t hnone
  refine ⟨t, u, rfl, hexec, ?_, hslt.frame.trans (hframe.mono {})⟩
  have hat : t.reg at_ = boolWord (lessSigned (s.reg ra) (s.reg rb)) := hslt.value
  rw [hpc, hat, htaken, hslt.sequential.pc_eq hnone, branchTarget_of_branchField hfield, BitVec.add_assoc]
  rfl

end Assembler

/-! The tests of bne and beq on the word that slt writes. -/

theorem boolWord_ne_zero (b : Bool) : decide (boolWord b ≠ 0#32) = b := by cases b <;> rfl

theorem boolWord_eq_zero (b : Bool) : decide (boolWord b = 0#32) = !b := by cases b <;> rfl

theorem not_lessSigned (a b : Word) : (!lessSigned a b) = decide (b.toInt ≤ a.toInt) := by
  rw [lessSigned, ← decide_not, decide_eq_decide, not_lt]

/-- Settles O56: bne takes the comparison as it is, beq its negation; bgt and ble exchange the operands. -/
theorem pseudoBranches : Obligations.PseudoBranches := by
  intro rs rt label s p taken i j hnone hp hwords
  simp only [List.mem_cons, Prod.mk.injEq, List.not_mem_nil, or_false] at hp
  obtain ⟨rfl, rfl⟩ | ⟨rfl, rfl⟩ | ⟨rfl, rfl⟩ | ⟨rfl, rfl⟩ := hp
  · exact Assembler.compareBranch_runs Assembler.branchesWhen_bne hnone hwords (boolWord_ne_zero _)
  · exact Assembler.compareBranch_runs Assembler.branchesWhen_bne hnone hwords (boolWord_ne_zero _)
  · exact Assembler.compareBranch_runs Assembler.branchesWhen_beq hnone hwords
      ((boolWord_eq_zero _).trans (not_lessSigned _ _))
  · exact Assembler.compareBranch_runs Assembler.branchesWhen_beq hnone hwords
      ((boolWord_eq_zero _).trans (not_lessSigned _ _))

/-! ### li, move, and the divisions with three operands (R275 to R278) -/

/-- The two halves of a word make it up again (R275). -/
theorem upperImm_or_zeroExtImm (v : Word) :
    upperImm (v.extractLsb' 16 16) ||| zeroExtImm (v.extractLsb' 0 16) = v := by
  apply BitVec.eq_of_getLsbD_eq
  intro k hk
  rw [getLsbD_or_zeroExtImm _ _ hk, upperImm, BitVec.getLsbD_append]
  by_cases hlow : k < 16
  · simp [hlow]
  · simp [hlow, show k - 16 < 16 by omega, show 16 + (k - 16) = k by omega]

/-- lui puts the upper half into `$at`, and ori adds the lower half; `rd` may be `$at` itself (R275). -/
theorem li_runs (rd : Reg) (v : Word) (s : State) :
    ∃ t u, exec (.lui Assembler.at_ (v.extractLsb' 16 16)) s = .next t ∧
      exec (.ori rd Assembler.at_ (v.extractLsb' 0 16)) t = .next u ∧ u.reg rd = afterWrite rd v ∧
      Frame { gprs := [Assembler.at_, rd] } s u := by
  have hlui := wroteReg_setReg_advance s Assembler.at_ (upperImm (v.extractLsb' 16 16))
  set t := (s.setReg Assembler.at_ (upperImm (v.extractLsb' 16 16))).advance
  have hat : t.reg Assembler.at_ = upperImm (v.extractLsb' 16 16) := hlui.value
  have hvalue : t.reg Assembler.at_ ||| zeroExtImm (v.extractLsb' 0 16) = v := by rw [hat, upperImm_or_zeroExtImm]
  obtain ⟨u, hexec, hori⟩ := exists_wroteReg (s := t) (r := rd) hvalue
  exact ⟨t, u, rfl, hexec, hori.value, (hlui.frame.mono {}).trans (hori.frame.mono {})⟩

/-- mflo after an instruction that wrote `hi` and `lo` alone copies the quotient, and leaves both (R277, R278). -/
theorem mflo_after_divide (rd : Reg) {s t : State} (hframe : Frame { hiLo := true } s t) :
    ∃ u, exec (.mflo rd) t = .next u ∧ u.reg rd = afterWrite rd u.lo ∧ u.lo = t.lo ∧ u.hi = t.hi ∧
      Frame { gprs := [rd], hiLo := true } s u := by
  have hmflo := wroteReg_setReg_advance t rd t.lo
  exact ⟨_, rfl, hmflo.value, rfl, rfl, (hframe.mono {}).trans (hmflo.frame.mono {})⟩

/-- Settles O57: li and the divisions run their two words; move adds to `$zero`. -/
theorem pseudoMoves : Obligations.PseudoMoves := by
  intro rd rs rt v pc s
  refine ⟨?_, ?_, ?_, ?_⟩
  · obtain ⟨t, u, hrun⟩ := li_runs rd v s
    exact ⟨_, _, t, u, rfl, hrun⟩
  · obtain ⟨t, hmove⟩ := exists_wroteReg (r := rd) (BitVec.zero_add (s.reg rs))
    exact ⟨_, t, rfl, hmove⟩
  · obtain ⟨t, hi, lo, hexec, hwrote, -⟩ := divideSigned.2 rs rt s
    obtain ⟨u, hmflo, hresult⟩ := mflo_after_divide rd hwrote.frame
    exact ⟨_, _, t, u, rfl, hexec, hmflo, hexec, hresult⟩
  · obtain ⟨t, hi, lo, hexec, hwrote, -⟩ := divideUnsigned.2 rs rt s
    obtain ⟨u, hmflo, hresult⟩ := mflo_after_divide rd hwrote.frame
    exact ⟨_, _, t, u, rfl, hexec, hmflo, hexec, hresult⟩

end Sys2Proof.Machine

/-! What can come of an instruction's meaning (60_exceptions.md): the causes that keep it from completing, each with the
fault that it ends in, and nothing else. -/

namespace Sys2Proof.Machine

/-! ### Overflow (R301) -/

/-- An instruction whose exact result is checked writes it or raises Overflow. -/
theorem exec_of_checkedResult {s : State} : ∀ {i : Instr} {v : Int}, checkedResult s i = some v →
    ∃ r, ExactOrOverflow r v s (exec i s)
  | .add rd rs rt, _, rfl => ⟨rd, exec_add_exactOrOverflow rd rs rt s⟩
  | .addi rt rs imm, _, rfl => ⟨rt, exec_addi_exactOrOverflow rt rs imm s⟩
  | .sub rd rs rt, _, rfl => ⟨rd, exec_sub_exactOrOverflow rd rs rt s⟩

theorem accessOf_of_checkedResult {s : State} : ∀ {i : Instr} {v : Int}, checkedResult s i = some v →
    accessOf s i = none
  | .add .., _, rfl | .addi .., _, rfl | .sub .., _, rfl => rfl

/-! ### Which bytes a read of several bytes needs (R52, R332) -/

/-- An access reads as values when its two parts do. -/
theorem Access.readable_add {k : AccessKind} {m n : Nat} {a : Word} {s : State} :
    Access.Readable ⟨k, m + n, a⟩ s ↔
      Access.Readable ⟨k, m, a⟩ s ∧ Access.Readable ⟨k, n, a + BitVec.ofNat 32 m⟩ s := by
  have hnext : ∀ j, a + BitVec.ofNat 32 m + BitVec.ofNat 32 j = a + BitVec.ofNat 32 (m + j) := fun j => by
    rw [BitVec.add_assoc, BitVec.ofNat_add]
  simp only [Access.Readable, hnext]
  refine ⟨fun h => ⟨fun j hj => h j (by omega), fun j hj => h (m + j) (by omega)⟩, fun ⟨hlow, hhigh⟩ j hj => ?_⟩
  by_cases hjm : j < m
  · exact hlow j hjm
  · obtain ⟨d, rfl⟩ := Nat.exists_eq_add_of_le (Nat.le_of_not_lt hjm)
    exact hhigh d (by omega)

section
variable {k : AccessKind} {s : State} {a : Word}

theorem exists_byteAt_iff : (∃ b, s.byteAt a = some b) ↔ Access.Readable ⟨k, 1, a⟩ s := by
  simp [Access.Readable]

theorem exists_halfAt_iff : (∃ v, s.halfAt a = some v) ↔ Access.Readable ⟨k, 2, a⟩ s := by
  rw [Access.readable_add (m := 1) (n := 1), ← exists_byteAt_iff, ← exists_byteAt_iff]
  simp [State.halfAt_eq_some]

theorem exists_wordAt_iff : (∃ v, s.wordAt a = some v) ↔ Access.Readable ⟨k, 4, a⟩ s := by
  rw [Access.readable_add (m := 1) (n := 3), Access.readable_add (m := 1) (n := 2),
    Access.readable_add (m := 1) (n := 1)]
  simp only [← exists_byteAt_iff, BitVec.add_assoc, BitVec.reduceAdd]
  simp [State.wordAt_eq_some]

theorem exists_wordPairAt_iff : (∃ v, s.wordPairAt a = some v) ↔ Access.Readable ⟨k, 8, a⟩ s := by
  rw [Access.readable_add (m := 4) (n := 4), ← exists_wordAt_iff, ← exists_wordAt_iff]
  unfold State.wordPairAt
  cases s.wordAt a <;> cases s.wordAt (a + 4#32) <;> simp

end

/-! ### Loads and stores -/

/-- A well-formed load is `load`, with a read that finds a value when every byte of the access has one. -/
theorem exec_eq_load {s : State} : ∀ {i : Instr} {n : Nat} {a : Word}, i.wellFormed = true →
    accessOf s i = some ⟨.load, n, a⟩ → ∃ (α : Type) (read : State → Word → Option α) (f : α → State),
      exec i s = load n read a s f ∧ ((∃ v, read s a = some v) ↔ Access.Readable ⟨.load, n, a⟩ s)
  | .lw .., _, _, _, rfl | .ll .., _, _, _, rfl | .lwc1 .., _, _, _, rfl => ⟨_, _, _, rfl, exists_wordAt_iff⟩
  | .lhu .., _, _, _, rfl | .lh .., _, _, _, rfl => ⟨_, _, _, rfl, exists_halfAt_iff⟩
  | .lbu .., _, _, _, rfl | .lb .., _, _, _, rfl => ⟨_, _, _, rfl, exists_byteAt_iff⟩
  | .ldc1 .., _, _, heven, rfl =>
    ⟨_, _, _, if_pos (by simpa [Instr.wellFormed] using heven), exists_wordPairAt_iff⟩

theorem exec_eq_store {s : State} : ∀ {i : Instr} {n : Nat} {a : Word}, i.wellFormed = true →
    accessOf s i = some ⟨.store, n, a⟩ → ∃ written, exec i s = store n a s written
  | .sw .., _, _, _, rfl | .sb .., _, _, _, rfl | .sh .., _, _, _, rfl | .sc .., _, _, _, rfl
  | .swc1 .., _, _, _, rfl => ⟨_, rfl⟩
  | .sdc1 .., _, _, heven, rfl => ⟨_, if_pos (by simpa [Instr.wellFormed] using heven)⟩

section
variable {s : State} {i : Instr} {n : Nat} {a : Word}

/-- A permitted load of bytes that all have values completes. -/
theorem exec_of_readable (hform : i.wellFormed = true) (hacc : accessOf s i = some ⟨.load, n, a⟩)
    (hok : Access.Permitted ⟨.load, n, a⟩ s) (hread : Access.Readable ⟨.load, n, a⟩ s) : ∃ t, exec i s = .next t := by
  obtain ⟨α, read, f, hexec, hvalue⟩ := exec_eq_load hform hacc
  obtain ⟨v, hv⟩ := hvalue.2 hread
  exact ⟨_, hexec.trans (load_of_permitted hok hv)⟩

/-- A permitted load of a byte that has no value ends the run with UninitialisedRead, in the state as it was (R332). -/
theorem exec_of_not_readable (hform : i.wellFormed = true) (hacc : accessOf s i = some ⟨.load, n, a⟩)
    (hok : Access.Permitted ⟨.load, n, a⟩ s) (hread : ¬ Access.Readable ⟨.load, n, a⟩ s) :
    exec i s = .fault (.uninitialisedRead (.memory a) s.pc s) := by
  obtain ⟨α, read, f, hexec, hvalue⟩ := exec_eq_load hform hacc
  have hpass : s.accessOk .load n a = true := (Access.permitted_iff (a := ⟨.load, n, a⟩) nofun).1 hok
  rw [hexec]
  rcases load_cases n read a s f with ⟨v, -, hv, -⟩ | ⟨hbad, -⟩ | ⟨-, -, h⟩
  · exact absurd (hvalue.1 ⟨v, hv⟩) hread
  · simp [hpass] at hbad
  · exact h

/-- A permitted store completes. -/
theorem exec_of_permitted_store (hform : i.wellFormed = true) (hacc : accessOf s i = some ⟨.store, n, a⟩)
    (hok : Access.Permitted ⟨.store, n, a⟩ s) : ∃ t, exec i s = .next t := by
  obtain ⟨written, hexec⟩ := exec_eq_store hform hacc
  exact ⟨_, hexec.trans (store_of_permitted hok)⟩

end

/-! ### Every other instruction -/

/-- An instruction that accesses no memory and checks no result completes where its form is not reserved. -/
theorem exec_of_no_check {s : State} {i : Instr} (hform : ¬ ReservedForm s i) (hres : checkedResult s i = none)
    (hacc : accessOf s i = none) : ∃ t, exec i s = .next t := by
  simp only [ReservedForm, not_or, Bool.not_eq_false, not_and, not_not] at hform
  obtain ⟨heven, hslot⟩ := hform
  cases i
  case add | addi | sub => nomatch hres
  case lw | lbu | lb | lhu | lh | ll | lwc1 | ldc1 | sw | sb | sh | sc | swc1 | sdc1 => nomatch hacc
  case beq | bne | j | jal | jr | bc1t | bc1f => exact ⟨_, (exec_transfer rfl (hslot rfl)).1⟩
  case addD | subD | mulD | divD | cEqD | cLtD | cLeD =>
    exact ⟨_, if_pos (by simpa [Instr.wellFormed, and_assoc] using heven)⟩
  case div rs rt =>
    obtain ⟨t, -, -, hexec, -⟩ := divideSigned.2 rs rt s
    exact ⟨t, hexec⟩
  case divu rs rt =>
    obtain ⟨t, -, -, hexec, -⟩ := divideUnsigned.2 rs rt s
    exact ⟨t, hexec⟩
  all_goals exact ⟨_, rfl⟩

/-! ### All that can come of a meaning -/

/-- What an instruction's meaning can answer in a state: a fault for each cause that keeps it from completing, or a next
state where there is none (R301 to R305, R332). -/
inductive ExecOutcome (i : Instr) (s : State) : Result → Prop
  | reserved (hform : ReservedForm s i) :
    ExecOutcome i s (.fault (.reservedInstruction (encode i) s.pc (afterException s)))
  | overflow {v : Int} (hres : checkedResult s i = some v) (hnot : ¬ Fits32 v) :
    ExecOutcome i s (.fault (.overflow s.pc (afterException s)))
  | addressError {a : Access} (hform : i.wellFormed = true) (hacc : accessOf s i = some a) (hbad : ¬ a.Permitted s) :
    ExecOutcome i s (.fault (.addressError a.kind a.addr s.pc (afterException s)))
  | uninitialisedRead {n : Nat} {a : Word} (hform : i.wellFormed = true) (hacc : accessOf s i = some ⟨.load, n, a⟩)
    (hok : Access.Permitted ⟨.load, n, a⟩ s) (hread : ¬ Access.Readable ⟨.load, n, a⟩ s) :
    ExecOutcome i s (.fault (.uninitialisedRead (.memory a) s.pc s))
  | next {t : State} (h : Completes s i) : ExecOutcome i s (.next t)

theorem ExecOutcome.of_next {i : Instr} {s : State} (h : Completes s i) (hexec : ∃ t, exec i s = .next t) :
    ExecOutcome i s (exec i s) := by
  obtain ⟨t, ht⟩ := hexec
  exact ht ▸ .next h

/-- A load or store of a well-formed instruction is not permitted, finds no value, or completes. -/
theorem execOutcome_of_access {i : Instr} {s : State} {a : Access} (hform : ¬ ReservedForm s i)
    (hres : checkedResult s i = none) (hacc : accessOf s i = some a) : ExecOutcome i s (exec i s) := by
  have heven : i.wellFormed = true := Bool.not_eq_false _ ▸ (not_or.1 hform).1
  have hcompletes : a.Permitted s → (a.kind = .load → a.Readable s) → Completes s i := fun hok hread =>
    ⟨hform, by simp [hres], by simpa [hacc] using hok, by simpa [hacc] using hread⟩
  by_cases hok : a.Permitted s
  case neg => exact exec_of_not_permitted heven hacc hok ▸ .addressError heven hacc hok
  obtain ⟨kind, n, addr⟩ := a
  cases kind with
  | fetch => exact absurd rfl (accessOf_kind_ne_fetch hacc)
  | store => exact .of_next (hcompletes hok nofun) (exec_of_permitted_store heven hacc hok)
  | load =>
    by_cases hread : Access.Readable ⟨.load, n, addr⟩ s
    · exact .of_next (hcompletes hok fun _ => hread) (exec_of_readable heven hacc hok hread)
    · exact exec_of_not_readable heven hacc hok hread ▸ .uninitialisedRead heven hacc hok hread

/-- The causes in the order in which a meaning tests for them; an instruction with none of them completes. -/
theorem exec_outcome (i : Instr) (s : State) : ExecOutcome i s (exec i s) := by
  by_cases hform : ReservedForm s i
  · exact exec_of_reservedForm hform ▸ .reserved hform
  cases hres : checkedResult s i with
  | some v =>
    obtain ⟨r, hexec⟩ := exec_of_checkedResult hres
    have hacc := accessOf_of_checkedResult hres
    by_cases hfits : Fits32 v
    · obtain ⟨t, ht, -⟩ := hexec.result hfits
      exact ht ▸ .next ⟨hform, by simpa [hres] using hfits, by simp [hacc], by simp [hacc]⟩
    · exact hexec.overflow hfits ▸ .overflow hres hfits
  | none =>
    cases hacc : accessOf s i with
    | some a => exact execOutcome_of_access hform hres hacc
    | none => exact .of_next ⟨hform, by simp [hres], by simp [hacc], by simp [hacc]⟩ (exec_of_no_check hform hres hacc)

/-! ### Who raises which exception -/

/-- Settles O12: of the outcomes of a meaning only one is Overflow, and its cause decides the outcome. -/
theorem overflowRaisers : Obligations.OverflowRaisers := by
  intro i s p t
  constructor
  · intro hexec
    have hout := exec_outcome i s
    rw [hexec] at hout
    cases hout with
    | overflow hres hnot => exact ⟨⟨_, hres, hnot⟩, rfl, rfl⟩
  · rintro ⟨⟨v, hres, hnot⟩, rfl, rfl⟩
    obtain ⟨r, hexec⟩ := exec_of_checkedResult hres
    exact hexec.overflow hnot

/-- Settles O13: of the outcomes of a meaning only one is AddressError, and its cause decides the outcome. -/
theorem addressErrorRaisers : Obligations.AddressErrorRaisers := by
  intro i s k a p t
  constructor
  · intro hexec
    have hout := exec_outcome i s
    rw [hexec] at hout
    cases hout with
    | addressError hform hacc hbad => exact ⟨hform, ⟨_, hacc, hbad⟩, rfl, rfl⟩
  · rintro ⟨hform, ⟨n, hacc, hbad⟩, rfl, rfl⟩
    exact exec_of_not_permitted hform hacc hbad

/-- Settles O15: of the outcomes of a meaning only one is UninitialisedRead, and its cause decides the outcome. -/
theorem uninitialisedReadRaisers : Obligations.UninitialisedReadRaisers := by
  intro i s p pc t
  constructor
  · intro hexec
    have hout := exec_outcome i s
    rw [hexec] at hout
    cases hout with
    | uninitialisedRead hform hacc hok hread => exact ⟨hform, ⟨_, _, rfl, hacc, hok, hread⟩, rfl, rfl⟩
  · rintro ⟨hform, ⟨a, n, rfl, hacc, hok, hread⟩, rfl, rfl⟩
    exact exec_of_not_readable hform hacc hok hread

/-- Settles O16: completing leaves no cause, and every other outcome has one. -/
theorem completesExactly : Obligations.CompletesExactly := by
  intro i s
  constructor
  · rintro ⟨t, hexec⟩
    have hout := exec_outcome i s
    rw [hexec] at hout
    cases hout with
    | next h => exact h
  · intro h
    have hout := exec_outcome i s
    generalize exec i s = run at hout
    cases hout with
    | reserved hform => exact absurd hform h.form
    | overflow hres hnot => exact absurd (h.result _ hres) hnot
    | addressError _ hacc hbad => exact absurd (h.permitted _ hacc) hbad
    | uninitialisedRead _ hacc _ hread => exact absurd (h.readable _ hacc rfl) hread
    | next => exact ⟨_, rfl⟩

/-! ### Exceptions are precise (R303, R318) -/

/-- The run ends in an exception only with the `pc` of the state before, and in that state with `llbit` cleared. -/
def PreciseFrom (s : State) (run : Result) : Prop :=
  ∀ f, run = .fault f → f.isException = true → f.pc = s.pc ∧ f.final = afterException s

theorem preciseFrom_next {s t : State} : PreciseFrom s (.next t) := fun _ h => nomatch h

theorem preciseFrom_fault {s : State} {f : Fault}
    (h : f.isException = true → f.pc = s.pc ∧ f.final = afterException s) : PreciseFrom s (.fault f) :=
  fun _ hf => Host.Outcome.fault.inj hf ▸ h

/-- Every exception of a meaning is one that the state before it fixes; UninitialisedRead is none (R332). -/
theorem ExecOutcome.preciseFrom {i : Instr} {s : State} {run : Result} (h : ExecOutcome i s run) :
    PreciseFrom s run := by
  cases h with
  | reserved | overflow | addressError => exact preciseFrom_fault fun _ => ⟨rfl, rfl⟩
  | uninitialisedRead => exact preciseFrom_fault nofun
  | next => exact preciseFrom_next

/-- Settles O11: the faults around the meaning (`step_cases`), and those of the meaning (`exec_outcome`). -/
theorem exceptionsArePrecise : Obligations.ExceptionsArePrecise := by
  intro s
  change PreciseFrom s (step s)
  rcases step_cases s with
    ⟨-, e⟩ | ⟨-, ⟨-, e⟩ | ⟨-, -, e⟩ | ⟨w, -, -, -, e⟩ | ⟨w, i, p, -, -, -, -, e⟩ | ⟨w, i, -, -, -, -, e⟩⟩ <;> rw [e]
  case inl => exact preciseFrom_next
  case inr.inl | inr.inr.inr.inl => exact preciseFrom_fault fun _ => ⟨rfl, rfl⟩
  case inr.inr.inl | inr.inr.inr.inr.inl => exact preciseFrom_fault nofun
  case inr.inr.inr.inr.inr => exact (exec_outcome i s).preciseFrom

end Sys2Proof.Machine

/-! Which registers have a value after an instruction, and the end of the run (70_reset_and_hazards.md). -/

namespace Sys2Proof.Machine

/-- A write gives a value to the registers that it writes, and to no other (R332; log 5). -/
theorem Write.hasValue_apply (w : Write) (u : State) {p : Piece} (hp : ∀ a, p ≠ .memory a) :
    (w.apply u).hasValue p = true ↔ u.hasValue p = true ∨ p ∈ w.pieces := by
  cases w with
  | gpr r v => simp [Write.apply, Write.pieces, State.hasValue_setReg, or_comm]
  | fpr n v => simp [Write.apply, Write.pieces, State.hasValue_setFpr, or_comm]
  | hiLo hi lo => simp [Write.apply, Write.pieces, State.hasValue_setHiLo, or_comm]
  | fpcond b => simp [Write.apply, Write.pieces, State.hasValue_setFpcond, or_comm]
  | byte a b => simp [Write.apply, Write.pieces, State.hasValue_congr (u.setByte_written a b) hp]
  | link | unlink | draws => simp [Write.apply, Write.pieces]

theorem hasValue_foldl_apply (ws : List Write) (u : State) {p : Piece} (hp : ∀ a, p ≠ .memory a) :
    (ws.foldl Write.apply u).hasValue p = true ↔ u.hasValue p = true ∨ p ∈ ws.flatMap Write.pieces := by
  induction ws generalizing u with
  | nil => simp
  | cons w ws ih => rw [List.foldl_cons, ih, w.hasValue_apply u hp, List.flatMap_cons, List.mem_append, or_assoc]

@[simp] theorem Flow.hasValue_apply (flow : Flow) (u : State) (p : Piece) :
    (flow.apply u).hasValue p = u.hasValue p := by
  cases flow <;> rfl

/-- Settles O60: the writes of the instruction's effect are those of its destinations. -/
theorem writesGiveValues : Obligations.WritesGiveValues := by
  intro i s t p hexec hp
  obtain ⟨e, he, rfl⟩ := exec_eq_next hexec
  rw [Effect.apply, Flow.hasValue_apply, hasValue_foldl_apply e.writes s hp, he.pieces]

/-- Settles O7: of the cases of `step_cases` only the first is at `END_PC`. -/
theorem stepStaysAtEnd : Obligations.StepStaysAtEnd := by
  intro s hend
  rcases step_cases s with ⟨-, hstep⟩ | ⟨hne, -⟩
  · exact hstep
  · exact absurd hend hne

end Sys2Proof.Machine
